-- ==== Sys2Proof/Word.lean ====
section
/-! DEFINITION. The word types of SEQ-IIR: every datum on the bus is one 32-bit word (20_memory.md R70, R81), and the
buffers' memory is kept in bytes. -/

namespace Sys2Proof

/-- A 32-bit bus word: a register value, a binary32 pattern, a bus offset or a command word (00_scope.md R8, R9). -/
abbrev Word := BitVec 32

/-- One byte lane of a word (20_memory.md R81). -/
abbrev Byte := BitVec 8

end Sys2Proof
end

