-- ==== Sys2Proof/Machine/Binary32.lean ====
section
/-! DEFINITION. IEEE-754 binary32 words (00_scope.md R10), rounding to binary32, and the three arithmetic operations of
42_biquad_section.md R160 to R163. A finite word is converted to an exact integer of units of 2^-149, the operation is
exact on integers, and `rnd32` narrows once at the end. -/

namespace Sys2Proof.Machine

/-- The biased exponent `w[30:23]` (R10). -/
def f32Exp (w : Word) : Nat := (w.extractLsb' 23 8).toNat

/-- The fraction `w[22:0]` (R10). -/
def f32Frac (w : Word) : Nat := (w.extractLsb' 0 23).toNat

/-- The sign `w[31]` (R10). -/
def f32Sign (w : Word) : Bool := w.msb

/-- The exponent is 255 and the fraction is not 0 (R10). -/
def f32IsNaN (w : Word) : Bool := f32Exp w == 255 && f32Frac w != 0

/-- The exponent is 255 and the fraction is 0 (R10). -/
def f32IsInf (w : Word) : Bool := f32Exp w == 255 && f32Frac w == 0

/-- The exponent is not 255 (R10). -/
def f32IsFinite (w : Word) : Bool := f32Exp w != 255

/-- +0.0 or -0.0. -/
def f32IsZero (w : Word) : Bool := f32Exp w == 0 && f32Frac w == 0

/-- Exponent 0 with a fraction that is not 0. -/
def f32IsSubnormal (w : Word) : Bool := f32Exp w == 0 && f32Frac w != 0

/-- The magnitude of `real(w)` for a finite word, as a number of units of 2^-149 (R10). -/
def f32Mag (w : Word) : Nat :=
  if f32Exp w = 0 then f32Frac w else (2 ^ 23 + f32Frac w) * 2 ^ (f32Exp w - 1)

/-- `real(w)` of a finite word, as a number of units of 2^-149; every finite binary32 value is a whole number of them (R10). -/
def f32Units (w : Word) : Int := if f32Sign w then -(f32Mag w : Int) else (f32Mag w : Int)

/-- The canonical quiet NaN, CNAN (R10, R163). -/
def f32CNaN : Word := 0x7FC00000#32

/-- The word with a sign and with `m` in bits 30:0. -/
def f32Pack (sign : Bool) (m : Nat) : Word := BitVec.ofNat 32 (if sign then 2 ^ 31 + m else m)

/-- The bits 30:0 of the pattern of infinity. -/
def f32InfBits : Nat := 0x7F800000

/-- `n / d` to the nearest whole number, ties to even (RNE). -/
def roundHalfEven (n d : Nat) : Nat :=
  if 2 * (n % d) > d ∨ (2 * (n % d) = d ∧ (n / d) % 2 = 1) then n / d + 1 else n / d

/-- The exponent of the unit in the last place of a value of `t` whole units of 2^-149 (and a part of one), in those units:
24 significant bits, and never below one unit. -/
def ulpExponent (t : Nat) : Nat := t.log2 - 23

/-- Bits 30:0 of `rnd32 (n / d)`: the value rounded to a whole number `m` of its unit in the last place 2^(e - 149), and the
pattern of `m * 2^(e - 149)`, which is `e * 2^23 + m` for subnormal, normal and carried `m` alike; at or above the range
it is infinity (R10: to nearest with ties to even, overflowing to infinity). -/
def roundBits (n d : Nat) : Nat :=
  let e := ulpExponent (n * 2 ^ 149 / d)
  min (e * 2 ^ 23 + roundHalfEven (n * 2 ^ 149) (d * 2 ^ e)) f32InfBits

/-- `rnd32(n / d)` for a positive `d` (R10). DEDUCED: a value that rounds to zero gives +0, whatever its sign; R10 names no
zero, and R160 and R162 state the sign of each zero themselves (log 10). -/
def rnd32 (n : Int) (d : Nat) : Word :=
  let m := roundBits n.natAbs d
  f32Pack (decide (n < 0) && m != 0) m

/-- FTZ = true reads a subnormal operand, and replaces a subnormal result, by a zero of its own sign (R163). -/
def f32Flush (ftz : Bool) (w : Word) : Word := if ftz && f32IsSubnormal w then w &&& 0x80000000#32 else w

/-- The five cases of R160, first case first. -/
def f32AddCases (a b : Word) : Word :=
  if f32IsNaN a || f32IsNaN b then f32CNaN
  else if f32IsInf a && f32IsInf b && f32Sign a != f32Sign b then f32CNaN
  else if f32IsInf a then a
  else if f32IsInf b then b
  else if f32Units a + f32Units b = 0 then f32Pack (f32Sign a && f32Sign b) 0
  else rnd32 (f32Units a + f32Units b) (2 ^ 149)

/-- The five cases of R162, first case first. -/
def f32MulCases (a b : Word) : Word :=
  if f32IsNaN a || f32IsNaN b then f32CNaN
  else if (f32IsZero a && f32IsInf b) || (f32IsInf a && f32IsZero b) then f32CNaN
  else if f32IsInf a || f32IsInf b then f32Pack (f32Sign a != f32Sign b) f32InfBits
  else if f32IsZero a || f32IsZero b then f32Pack (f32Sign a != f32Sign b) 0
  else f32Pack (f32Sign a != f32Sign b) (roundBits (f32Mag a * f32Mag b) (2 ^ 298))

/-- `f32_add(a, b)` (R160, R163). -/
def f32Add (ftz : Bool) (a b : Word) : Word := f32Flush ftz (f32AddCases (f32Flush ftz a) (f32Flush ftz b))

/-- `f32_sub(a, b)` is `f32_add` of a and b with its sign bit inverted, NaN included (R161). -/
def f32Sub (ftz : Bool) (a b : Word) : Word := f32Add ftz a (b ^^^ 0x80000000#32)

/-- `f32_mul(a, b)` (R162, R163). -/
def f32Mul (ftz : Bool) (a b : Word) : Word := f32Flush ftz (f32MulCases (f32Flush ftz a) (f32Flush ftz b))

/-- `ord` of 41_coefficient_factory.md R141: binary32 words to integers in numeric order. DESIGN CHOICE: -0 and +0 are one
number and so have one integer (log 11). -/
def f32Ord (w : Word) : Int :=
  if f32Sign w then -((w &&& 0x7FFFFFFF#32).toNat : Int) else ((w &&& 0x7FFFFFFF#32).toNat : Int)

end Sys2Proof.Machine
end

