-- ==== Sys2Proof/Config.lean ====
section
/-! DEFINITION. What an implementation of SEQ-IIR fixes: the OPEN parameters of 00_scope.md R8 as plain data, and the two
free values the spec leaves open, opaque constants that no proof can see into. -/

namespace Sys2Proof

/-- The OPEN parameters of 00_scope.md R8 and 92_eei_decisions.md. A machine holds them as data and no step changes them,
so a statement about every state is a statement about every choice of them (log 4). T_JOB_MAX is left out (log 9). -/
structure Params where
  /-- BUF_FRAMES, an integer in 1..16384: the words of one sample buffer (R8, R33, D12). -/
  bufFrames : Nat
  /-- COEF_TOL_ULP, an integer at least 0: the factory's tolerance (41_coefficient_factory.md R141, D15). -/
  coefTolUlp : Nat
  /-- FTZ: flush subnormals to zero in the section arithmetic (42_biquad_section.md R163, D14). -/
  ftz : Bool
  /-- BASE_ADDR, a bus address aligned to 0x40000 (20_memory.md R84, D4). -/
  baseAddr : Word
  deriving DecidableEq, Repr

/-- The reference values of 92_eei_decisions.md's table of OPEN parameters. DESIGN CHOICE: the table gives BASE_ADDR
none, and the model's reference is 0; unsafe only for a claim about absolute bus addresses (log 4). -/
def Params.reference : Params :=
  { bufFrames := 1024, coefTolUlp := 0, ftz := false, baseAddr := 0#32 }

/-- The five coefficient words of a section, by name (10_state.md R27). -/
inductive CoefName where
  | b0 | b1 | b2 | a1 | a2
  deriving DecidableEq, Repr

/-- The arguments on which one coefficient word depends, and on nothing else (41_coefficient_factory.md R141). Each real
argument is the exact value of a finite binary32 word, an integer number of units of 2^-149 (so -0 and +0 are one). -/
inductive CoefArgs where
  /-- The peak section's word `name` for sample rate `fs`, frequency `f`, quality `q` and gain `g` (R142). -/
  | peak (fs f q g : Int) (name : CoefName)
  /-- The word `name` of section `k` of the high-pass cascade of `S` sections (R146). -/
  | highpass (fs f : Int) (S k : Nat) (name : CoefName)
  /-- The word `name` of section `k` of the low-pass cascade of `S` sections (R147). -/
  | lowpass (fs f : Int) (S k : Nat) (name : CoefName)
  deriving DecidableEq, Repr

/-- Free value: byte `addr` of the sample buffers while nothing has written it since the `resets`-th reset
(20_memory.md R79, 70_reset_and_hazards.md R263: any value, chosen freely and not as zero). Safe (log 3). -/
opaque Config.unwrittenByte (resets addr : Nat) : Byte

/-- Free value: the word an implementation's factory gives for these arguments, where the spec leaves a choice: a word within a
COEF_TOL_ULP above 0 of the reference (41_coefficient_factory.md R141; log 8). A function of its arguments alone, so identical
arguments give identical words. Safe. -/
opaque Config.factoryWord (a : CoefArgs) : Word

end Sys2Proof
end

