-- ==== Sys2Proof/Syntax.lean ====
section
/-! DEFINITION. The commands of SEQ-IIR (30_encoding.md R101, spec/opcode_table.json): one constructor per row. -/

namespace Sys2Proof

/-- A command written to CMD. No command has an operand field: operands come from registers (30_encoding.md R100, R106). -/
inductive Instr where
  /-- NOP, `0x00000000` (44_processor.md R192). -/
  | nop
  /-- PREPARE, `0x00000001`: operands SAMPLE_RATE and MAX_BLOCK (44_processor.md R196). -/
  | prepare
  /-- RELEASE, `0x00000002` (44_processor.md R198). -/
  | release
  /-- PROCESS, `0x00000003`: operands BLOCK_LEN, the seven parameter registers and the buffers (44_processor.md R199). -/
  | process
  deriving DecidableEq, Repr

end Sys2Proof
end

