-- ==== Sys2Proof/Machine/State.lean ====
section
/-! DEFINITION. The state of SEQ-IIR as plain data: every item of 10_state.md R20 under a field of its own, and five fields
of the model's (the parameters, the steps still to come, what the last read returned, the fault record, the reset count).
With it the names the state is built of, the stop reasons, and the state after reset. -/

namespace Sys2Proof.Machine

/-- STATE, the sequencer state (10_state.md R24, R37). The fourth encoding is never read and no rule writes it
(93_implementation_defined.md S13), so it is not represented. -/
inductive SeqState where
  | unprepared | ready | busy
  deriving DecidableEq, Repr

/-- The seven error causes of 60_exceptions.md R230. -/
inductive ErrCause where
  | cmd | busy | unprep | cfg | param | num | access
  deriving DecidableEq, Repr

/-- The two channels, left = 0 and right = 1 (00_scope.md R8). -/
inductive Channel where
  | left | right
  deriving DecidableEq, Repr

/-- The two cut cascades of the channel chain (43_cut_cascade.md R180). -/
inductive Cascade where
  | lowCut | highCut
  deriving DecidableEq, Repr

/-- The five coefficient words of one section, normalised so that a0 = 1 (10_state.md R27). -/
structure Coefs where
  b0 : Word
  b1 : Word
  b2 : Word
  a1 : Word
  a2 : Word
  deriving DecidableEq, Repr

/-- The four history words of one section in one channel: the two previous inputs and the two previous outputs
(10_state.md R26, 90_conflicts.md C1). -/
structure Hist where
  x1 : Word
  x2 : Word
  y1 : Word
  y2 : Word
  deriving DecidableEq, Repr

/-- The coefficient bank C: one set for each of the nine sections 0..3 (LC), 4 (PK), 5..8 (HC) (10_state.md R27). -/
abbrev CoefBank := Vector Coefs 9

/-- One channel's part of the history file H (10_state.md R26). -/
abbrev HistFile := Vector Hist 9

/-- The seven parameters, in the parameter registers (10_state.md R36) and in SNAP (R35). A slope holds the 2-bit choice c. -/
structure ParamSet where
  lowCutFreq : Word
  lowCutSlope : BitVec 2
  highCutFreq : Word
  highCutSlope : BitVec 2
  peakFreq : Word
  peakGainDb : Word
  peakQ : Word
  deriving DecidableEq, Repr

/-- The registers of the control window, by the names of 10_state.md R39. -/
inductive Reg where
  | id | cmd | status | intEn | sampleRate | maxBlock | blockLen | blockCount | bufFrames | active
  | fsLatched | maxblkLatched | lenLatched | errInfo
  | lowCutFreq | lowCutSlope | highCutFreq | highCutSlope | peakFreq | peakGainDb | peakQ
  | snapLowCutFreq | snapLowCutSlope | snapHighCutFreq | snapHighCutSlope | snapPeakFreq | snapPeakGainDb | snapPeakQ
  deriving DecidableEq, Repr

/-- The access codes of 10_state.md R39. -/
inductive Access where
  | ro | rw | wo | w1c
  deriving DecidableEq, Repr

/-- What a bus offset names (20_memory.md R73, R74, R84). -/
inductive Region where
  /-- A register of 10_state.md R39. -/
  | register (r : Reg)
  /-- The COEF window (R76). -/
  | coefWindow
  /-- The HIST window (R77). -/
  | histWindow
  /-- A reserved offset: reads 0, ignores writes (R75). -/
  | reserved
  /-- Sample word `i` of a channel's buffer, below BUF_FRAMES (R79). -/
  | buffer (ch : Channel) (i : Nat)
  /-- No such location (R80). -/
  | unmapped
  deriving DecidableEq, Repr

/-- The kind of a bus transaction (20_memory.md R70). -/
inductive TxnKind where
  | read | write
  deriving DecidableEq, Repr

/-- A bus transaction, the tuple of 20_memory.md R70: `off` is the byte offset from BASE_ADDR and `be` the byte enables. -/
structure Txn where
  kind : TxnKind
  off : Word
  wdata : Word
  be : BitVec 4
  deriving DecidableEq, Repr

/-- One entry of the total order of steps (20_memory.md R85): whose step comes next. -/
inductive Input where
  /-- A bus master performs a transaction (R70). -/
  | transaction (t : Txn)
  /-- The sequencer gets its turn: the completion step if a job is pending (44_processor.md R201), else nothing (log 2). -/
  | sequencerTurn
  /-- The reset input is asserted (70_reset_and_hazards.md R260). -/
  | resetInput
  deriving DecidableEq, Repr

/-- Why the machine stops: never. Every refusal of SEQ-IIR returns at once, every job ends, and no behaviour is treated as
stuck (93_implementation_defined.md, 60_exceptions.md R236), so this type has no constructor and no step raises a fault.
Safe: a claim that a step answers a next state is proved for every state (log 7). -/
inductive Fault where
  deriving DecidableEq, Repr

/-- Why an instruction has no meaning in the model. -/
inductive Refusal where
  /-- Raised by an arm of `exec` whose instruction has no meaning yet; no arm raises it now. Safe: the model stops. -/
  | notModelled (mnemonic : String)
  deriving DecidableEq, Repr

/-- The state of SEQ-IIR (10_state.md R20) and the model's own fields. -/
structure State where
  /-- STATE (R24). -/
  seq : SeqState
  /-- DONE (R24). -/
  done : Bool
  /-- STATUS[14:8], the seven ERR bits, bit k for cause code k+1 (R24). -/
  errs : BitVec 7
  /-- FIRST_ERR (R24). -/
  firstErr : BitVec 4
  /-- ERR_INFO (R41). -/
  errInfo : Word
  /-- INT_EN: bit 0 DONE_IE, bit 1 ERR_IE (R25). -/
  intEn : BitVec 2
  /-- SAMPLE_RATE (R29). -/
  sampleRate : Word
  /-- MAX_BLOCK (R30). -/
  maxBlock : Word
  /-- BLOCK_LEN (R31). -/
  blockLen : Word
  /-- BLOCK_COUNT (R32). -/
  blockCount : Word
  /-- FS_L (R34). -/
  fsL : Word
  /-- MAXBLK_L (R34). -/
  maxBlkL : Word
  /-- LEN_L (R34). -/
  lenL : Word
  /-- The seven parameter registers (R36). -/
  regs : ParamSet
  /-- SNAP (R35). -/
  snap : ParamSet
  /-- LC_ACTIVE (R28). -/
  lcActive : BitVec 3
  /-- HC_ACTIVE (R28). -/
  hcActive : BitVec 3
  /-- The coefficient bank C (R27). -/
  coefs : CoefBank
  /-- H[0], the left channel's history (R26). -/
  histLeft : HistFile
  /-- H[1], the right channel's history (R26). -/
  histRight : HistFile
  /-- The bytes of LBUF and RBUF written since reset, by bus offset, in rising order (20_memory.md R79; log 3). -/
  mem : List Host.Cell
  /-- The OPEN parameters (00_scope.md R8; the model's field, log 4). -/
  params : Params
  /-- The steps still to come, first one first (20_memory.md R85; the model's field, log 1). -/
  inputs : List Input
  /-- What the last step returned to a bus master: `some` after a read (20_memory.md R70; the model's field, log 5). -/
  rdata : Option Word
  /-- The fault record that no step clears, oldest first (60_exceptions.md R246; the model's field, log 6). -/
  faults : List ErrCause
  /-- How many reset steps have been taken: which draw of the buffers holds (the model's field, log 3). -/
  resets : Nat
  deriving DecidableEq, Repr

/-- The operating point to which the parameter registers and SNAP reset (10_state.md R36, R35). -/
def ParamSet.reset : ParamSet :=
  { lowCutFreq := 0x41A00000#32
    lowCutSlope := 0#2
    highCutFreq := 0x469C4000#32
    highCutSlope := 0#2
    peakFreq := 0x443B8000#32
    peakGainDb := 0x00000000#32
    peakQ := 0x3F800000#32 }

/-- The identity coefficient set: b0 = 1.0, the others +0.0 (10_state.md R27). -/
def Coefs.identity : Coefs := { b0 := 0x3F800000#32, b1 := 0#32, b2 := 0#32, a1 := 0#32, a2 := 0#32 }

/-- A section's history after its reset: four words +0.0 (42_biquad_section.md R167). -/
def Hist.zero : Hist := { x1 := 0#32, x2 := 0#32, y1 := 0#32, y2 := 0#32 }

/-- Every section holds the identity set (10_state.md R27). -/
def CoefBank.identity : CoefBank := Vector.replicate 9 Coefs.identity

/-- Every section's history is zero (10_state.md R26). -/
def HistFile.zero : HistFile := Vector.replicate 9 Hist.zero

/-- The machine with parameters `p` right after its power-on reset (70_reset_and_hazards.md R260, 10_state.md R20), with no
step scheduled, nothing read and no fault recorded. -/
def State.powerOn (p : Params) : State :=
  { seq := .unprepared
    done := false
    errs := 0#7
    firstErr := 0#4
    errInfo := 0#32
    intEn := 0#2
    sampleRate := 0#32
    maxBlock := 0#32
    blockLen := 0#32
    blockCount := 0#32
    fsL := 0#32
    maxBlkL := 0#32
    lenL := 0#32
    regs := ParamSet.reset
    snap := ParamSet.reset
    lcActive := 0#3
    hcActive := 0#3
    coefs := CoefBank.identity
    histLeft := HistFile.zero
    histRight := HistFile.zero
    mem := []
    params := p
    inputs := []
    rdata := none
    faults := []
    resets := 0 }

/-- The machine right after reset, with the reference values of the OPEN parameters (92_eei_decisions.md; log 4). -/
def State.reset : State := State.powerOn Params.reference

end Sys2Proof.Machine
end

