-- ==== Sys2Proof/Machine/Operands.lean ====
section
/-! DEFINITION. The operands of the commands and of the job: section counts, the snapshot latch, and the checks of PREPARE's
operands and of the snapshot (30_encoding.md R104 to R106, 40_parameters.md, 44_processor.md R195, R200). Every comparison
of reals is exact, on integers of units of 2^-149. -/

namespace Sys2Proof.Machine

/-- The section count S = c + 1 of a slope choice (30_encoding.md R104). -/
def slopeSections (c : BitVec 2) : Nat := c.toNat + 1

/-- `FreqOK(f)`: finite and 20 ≤ real(f) ≤ 20000 (40_parameters.md R124). -/
def freqOk (f : Word) : Bool :=
  f32IsFinite f && decide (20 * 2 ^ 149 ≤ f32Units f) && decide (f32Units f ≤ 20000 * 2 ^ 149)

/-- `BelowNyquist(f)`: 2 * real(f) < real(FS_L) (40_parameters.md R125). DESIGN CHOICE: false if either word is not finite;
FS_L never is (log 13). -/
def belowNyquist (fs f : Word) : Bool :=
  f32IsFinite f && f32IsFinite fs && decide (2 * f32Units f < f32Units fs)

/-- `GainOK(g)`: finite and -24 ≤ real(g) ≤ 24 (40_parameters.md R126). -/
def gainOk (g : Word) : Bool :=
  f32IsFinite g && decide (-24 * 2 ^ 149 ≤ f32Units g) && decide (f32Units g ≤ 24 * 2 ^ 149)

/-- `QOK(q)`: finite and 1/10 ≤ real(q) ≤ 10, with the exact bound 1/10 (40_parameters.md R127). -/
def qOk (q : Word) : Bool :=
  f32IsFinite q && decide (2 ^ 149 ≤ 10 * f32Units q) && decide (f32Units q ≤ 10 * 2 ^ 149)

/-- `ParamCheck` (40_parameters.md R129, 60_exceptions.md R234): `none` if every field passes, else the offset of the parameter
register of the first failing field. -/
def paramCheck (p : ParamSet) (fs : Word) : Option Word :=
  if !(freqOk p.lowCutFreq && belowNyquist fs p.lowCutFreq) then some 0x040#32
  else if !(freqOk p.highCutFreq && belowNyquist fs p.highCutFreq) then some 0x048#32
  else if !(freqOk p.peakFreq && belowNyquist fs p.peakFreq) then some 0x050#32
  else if !gainOk p.peakGainDb then some 0x054#32
  else if !qOk p.peakQ then some 0x058#32
  else none

/-- PREPARE's operand check: SAMPLE_RATE finite and above 0, and 1 ≤ MAX_BLOCK ≤ BUF_FRAMES, unsigned (44_processor.md R195). -/
def prepareOk (s : State) : Bool :=
  f32IsFinite s.sampleRate && decide (0 < f32Units s.sampleRate) &&
    decide (1 ≤ s.maxBlock.toNat) && decide (s.maxBlock.toNat ≤ s.params.bufFrames)

/-- PROCESS's operand check: BLOCK_LEN ≤ MAXBLK_L, unsigned (44_processor.md R200). -/
def processLenOk (s : State) : Bool := decide (s.blockLen.toNat ≤ s.maxBlkL.toNat)

/-- The latch of an accepted PROCESS: the seven parameter registers into SNAP and BLOCK_LEN into LEN_L
(40_parameters.md R121, R123). -/
def latchOperands (s : State) : State := { s with snap := s.regs, lenL := s.blockLen }

end Sys2Proof.Machine
end

