-- ==== Sys2Proof/Decode.lean ====
section
/-! DEFINITION. Decoding and encoding of command words (30_encoding.md R100, R101, R102). Decoding is total: a word it
does not accept is rejected by the name of the check that failed. The encoder stands after the decoder. -/

namespace Sys2Proof

/-- Why a CMD word, or a run of bytes, is no command. -/
inductive DecodeError where
  /-- RSV, bits 31:4, is not 0 (30_encoding.md R102). -/
  | reservedBits
  /-- OPC is in 0x4..0xF (30_encoding.md R102). -/
  | reservedOpcode
  /-- Fewer than four bytes: a command is one 32-bit word (30_encoding.md R107). -/
  | truncated
  deriving DecidableEq, Repr

/-- The field OPC, bits 3:0 of a command word (30_encoding.md R100). -/
def opcField (v : Word) : BitVec 4 := v.extractLsb' 0 4

/-- The field RSV, bits 31:4 of a command word (30_encoding.md R100). -/
def rsvField (v : Word) : BitVec 28 := v.extractLsb' 4 28

/-- The opcode map of 30_encoding.md R101; every OPC from 0x4 to 0xF is reserved. -/
def decodeOpc (o : BitVec 4) : Except DecodeError Instr :=
  if o = 0x0#4 then .ok .nop
  else if o = 0x1#4 then .ok .prepare
  else if o = 0x2#4 then .ok .release
  else if o = 0x3#4 then .ok .process
  else .error .reservedOpcode

/-- The command a CMD word selects: a word selects a command only when RSV = 0 (30_encoding.md R101, R102). -/
def decode (v : Word) : Except DecodeError Instr :=
  if rsvField v = 0#28 then decodeOpc (opcField v) else .error .reservedBits

/-- The word whose byte lane `k` is the `k`-th byte (20_memory.md R81). -/
def wordOfBytes (b0 b1 b2 b3 : Byte) : Word := b3 ++ b2 ++ b1 ++ b0

/-- Byte lane `k` of a word, bits `8k+7:8k` (20_memory.md R81). -/
def byteLane (v : Word) (k : Nat) : Byte := v.extractLsb' (8 * k) 8

/-- The command held by the first four bytes, and the bytes after it (30_encoding.md R107: every command is one word). -/
def decodeBytes : List Byte → Except DecodeError (Instr × List Byte)
  | b0 :: b1 :: b2 :: b3 :: rest =>
    match decode (wordOfBytes b0 b1 b2 b3) with
    | .ok i => .ok (i, rest)
    | .error e => .error e
  | _ => .error .truncated

/-- The word of a command (30_encoding.md R101; RSV is 0 and OPC is the row's value). -/
def encode : Instr → Word
  | .nop => 0x00000000#32
  | .prepare => 0x00000001#32
  | .release => 0x00000002#32
  | .process => 0x00000003#32

/-- The four bytes of a command, lane 0 first (20_memory.md R81). -/
def encodeBytes (i : Instr) : List Byte :=
  [byteLane (encode i) 0, byteLane (encode i) 1, byteLane (encode i) 2, byteLane (encode i) 3]

/-- The command word of a table row whose first `nbits` bits are `w`: a command is one 32-bit word, and the bits above
`nbits` are 0. -/
def tableWord (nbits w : Nat) : Word := BitVec.ofNat 32 (w % 2 ^ nbits)

/-- What the decoder reads from an instruction numbered as spec/opcode_table.json numbers its bits: the word's four byte
lanes, lowest first, given to `decodeBytes`. -/
def decodeTableWord (nbits w : Nat) : Option Instr :=
  let v := tableWord nbits w
  match decodeBytes [byteLane v 0, byteLane v 1, byteLane v 2, byteLane v 3] with
  | .ok (i, _) => some i
  | .error _ => none

end Sys2Proof
end

