-- ==== Sys2Proof/Machine/Flags.lean ====
section
/-! DEFINITION. The flags of SEQ-IIR (10_state.md R24, R28, R38, R40): the STATUS and ACTIVE words, the error causes' codes and
bits, the write-one-to-clear write to STATUS, and the interrupt output. -/

namespace Sys2Proof.Machine

/-- The value of STATE in STATUS[1:0] (R24). -/
def SeqState.code : SeqState → BitVec 2
  | .unprepared => 0#2
  | .ready => 1#2
  | .busy => 2#2

/-- The cause code of an error (60_exceptions.md R230). -/
def ErrCause.code : ErrCause → BitVec 4
  | .cmd => 1#4
  | .busy => 2#4
  | .unprep => 3#4
  | .cfg => 4#4
  | .param => 5#4
  | .num => 6#4
  | .access => 7#4

/-- The STATUS bit of an error (60_exceptions.md R230), counted from STATUS bit 8. -/
def ErrCause.bit : ErrCause → BitVec 7
  | .cmd => 0b0000001#7
  | .busy => 0b0000010#7
  | .unprep => 0b0000100#7
  | .cfg => 0b0001000#7
  | .param => 0b0010000#7
  | .num => 0b0100000#7
  | .access => 0b1000000#7

/-- The STATUS word: FIRST_ERR in 19:16, the ERR bits in 14:8, DONE in 2, STATE in 1:0, every other bit 0 (R24). -/
def statusWord (s : State) : Word :=
  0#12 ++ s.firstErr ++ 0#1 ++ s.errs ++ 0#5 ++ BitVec.ofBool s.done ++ s.seq.code

/-- Bit i is `i < act`: the enable pattern of a cascade with count `act` (R28). -/
def enableMask (act : BitVec 3) : BitVec 4 :=
  BitVec.ofBool (decide (3 < act.toNat)) ++ BitVec.ofBool (decide (2 < act.toNat)) ++
    BitVec.ofBool (decide (1 < act.toNat)) ++ BitVec.ofBool (decide (0 < act.toNat))

/-- The ACTIVE word: HC_EN in 15:12, LC_EN in 11:8, HC_ACTIVE in 6:4, LC_ACTIVE in 2:0, every other bit 0 (R28). -/
def activeWord (s : State) : Word :=
  0#16 ++ enableMask s.hcActive ++ enableMask s.lcActive ++ 0#1 ++ s.hcActive ++ 0#1 ++ s.lcActive

/-- A write of `v` to STATUS: a 1 in bit 2 clears DONE, a 1 in bits 14:8 clears that ERR bit, every other bit is ignored; if no
ERR bit is left, FIRST_ERR becomes 0. ERR_INFO and STATE keep their values (R24, R41, 60_exceptions.md R232, R237). -/
def statusWrite (v : Word) (s : State) : State :=
  let errs := s.errs &&& ~~~(v.extractLsb' 8 7)
  { s with
    done := s.done && !(v.getLsbD 2)
    errs := errs
    firstErr := if errs = 0#7 then 0#4 else s.firstErr }

/-- The interrupt output, a function of the state (R38, 60_exceptions.md R239). -/
def State.irq (s : State) : Bool :=
  (s.done && s.intEn.getLsbD 0) || (s.errs != 0#7 && s.intEn.getLsbD 1)

end Sys2Proof.Machine
end

