-- ==== Sys2Proof/Machine/Ops.lean ====
section
/-! DEFINITION. The shared operations: raising an error (the machine's one way of taking an exception), the buffers' memory,
the register map with its reads and writes, the read-only windows, the address map, and the reset step. -/

namespace Sys2Proof.Machine

/-! ### Raising an error -/

/-- `raise ERR_X(info)` (60_exceptions.md R231, R232): with no ERR bit set it records the cause code in FIRST_ERR and the
information word in ERR_INFO; it sets the cause's ERR bit; and it appends the cause to the fault record (R246). It changes
nothing else: no mode, no mask, no transfer of control (R236). The return from an error is the host's W1C write to STATUS,
`statusWrite` (R237). -/
def raise (c : ErrCause) (info : Word) (s : State) : State :=
  { s with
    firstErr := if s.errs = 0#7 then c.code else s.firstErr
    errInfo := if s.errs = 0#7 then info else s.errInfo
    errs := s.errs ||| c.bit
    faults := s.faults ++ [c] }

/-! ### The buffers' memory: cells in strictly rising order of address -/

/-- The byte listed for an address, if there is one. -/
def memGet : List Host.Cell → Nat → Option Byte
  | [], _ => none
  | (k, b) :: m, a => if a = k then some b else memGet m a

/-- The memory with byte `v` at address `a`, kept in rising order. -/
def memSet : List Host.Cell → Nat → Byte → List Host.Cell
  | [], a, v => [(a, v)]
  | (k, b) :: m, a, v =>
    if a < k then (a, v) :: (k, b) :: m
    else if a = k then (a, v) :: m
    else (k, b) :: memSet m a v

/-- The canonical form: addresses strictly rising. An unlisted address reads as no listed value at all, so no entry equals
what an unlisted address reads as. -/
abbrev memWf (m : List Host.Cell) : Prop := m.Pairwise (fun x y => x.1 < y.1)

/-- The byte an address holds: the listed one, or the free value of the current reset (20_memory.md R79; log 3). -/
def memByte (resets : Nat) (m : List Host.Cell) (a : Nat) : Byte :=
  (memGet m a).getD (Config.unwrittenByte resets a)

/-- The word at address `a`: byte lane k is the byte at `a + k` (20_memory.md R81). -/
def memWord (resets : Nat) (m : List Host.Cell) (a : Nat) : Word :=
  wordOfBytes (memByte resets m a) (memByte resets m (a + 1)) (memByte resets m (a + 2)) (memByte resets m (a + 3))

/-- The memory with word `v` at address `a`, all four lanes at once (20_memory.md R81, R82). -/
def memSetWord (m : List Host.Cell) (a : Nat) (v : Word) : List Host.Cell :=
  memSet (memSet (memSet (memSet m a (byteLane v 0)) (a + 1) (byteLane v 1)) (a + 2) (byteLane v 2)) (a + 3) (byteLane v 3)

/-! ### The sample buffers -/

/-- The offset of a channel's buffer: LBUF at 0x10000, RBUF at 0x20000 (20_memory.md R79). -/
def Channel.bufBase : Channel → Nat
  | .left => 0x10000
  | .right => 0x20000

/-- The offset of sample word `i` of a channel's buffer (20_memory.md R79). -/
def bufAddr (ch : Channel) (i : Nat) : Nat := ch.bufBase + 4 * i

/-- `BufRead(ch, i)` over a memory (20_memory.md R88). -/
def bufRead (resets : Nat) (m : List Host.Cell) (ch : Channel) (i : Nat) : Word := memWord resets m (bufAddr ch i)

/-- `BufWrite(ch, i, v)` over a memory (20_memory.md R88). -/
def bufWrite (m : List Host.Cell) (ch : Channel) (i : Nat) (v : Word) : List Host.Cell := memSetWord m (bufAddr ch i) v

/-- `BUF[ch][i]` of a state (00_scope.md R12). -/
def State.buf (s : State) (ch : Channel) (i : Nat) : Word := bufRead s.resets s.mem ch i

/-! ### The history file by channel -/

/-- `H[ch]` (10_state.md R26). -/
def State.hist (s : State) : Channel → HistFile
  | .left => s.histLeft
  | .right => s.histRight

/-! ### The register map (10_state.md R39) -/

/-- The offset of a register (R39). -/
def Reg.offset : Reg → Word
  | .id => 0x000#32
  | .cmd => 0x004#32
  | .status => 0x008#32
  | .intEn => 0x00C#32
  | .sampleRate => 0x010#32
  | .maxBlock => 0x014#32
  | .blockLen => 0x018#32
  | .blockCount => 0x01C#32
  | .bufFrames => 0x020#32
  | .active => 0x024#32
  | .fsLatched => 0x028#32
  | .maxblkLatched => 0x02C#32
  | .lenLatched => 0x030#32
  | .errInfo => 0x034#32
  | .lowCutFreq => 0x040#32
  | .lowCutSlope => 0x044#32
  | .highCutFreq => 0x048#32
  | .highCutSlope => 0x04C#32
  | .peakFreq => 0x050#32
  | .peakGainDb => 0x054#32
  | .peakQ => 0x058#32
  | .snapLowCutFreq => 0x060#32
  | .snapLowCutSlope => 0x064#32
  | .snapHighCutFreq => 0x068#32
  | .snapHighCutSlope => 0x06C#32
  | .snapPeakFreq => 0x070#32
  | .snapPeakGainDb => 0x074#32
  | .snapPeakQ => 0x078#32

/-- The registers in the order of R39. -/
def Reg.all : List Reg :=
  [Reg.id, Reg.cmd, Reg.status, Reg.intEn, Reg.sampleRate, Reg.maxBlock, Reg.blockLen, Reg.blockCount, Reg.bufFrames,
    Reg.active, Reg.fsLatched, Reg.maxblkLatched, Reg.lenLatched, Reg.errInfo,
    Reg.lowCutFreq, Reg.lowCutSlope, Reg.highCutFreq, Reg.highCutSlope, Reg.peakFreq, Reg.peakGainDb, Reg.peakQ,
    Reg.snapLowCutFreq, Reg.snapLowCutSlope, Reg.snapHighCutFreq, Reg.snapHighCutSlope, Reg.snapPeakFreq,
    Reg.snapPeakGainDb, Reg.snapPeakQ]

/-- The register an offset names, if it names one (R39). -/
def Reg.ofOffset (off : Word) : Option Reg := Reg.all.find? (fun r => r.offset == off)

/-- The access code of a register (R39). -/
def Reg.access : Reg → Access
  | .id => .ro
  | .cmd => .wo
  | .status => .w1c
  | .intEn => .rw
  | .sampleRate => .rw
  | .maxBlock => .rw
  | .blockLen => .rw
  | .blockCount => .ro
  | .bufFrames => .ro
  | .active => .ro
  | .fsLatched => .ro
  | .maxblkLatched => .ro
  | .lenLatched => .ro
  | .errInfo => .ro
  | .lowCutFreq => .rw
  | .lowCutSlope => .rw
  | .highCutFreq => .rw
  | .highCutSlope => .rw
  | .peakFreq => .rw
  | .peakGainDb => .rw
  | .peakQ => .rw
  | .snapLowCutFreq => .ro
  | .snapLowCutSlope => .ro
  | .snapHighCutFreq => .ro
  | .snapHighCutSlope => .ro
  | .snapPeakFreq => .ro
  | .snapPeakGainDb => .ro
  | .snapPeakQ => .ro

/-- The value of ID, "SEQ1" (10_state.md R22). -/
def idWord : Word := 0x53455131#32

/-- The value a register reads (10_state.md R22 to R36, R41). CMD reads 0 (R23). -/
def regRead (s : State) : Reg → Word
  | .id => idWord
  | .cmd => 0#32
  | .status => statusWord s
  | .intEn => s.intEn.setWidth 32
  | .sampleRate => s.sampleRate
  | .maxBlock => s.maxBlock
  | .blockLen => s.blockLen
  | .blockCount => s.blockCount
  | .bufFrames => BitVec.ofNat 32 s.params.bufFrames
  | .active => activeWord s
  | .fsLatched => s.fsL
  | .maxblkLatched => s.maxBlkL
  | .lenLatched => s.lenL
  | .errInfo => s.errInfo
  | .lowCutFreq => s.regs.lowCutFreq
  | .lowCutSlope => s.regs.lowCutSlope.setWidth 32
  | .highCutFreq => s.regs.highCutFreq
  | .highCutSlope => s.regs.highCutSlope.setWidth 32
  | .peakFreq => s.regs.peakFreq
  | .peakGainDb => s.regs.peakGainDb
  | .peakQ => s.regs.peakQ
  | .snapLowCutFreq => s.snap.lowCutFreq
  | .snapLowCutSlope => s.snap.lowCutSlope.setWidth 32
  | .snapHighCutFreq => s.snap.highCutFreq
  | .snapHighCutSlope => s.snap.highCutSlope.setWidth 32
  | .snapPeakFreq => s.snap.peakFreq
  | .snapPeakGainDb => s.snap.peakGainDb
  | .snapPeakQ => s.snap.peakQ

/-- A write of `v` to a register other than CMD (20_memory.md R74): an RW register stores it, a slope register and INT_EN only
its bits 1:0 (10_state.md R25, R36); STATUS is written by W1C; a write to an RO register has no effect. CMD holds nothing
(R23): its write issues a command, outside this operation. -/
def regWrite (v : Word) (s : State) : Reg → State
  | .status => statusWrite v s
  | .intEn => { s with intEn := v.setWidth 2 }
  | .sampleRate => { s with sampleRate := v }
  | .maxBlock => { s with maxBlock := v }
  | .blockLen => { s with blockLen := v }
  | .lowCutFreq => { s with regs := { s.regs with lowCutFreq := v } }
  | .lowCutSlope => { s with regs := { s.regs with lowCutSlope := v.setWidth 2 } }
  | .highCutFreq => { s with regs := { s.regs with highCutFreq := v } }
  | .highCutSlope => { s with regs := { s.regs with highCutSlope := v.setWidth 2 } }
  | .peakFreq => { s with regs := { s.regs with peakFreq := v } }
  | .peakGainDb => { s with regs := { s.regs with peakGainDb := v } }
  | .peakQ => { s with regs := { s.regs with peakQ := v } }
  | .id | .cmd | .blockCount | .bufFrames | .active | .fsLatched | .maxblkLatched | .lenLatched | .errInfo => s
  | .snapLowCutFreq | .snapLowCutSlope | .snapHighCutFreq | .snapHighCutSlope => s
  | .snapPeakFreq | .snapPeakGainDb | .snapPeakQ => s

/-! ### The address map (20_memory.md R73, R74, R84) -/

/-- The channel and index of an offset in 0x10000..0x2FFFF (R73). -/
def bufferRegion (bufFrames off : Nat) : Region :=
  let i := off % 0x10000 / 4
  if i < bufFrames then .buffer (if off < 0x20000 then .left else .right) i else .unmapped

/-- What an offset names on a block of `bufFrames` words a buffer, first case first (R73, R74). DEDUCED: an offset of 0x40000 or
more, which no platform routes to the block, is unmapped too (R80; log 17). -/
def regionOf (bufFrames : Nat) (off : Word) : Region :=
  match Reg.ofOffset off with
  | some r => .register r
  | none =>
    let a := off.toNat
    if 0x100 ≤ a ∧ a < 0x220 then .coefWindow
    else if 0x400 ≤ a ∧ a < 0x600 then .histWindow
    else if a < 0x1000 then .reserved
    else if 0x10000 ≤ a ∧ a < 0x30000 then bufferRegion bufFrames a
    else .unmapped

/-- Coefficient word `w` of a set in the COEF window: words 5 to 7 read 0 (R76). -/
def Coefs.windowWord (c : Coefs) : Nat → Word
  | 0 => c.b0
  | 1 => c.b1
  | 2 => c.b2
  | 3 => c.a1
  | 4 => c.a2
  | _ => 0#32

/-- History word `w` of a section in the HIST window (R77). -/
def Hist.windowWord (h : Hist) : Nat → Word
  | 0 => h.x1
  | 1 => h.x2
  | 2 => h.y1
  | 3 => h.y2
  | _ => 0#32

/-- The word of the COEF window at an offset: section `(off - 0x100) >> 5`, word `(off >> 2) & 7` (R76). -/
def coefWindowRead (s : State) (off : Nat) : Word :=
  match s.coefs[(off - 0x100) / 32]? with
  | some c => c.windowWord (off / 4 % 8)
  | none => 0#32

/-- The word of the HIST window at an offset: channel `(off - 0x400) >> 8`, section `((off - 0x400) >> 4) & 0xF`, word
`(off >> 2) & 3`; sections 9 to 15 read 0 (R77). -/
def histWindowRead (s : State) (off : Nat) : Word :=
  match (s.hist (if (off - 0x400) / 256 = 0 then .left else .right))[(off - 0x400) / 16 % 16]? with
  | some h => h.windowWord (off / 4 % 4)
  | none => 0#32

/-- A transaction is legal only as an aligned access of the whole word (R72). -/
def Txn.legal (t : Txn) : Bool := t.be == 0b1111#4 && t.off.extractLsb' 0 2 == 0#2

/-- The transaction the platform hands to SEQ-IIR for a bus address: the offset from BASE_ADDR, if it is one of the 0x40000
bytes routed to the block (R84). -/
def routeTxn (p : Params) (kind : TxnKind) (addr wdata : Word) (be : BitVec 4) : Option Txn :=
  if (addr - p.baseAddr).toNat < 0x40000 then some { kind := kind, off := addr - p.baseAddr, wdata := wdata, be := be } else none

/-! ### Reset -/

/-- The reset step (70_reset_and_hazards.md R260 to R263): every item of 10_state.md R20 to its reset value, a pending job
discarded, the buffers to fresh unspecified contents. The parameters, the schedule of later steps and the fault record
(60_exceptions.md R246) are no part of it. -/
def resetStep (s : State) : State :=
  { State.powerOn s.params with inputs := s.inputs, faults := s.faults, resets := s.resets + 1 }

end Sys2Proof.Machine
end

