-- ==== Sys2Proof/Machine/Commands.lean ====
section
/-! DEFINITION. The meanings of the four commands (44_processor.md R191 to R200), one definition each. A command that a check
refuses raises that check's error and changes nothing else; the checks run in the order ERR_BUSY, ERR_UNPREP, ERR_CFG
(60_exceptions.md R233), after ERR_CMD, which the decoder of the CMD write decides. -/

namespace Sys2Proof.Machine

/-- A command of opcode `opc` that STATE = BUSY refuses with ERR_BUSY; in any other state it runs (R191, R194). -/
def unlessBusy (opc : Word) (run : State → State) (s : State) : State :=
  if s.seq = .busy then raise .busy opc s else run s

/-- What an accepted PREPARE writes: FS_L, MAXBLK_L, every history word +0.0, every coefficient set identity, both counts 0,
BLOCK_COUNT 0 and STATE READY; nothing else (R196, 42_biquad_section.md R167). -/
def prepareStream (s : State) : State :=
  { s with
    fsL := s.sampleRate
    maxBlkL := s.maxBlock
    histLeft := HistFile.zero
    histRight := HistFile.zero
    coefs := CoefBank.identity
    lcActive := 0#3
    hcActive := 0#3
    blockCount := 0#32
    seq := .ready }

/-- `PREPARE()`: ERR_CFG with the opcode unless its operands are good (R195, R196). -/
def prepareBody (s : State) : State := if prepareOk s then prepareStream s else raise .cfg 1#32 s

/-- `RELEASE()`: STATE ← UNPREPARED and nothing else (R198). -/
def releaseBody (s : State) : State := { s with seq := .unprepared }

/-- `PROCESS()`: ERR_UNPREP, then ERR_CFG, then the latch of SNAP and LEN_L and STATE ← BUSY, a job left pending. DONE is not
cleared (R199, R200). -/
def processBody (s : State) : State :=
  if s.seq = .unprepared then raise .unprep 3#32 s
  else if !processLenOk s then raise .cfg 3#32 s
  else { latchOperands s with seq := .busy }

/-- NOP: nothing happens, in every state (R192). -/
def execNop (s : State) : Host.Outcome State Fault Refusal := .next s

/-- PREPARE (R194 to R197). -/
def execPrepare (s : State) : Host.Outcome State Fault Refusal := .next (unlessBusy 1#32 prepareBody s)

/-- RELEASE (R194, R198). -/
def execRelease (s : State) : Host.Outcome State Fault Refusal := .next (unlessBusy 2#32 releaseBody s)

/-- PROCESS (R194, R199, R200, 40_parameters.md R121). -/
def execProcess (s : State) : Host.Outcome State Fault Refusal := .next (unlessBusy 3#32 processBody s)

end Sys2Proof.Machine
end

