-- ==== Sys2Proof/Machine/Dispatch.lean ====
section
/-! DEFINITION. The dispatch of a command to its meaning: one arm per constructor of Instr (44_processor.md R191). -/

namespace Sys2Proof.Machine

/-- The command `i` issued in state `s`, as one atomic step. -/
def exec (i : Instr) (s : State) : Host.Outcome State Fault Refusal :=
  match i with
  | .nop => Sys2Proof.Machine.execNop s
  | .prepare => Sys2Proof.Machine.execPrepare s
  | .release => Sys2Proof.Machine.execRelease s
  | .process => Sys2Proof.Machine.execProcess s

end Sys2Proof.Machine
end

