-- ==== Sys2Proof/Machine/Biquad.lean ====
section
/-! DEFINITION. The biquad section (42_biquad_section.md): the difference equation over one section's coefficients and one
channel's history of it. A bypassed section is the identity and touches neither (R165): the cascade leaves it out. -/

namespace Sys2Proof.Machine

/-- The output of an enabled section: `b0*x + b1*x1 + b2*x2 - a1*y1 - a2*y2` from left to right, rounded after every operation
(R164, R163: no operation is fused). -/
def sectionOutput (ftz : Bool) (c : Coefs) (h : Hist) (x : Word) : Word :=
  let t := f32Mul ftz c.b0 x
  let t := f32Add ftz t (f32Mul ftz c.b1 h.x1)
  let t := f32Add ftz t (f32Mul ftz c.b2 h.x2)
  let t := f32Sub ftz t (f32Mul ftz c.a1 h.y1)
  f32Sub ftz t (f32Mul ftz c.a2 h.y2)

/-- The history after a sample: `x2 ← x1, x1 ← x, y2 ← y1, y1 ← y`, all four at once from the old values (R164). -/
def Hist.push (h : Hist) (x y : Word) : Hist := { x1 := x, x2 := h.x1, y1 := y, y2 := h.y1 }

/-- `processSample` on enabled section `s`: its output, and the channel's history file with that section's words moved on
(R164, R168). -/
def processSample (ftz : Bool) (bank : CoefBank) (s : Fin 9) (h : HistFile) (x : Word) : Word × HistFile :=
  let y := sectionOutput ftz (bank.get s) (h.get s) x
  (y, h.set s.val ((h.get s).push x y) s.isLt)

end Sys2Proof.Machine
end

