-- ==== Sys2Proof/Machine/CutCascade.lean ====
section
/-! DEFINITION. The cut cascade (43_cut_cascade.md): four sections, the first ACT of them enabled, and the installation of a
factory's sets with their count. -/

namespace Sys2Proof.Machine

/-- The chain sections of a cascade in index order: base 0 for LC, base 5 for HC (R180, 10_state.md R27). -/
def Cascade.sections : Cascade → List (Fin 9)
  | .lowCut => [0, 1, 2, 3]
  | .highCut => [5, 6, 7, 8]

/-- One sample through the sections of `l`, the first of which has cascade index `i`: an index below `act` is enabled, any
other passes its input on unchanged (R182, 42_biquad_section.md R165). -/
def sampleThrough (ftz : Bool) (bank : CoefBank) (act : Nat) : List (Fin 9) → Nat → HistFile → Word → Word × HistFile
  | [], _, h, v => (v, h)
  | s :: l, i, h, v =>
    if i < act then
      let r := processSample ftz bank s h v
      sampleThrough ftz bank act l (i + 1) r.2 r.1
    else sampleThrough ftz bank act l (i + 1) h v

/-- `processCascade(cascade, ch, x)` over a channel's history file (R182). -/
def processCascade (ftz : Bool) (bank : CoefBank) (act : Nat) (c : Cascade) (h : HistFile) (x : Word) : Word × HistFile :=
  sampleThrough ftz bank act c.sections 0 h x

/-- Install the sets one by one into the sections of `l`; a section without a set keeps its words (R181, R185). -/
def installSets : List (Fin 9) → List Coefs → CoefBank → CoefBank
  | s :: l, c :: cs, bank => installSets l cs (bank.set s.val c s.isLt)
  | _, _, bank => bank

/-- `applyCascade(cascade, S, coefs)`: the first S sections get the S sets, and the count becomes S (R181, R183). -/
def applyCascade (c : Cascade) (S : Nat) (sets : List Coefs) (s : State) : State :=
  match c with
  | .lowCut => { s with coefs := installSets c.sections sets s.coefs, lcActive := BitVec.ofNat 3 S }
  | .highCut => { s with coefs := installSets c.sections sets s.coefs, hcActive := BitVec.ofNat 3 S }

end Sys2Proof.Machine
end

