-- ==== Sys2Proof/Machine/Enclosure.lean ====
section
/-! DEFINITION. Enclosures of real numbers by integers, with which the coefficient factory evaluates its exact real formulas
(00_scope.md R11: no intermediate value is rounded, only the final coefficient is). An enclosure `between lo hi` at precision
`p` stands for every real from lo / 2^p to hi / 2^p; each operation below answers an enclosure of its exact result, rounded
outwards. The real functions are enclosed by their power series with a bound on what is left out. -/

namespace Sys2Proof.Machine

/-- The real operations a factory formula is written with: the same text is read over the reals, where it is the spec's
formula, and over enclosures, where it is evaluated. -/
structure RealOps (R : Type) where
  /-- The rational number n / d. -/
  ofRat : Int → Nat → R
  /-- π. -/
  pi : R
  add : R → R → R
  sub : R → R → R
  mul : R → R → R
  div : R → R → R
  sin : R → R
  cos : R → R
  tan : R → R
  /-- 10^x. -/
  pow10 : R → R

/-- What is known of a real number at precision p: nothing, or that it lies between lo / 2^p and hi / 2^p. -/
inductive Encl where
  | any
  | between (lo hi : Int)
  deriving DecidableEq, Repr

/-- The greatest integer at most a / d, for a positive d. -/
def floorDiv (a : Int) (d : Nat) : Int := a / (d : Int)

/-- The least integer at least a / d, for a positive d. -/
def ceilDiv (a : Int) (d : Nat) : Int := -((-a) / (d : Int))

/-- The rational n / d. -/
def Encl.ofRat (p : Nat) (n : Int) (d : Nat) : Encl :=
  if d = 0 then .any else .between (floorDiv (n * 2 ^ p) d) (ceilDiv (n * 2 ^ p) d)

/-- A sum. -/
def Encl.add : Encl → Encl → Encl
  | .between a b, .between c d => .between (a + c) (b + d)
  | _, _ => .any

/-- A negation. -/
def Encl.neg : Encl → Encl
  | .between a b => .between (-b) (-a)
  | .any => .any

/-- A difference. -/
def Encl.sub (x y : Encl) : Encl := x.add y.neg

/-- A product: the least and the greatest of the four products of the ends. -/
def Encl.mul (p : Nat) : Encl → Encl → Encl
  | .between a b, .between c d =>
    .between (floorDiv (min (min (a * c) (a * d)) (min (b * c) (b * d))) (2 ^ p))
      (ceilDiv (max (max (a * c) (a * d)) (max (b * c) (b * d))) (2 ^ p))
  | _, _ => .any

/-- A quotient by a number known to be positive. -/
def Encl.div (p : Nat) : Encl → Encl → Encl
  | .between a b, .between c d =>
    if 0 < c ∧ 0 < d then
      .between (min (floorDiv (a * 2 ^ p) c.toNat) (floorDiv (a * 2 ^ p) d.toNat))
        (max (ceilDiv (b * 2 ^ p) c.toNat) (ceilDiv (b * 2 ^ p) d.toNat))
    else .any
  | _, _ => .any

/-- A quotient by a positive whole number. -/
def Encl.divNat (x : Encl) (k : Nat) : Encl :=
  match x with
  | .between a b => if k = 0 then .any else .between (floorDiv a k) (ceilDiv b k)
  | .any => .any

/-- The reals within r / 2^p of the enclosed ones. -/
def Encl.widen (x : Encl) (r : Int) : Encl :=
  match x with
  | .between a b => .between (a - r) (b + r)
  | .any => .any

/-- From -1 to 1. -/
def Encl.unit (p : Nat) : Encl := .between (-(2 ^ p)) (2 ^ p)

/-- Every enclosed real lies from -1 to 1. -/
def Encl.inUnit (p : Nat) : Encl → Bool
  | .between a b => decide (-(2 ^ p) ≤ a) && decide (b ≤ 2 ^ p)
  | .any => false

/-- `acc` and `n` more terms of the arctangent series of 1/k, the terms (-1)^j / ((2j+1) k^(2j+1)) from j on. -/
def Encl.atanTerms (p k : Nat) : Nat → Nat → Encl → Encl
  | 0, _, acc => acc
  | n + 1, j, acc =>
    let t := Encl.ofRat p (if j % 2 = 0 then 1 else -1) ((2 * j + 1) * k ^ (2 * j + 1))
    Encl.atanTerms p k n (j + 1) (acc.add t)

/-- arctan(1/k) for k ≥ 2: n terms, and the first term left out as the bound of the alternating rest. -/
def Encl.atanInv (p k n : Nat) : Encl :=
  (Encl.atanTerms p k n 0 (.between 0 0)).widen (ceilDiv (2 ^ p) ((2 * n + 1) * k ^ (2 * n + 1)))

/-- π = 16 arctan(1/5) - 4 arctan(1/239). -/
def Encl.pi (p : Nat) : Encl :=
  ((Encl.ofRat p 16 1).mul p (Encl.atanInv p 5 (p / 4 + 2))).sub
    ((Encl.ofRat p 4 1).mul p (Encl.atanInv p 239 (p / 4 + 2)))

/-- `acc` and `n` more terms of the series of artanh(1/k), the terms 1 / ((2j+1) k^(2j+1)) from j on. -/
def Encl.atanhTerms (p k : Nat) : Nat → Nat → Encl → Encl
  | 0, _, acc => acc
  | n + 1, j, acc => Encl.atanhTerms p k n (j + 1) (acc.add (Encl.ofRat p 1 ((2 * j + 1) * k ^ (2 * j + 1))))

/-- artanh(1/k) for k ≥ 2: n terms, and 2 / k^(2n+1) as a bound of the rest. -/
def Encl.atanhInv (p k n : Nat) : Encl :=
  (Encl.atanhTerms p k n 0 (.between 0 0)).widen (ceilDiv (2 * 2 ^ p) (k ^ (2 * n + 1)))

/-- The natural logarithm of 10 = 2^3 * (5/4): 6 artanh(1/3) + 2 artanh(1/9). -/
def Encl.log10 (p : Nat) : Encl :=
  ((Encl.ofRat p 6 1).mul p (Encl.atanhInv p 3 (p / 3 + 2))).add
    ((Encl.ofRat p 2 1).mul p (Encl.atanhInv p 9 (p / 3 + 2)))

/-- A bound, in units of 2^-p, of what the exponential, sine and cosine series leave out after their terms below degree M, at
arguments from -1 to 1: (M+1) / (M! M). -/
def seriesRest (p M : Nat) : Int := ceilDiv ((M + 1) * 2 ^ p) (M.factorial * M)

/-- `acc` and `n` more terms of a sine or cosine series whose next term, of degree j, is `t`; `x2` is the argument's square. -/
def Encl.trigTerms (p : Nat) (x2 : Encl) : Nat → Nat → Encl → Encl → Encl
  | 0, _, _, acc => acc
  | n + 1, j, t, acc =>
    Encl.trigTerms p x2 n (j + 2) ((t.mul p x2).divNat ((j + 1) * (j + 2))).neg (acc.add t)

/-- Cosine and sine of an argument from -1 to 1; of any other argument only that both lie from -1 to 1. -/
def Encl.cosSinUnit (p : Nat) (x : Encl) : Encl × Encl :=
  let n := p / 8 + 8
  if x.inUnit p then
    let x2 := x.mul p x
    ((Encl.trigTerms p x2 n 0 (Encl.ofRat p 1 1) (.between 0 0)).widen (seriesRest p (2 * n)),
     (Encl.trigTerms p x2 n 1 x (.between 0 0)).widen (seriesRest p (2 * n)))
  else (Encl.unit p, Encl.unit p)

/-- Cosine and sine of twice the angle: c^2 - s^2 and 2 s c. -/
def Encl.doubleAngle (p : Nat) (cs : Encl × Encl) : Encl × Encl :=
  ((cs.1.mul p cs.1).sub (cs.2.mul p cs.2), (Encl.ofRat p 2 1).mul p (cs.2.mul p cs.1))

/-- Cosine and sine: of a quarter of the argument, and the angle doubled twice. -/
def Encl.cosSin (p : Nat) (x : Encl) : Encl × Encl :=
  Encl.doubleAngle p (Encl.doubleAngle p (Encl.cosSinUnit p (x.divNat 4)))

/-- `acc` and `n` more terms of the exponential series of `x`, whose next term, of degree m, is `t`. -/
def Encl.expTerms (p : Nat) (x : Encl) : Nat → Nat → Encl → Encl → Encl
  | 0, _, _, acc => acc
  | n + 1, m, t, acc => Encl.expTerms p x n (m + 1) ((t.mul p x).divNat (m + 1)) (acc.add t)

/-- The exponential of an argument from -1 to 1. -/
def Encl.expUnit (p : Nat) (x : Encl) : Encl :=
  if x.inUnit p then
    (Encl.expTerms p x (p / 4 + 16) 0 (Encl.ofRat p 1 1) (.between 0 0)).widen (seriesRest p (p / 4 + 16))
  else .any

/-- The exponential: of a quarter of the argument, squared twice. -/
def Encl.exp (p : Nat) (x : Encl) : Encl :=
  let e := Encl.expUnit p (x.divNat 4)
  let e2 := e.mul p e
  e2.mul p e2

/-- The real operations over enclosures of precision p; a tangent is sine by cosine, and 10^x is exp(x log 10). -/
def enclOps (p : Nat) : RealOps Encl :=
  { ofRat := Encl.ofRat p
    pi := Encl.pi p
    add := Encl.add
    sub := Encl.sub
    mul := Encl.mul p
    div := Encl.div p
    sin := fun x => (Encl.cosSin p x).2
    cos := fun x => (Encl.cosSin p x).1
    tan := fun x => Encl.div p (Encl.cosSin p x).2 (Encl.cosSin p x).1
    pow10 := fun x => Encl.exp p (x.mul p (Encl.log10 p)) }

end Sys2Proof.Machine
end

