-- ==== Sys2Proof/Machine/Formulas.lean ====
section
/-! DEFINITION. The exact real formulas of the coefficient factory (41_coefficient_factory.md R142 to R147), written once over
`RealOps` and read twice: over the reals, as the spec means them, and over enclosures, as the machine evaluates them. -/

namespace Sys2Proof.Machine

/-- The RBJ peaking-EQ biquad normalised so that a0 = 1, one coefficient by name (R142, R143). -/
def peakFormula {R : Type} (o : RealOps R) (fs f Q g : R) (name : CoefName) : R :=
  let one := o.ofRat 1 1
  let two := o.ofRat 2 1
  let A := o.pow10 (o.div g (o.ofRat 40 1))
  let w0 := o.div (o.mul (o.mul two o.pi) f) fs
  let alpha := o.div (o.sin w0) (o.mul two Q)
  let a0 := o.add one (o.div alpha A)
  match name with
  | .b0 => o.div (o.add one (o.mul alpha A)) a0
  | .b1 => o.div (o.mul (o.ofRat (-2) 1) (o.cos w0)) a0
  | .b2 => o.div (o.sub one (o.mul alpha A)) a0
  | .a1 => o.div (o.mul (o.ofRat (-2) 1) (o.cos w0)) a0
  | .a2 => o.div (o.sub one (o.div alpha A)) a0

/-- The quality factor of section k of an analogue Butterworth filter of order 2S: 1 / (2 cos((2k+1)π / (4S))) (R144). -/
def butterworthQ {R : Type} (o : RealOps R) (S k : Nat) : R :=
  o.div (o.ofRat 1 1) (o.mul (o.ofRat 2 1) (o.cos (o.div (o.mul (o.ofRat (2 * k + 1) 1) o.pi) (o.ofRat (4 * S) 1))))

/-- The prewarped cutoff K = tan(πf/fs), the same for every section of a cascade (R145). -/
def prewarp {R : Type} (o : RealOps R) (fs f : R) : R := o.tan (o.div (o.mul o.pi f) fs)

/-- The denominator d = 1 + K/Q + K*K of a cut section (R146, R147). -/
def cutDenominator {R : Type} (o : RealOps R) (K Q : R) : R :=
  o.add (o.add (o.ofRat 1 1) (o.div K Q)) (o.mul K K)

/-- a1 = 2(K*K - 1)/d of a cut section, high-pass and low-pass alike (R146, R147). -/
def cutA1 {R : Type} (o : RealOps R) (K Q : R) : R :=
  o.div (o.mul (o.ofRat 2 1) (o.sub (o.mul K K) (o.ofRat 1 1))) (cutDenominator o K Q)

/-- a2 = (1 - K/Q + K*K)/d of a cut section, high-pass and low-pass alike (R146, R147). -/
def cutA2 {R : Type} (o : RealOps R) (K Q : R) : R :=
  o.div (o.add (o.sub (o.ofRat 1 1) (o.div K Q)) (o.mul K K)) (cutDenominator o K Q)

/-- Section k of a high-pass cascade of S sections, one coefficient by name (R146). -/
def highpassFormula {R : Type} (o : RealOps R) (fs f : R) (S k : Nat) (name : CoefName) : R :=
  let K := prewarp o fs f
  let Q := butterworthQ o S k
  match name with
  | .b0 => o.div (o.ofRat 1 1) (cutDenominator o K Q)
  | .b1 => o.div (o.ofRat (-2) 1) (cutDenominator o K Q)
  | .b2 => o.div (o.ofRat 1 1) (cutDenominator o K Q)
  | .a1 => cutA1 o K Q
  | .a2 => cutA2 o K Q

/-- Section k of a low-pass cascade of S sections, one coefficient by name (R147). -/
def lowpassFormula {R : Type} (o : RealOps R) (fs f : R) (S k : Nat) (name : CoefName) : R :=
  let K := prewarp o fs f
  let Q := butterworthQ o S k
  match name with
  | .b0 => o.div (o.mul K K) (cutDenominator o K Q)
  | .b1 => o.div (o.mul (o.mul (o.ofRat 2 1) K) K) (cutDenominator o K Q)
  | .b2 => o.div (o.mul K K) (cutDenominator o K Q)
  | .a1 => cutA1 o K Q
  | .a2 => cutA2 o K Q

/-- A factory argument as a real: a number of units of 2^-149 (R140). -/
def ofUnits {R : Type} (o : RealOps R) (x : Int) : R := o.ofRat x (2 ^ 149)

/-- The exact real formula of one coefficient word (R142, R146, R147). -/
def coefFormula {R : Type} (o : RealOps R) : CoefArgs → R
  | .peak fs f q g name => peakFormula o (ofUnits o fs) (ofUnits o f) (ofUnits o q) (ofUnits o g) name
  | .highpass fs f S k name => highpassFormula o (ofUnits o fs) (ofUnits o f) S k name
  | .lowpass fs f S k name => lowpassFormula o (ofUnits o fs) (ofUnits o f) S k name

/-- The one word to which both ends of an enclosure round, where there is one. -/
def Encl.settled (p : Nat) : Encl → Option Word
  | .between lo hi => if rnd32 lo (2 ^ p) = rnd32 hi (2 ^ p) then some (rnd32 lo (2 ^ p)) else none
  | .any => none

end Sys2Proof.Machine
end

