-- ==== Sys2Proof/Machine/ExactReal.lean ====
section
/-! DEFINITION. The spec's own reading of the factory, over the real numbers (00_scope.md R10, R11): the exact real functions and
`rnd32` of a real. Nothing here can be evaluated: the factory computes a word and proves that it is the one these functions name. -/

namespace Sys2Proof.Machine

/-- The real functions of the factory's pseudocode are the exact mathematical functions (R11). -/
noncomputable def realOps : RealOps ℝ :=
  { ofRat := fun n d => (n : ℝ) / (d : ℝ)
    pi := Real.pi
    add := fun x y => x + y
    sub := fun x y => x - y
    mul := fun x y => x * y
    div := fun x y => x / y
    sin := Real.sin
    cos := Real.cos
    tan := Real.tan
    pow10 := fun x => (10 : ℝ) ^ x }

/-- The exact real value v of a coefficient's formula (41_coefficient_factory.md R141, R142, R146, R147). -/
noncomputable def exactCoef (a : CoefArgs) : ℝ := coefFormula realOps a

/-- A nonnegative real to the nearest whole number, ties to even. -/
noncomputable def roundHalfEvenReal (y : ℝ) : ℕ :=
  if 1 / 2 < y - ⌊y⌋₊ ∨ (y - ⌊y⌋₊ = 1 / 2 ∧ ⌊y⌋₊ % 2 = 1) then ⌊y⌋₊ + 1 else ⌊y⌋₊

/-- Bits 30:0 of the binary32 word nearest to a nonnegative real, as `roundBits` has them for a rational. -/
noncomputable def roundBitsReal (v : ℝ) : ℕ :=
  min (ulpExponent ⌊v * 2 ^ 149⌋₊ * 2 ^ 23 + roundHalfEvenReal (v * 2 ^ 149 / 2 ^ ulpExponent ⌊v * 2 ^ 149⌋₊)) f32InfBits

/-- `rnd32(v)` of a real v (R10; +0 for a value that rounds to zero, log 10). -/
noncomputable def rnd32Real (v : ℝ) : Word :=
  f32Pack (decide (v < 0) && roundBitsReal |v| != 0) (roundBitsReal |v|)

end Sys2Proof.Machine
end

