-- ==== Sys2Proof/Laws/Enclosure.lean ====
section
/-! SUPPORT. Every enclosure operation encloses the exact real result (00_scope.md R11), by one lemma per operation; so the
factory's evaluation of a formula encloses the formula's exact real value. -/

namespace Sys2Proof.Machine

/-- The real `x` is one that the enclosure stands for at precision `p`. -/
def Encl.Holds (p : ℕ) (e : Encl) (x : ℝ) : Prop :=
  match e with
  | .any => True
  | .between lo hi => (lo : ℝ) ≤ x * 2 ^ p ∧ x * 2 ^ p ≤ (hi : ℝ)

@[simp] theorem Encl.holds_any (p : ℕ) (x : ℝ) : Encl.any.Holds p x := trivial

@[simp] theorem Encl.holds_between (p : ℕ) (lo hi : ℤ) (x : ℝ) :
    (Encl.between lo hi).Holds p x ↔ (lo : ℝ) ≤ x * 2 ^ p ∧ x * 2 ^ p ≤ (hi : ℝ) := Iff.rfl

theorem floorDiv_le (a : ℤ) {d : ℕ} (hd : 0 < d) : (floorDiv a d : ℝ) ≤ (a : ℝ) / d := by
  have hd' : (0 : ℝ) < d := by exact_mod_cast hd
  rw [le_div_iff₀ hd']
  exact_mod_cast Int.ediv_mul_le a (by exact_mod_cast hd.ne')

theorem le_ceilDiv (a : ℤ) {d : ℕ} (hd : 0 < d) : (a : ℝ) / d ≤ (ceilDiv a d : ℝ) := by
  have h := floorDiv_le (-a) hd
  have e : (ceilDiv a d : ℝ) = -(floorDiv (-a) d : ℝ) := by simp [ceilDiv, floorDiv]
  rw [e]
  push_cast at h
  rw [neg_div] at h
  linarith

theorem two_pow_pos_real (p : ℕ) : (0 : ℝ) < 2 ^ p := by positivity

theorem Encl.ofRat_holds (p : ℕ) (n : ℤ) (d : ℕ) : (Encl.ofRat p n d).Holds p ((n : ℝ) / d) := by
  unfold Encl.ofRat
  split
  · trivial
  · rename_i h
    have hd : 0 < d := Nat.pos_of_ne_zero h
    have e : (n : ℝ) / d * 2 ^ p = ((n * 2 ^ p : ℤ) : ℝ) / d := by push_cast; ring
    exact ⟨e ▸ floorDiv_le _ hd, e ▸ le_ceilDiv _ hd⟩

theorem Encl.add_holds {p : ℕ} {x y : Encl} {a b : ℝ} (hx : x.Holds p a) (hy : y.Holds p b) :
    (x.add y).Holds p (a + b) := by
  cases x <;> cases y <;> simp_all [Encl.add, add_mul]
  constructor <;> linarith [hx.1, hx.2, hy.1, hy.2]

theorem Encl.neg_holds {p : ℕ} {x : Encl} {a : ℝ} (hx : x.Holds p a) : x.neg.Holds p (-a) := by
  cases x <;> simp_all [Encl.neg]

theorem Encl.sub_holds {p : ℕ} {x y : Encl} {a b : ℝ} (hx : x.Holds p a) (hy : y.Holds p b) :
    (x.sub y).Holds p (a - b) := sub_eq_add_neg a b ▸ Encl.add_holds hx (Encl.neg_holds hy)

/-- A product of two reals lies between the least and the greatest product of the ends of their ranges. -/
theorem mul_mem_corners {a b c d x y : ℝ} (hx : a ≤ x ∧ x ≤ b) (hy : c ≤ y ∧ y ≤ d) :
    min (min (a * c) (a * d)) (min (b * c) (b * d)) ≤ x * y ∧
      x * y ≤ max (max (a * c) (a * d)) (max (b * c) (b * d)) := by
  obtain ⟨h1, h2⟩ := hx
  obtain ⟨h3, h4⟩ := hy
  constructor
  · simp only [min_le_iff]
    by_contra hn
    push Not at hn
    obtain ⟨⟨k1, k2⟩, k3, k4⟩ := hn
    rcases le_total 0 y with hy0 | hy0 <;> rcases le_total 0 a with ha | ha <;> rcases le_total 0 b with hb | hb <;>
      nlinarith [mul_nonneg (sub_nonneg.2 h1) (sub_nonneg.2 h3), mul_nonneg (sub_nonneg.2 h1) (sub_nonneg.2 h4),
        mul_nonneg (sub_nonneg.2 h2) (sub_nonneg.2 h3), mul_nonneg (sub_nonneg.2 h2) (sub_nonneg.2 h4)]
  · simp only [le_max_iff]
    by_contra hn
    push Not at hn
    obtain ⟨⟨k1, k2⟩, k3, k4⟩ := hn
    rcases le_total 0 y with hy0 | hy0 <;> rcases le_total 0 a with ha | ha <;> rcases le_total 0 b with hb | hb <;>
      nlinarith [mul_nonneg (sub_nonneg.2 h1) (sub_nonneg.2 h3), mul_nonneg (sub_nonneg.2 h1) (sub_nonneg.2 h4),
        mul_nonneg (sub_nonneg.2 h2) (sub_nonneg.2 h3), mul_nonneg (sub_nonneg.2 h2) (sub_nonneg.2 h4)]

theorem Encl.mul_holds {p : ℕ} {x y : Encl} {a b : ℝ} (hx : x.Holds p a) (hy : y.Holds p b) :
    (x.mul p y).Holds p (a * b) := by
  rcases x with _ | ⟨l, u⟩
  · trivial
  rcases y with _ | ⟨l', u'⟩
  · trivial
  have hp := two_pow_pos_real p
  have hp' : 0 < 2 ^ p := by positivity
  obtain ⟨k1, k2⟩ := mul_mem_corners hx hy
  have e : a * b * 2 ^ p = (a * 2 ^ p) * (b * 2 ^ p) / ((2 ^ p : ℕ) : ℝ) := by
    push_cast; field_simp
  rw [Encl.mul, Encl.holds_between, e]
  constructor
  · refine (floorDiv_le _ hp').trans ?_
    gcongr
    push_cast
    exact k1
  · refine le_trans ?_ (le_ceilDiv _ hp')
    gcongr
    push_cast
    exact k2

/-- A quotient of a nonpositive number rises with its positive divisor. -/
theorem div_le_div_of_nonpos {n c y : ℝ} (hn : n ≤ 0) (hc : 0 < c) (h : c ≤ y) : n / c ≤ n / y := by
  rw [div_le_div_iff₀ hc (hc.trans_le h)]
  nlinarith

theorem Encl.div_holds {p : ℕ} {x y : Encl} {a b : ℝ} (hx : x.Holds p a) (hy : y.Holds p b) :
    (x.div p y).Holds p (a / b) := by
  rcases x with _ | ⟨l, u⟩
  · trivial
  rcases y with _ | ⟨c, d⟩
  · trivial
  unfold Encl.div
  dsimp only
  split
  · rename_i h
    obtain ⟨hc, hd⟩ := h
    have hp := two_pow_pos_real p
    obtain ⟨hx1, hx2⟩ := hx
    obtain ⟨hy1, hy2⟩ := hy
    have hcR : (0 : ℝ) < c := by exact_mod_cast hc
    have hdR : (0 : ℝ) < d := by exact_mod_cast hd
    have hcn : ((c.toNat : ℕ) : ℝ) = (c : ℝ) := by exact_mod_cast Int.toNat_of_nonneg hc.le
    have hdn : ((d.toNat : ℕ) : ℝ) = (d : ℝ) := by exact_mod_cast Int.toNat_of_nonneg hd.le
    have hB : 0 < b * 2 ^ p := lt_of_lt_of_le hcR hy1
    have hb : 0 < b := (mul_pos_iff_of_pos_right hp).1 hB
    have e : a / b * 2 ^ p = (a * 2 ^ p) * 2 ^ p / (b * 2 ^ p) := by field_simp
    have hc' : 0 < c.toNat := by omega
    have hd' : 0 < d.toNat := by omega
    have f1 := floorDiv_le (l * 2 ^ p) hc'
    have f2 := floorDiv_le (l * 2 ^ p) hd'
    have g1 := le_ceilDiv (u * 2 ^ p) hc'
    have g2 := le_ceilDiv (u * 2 ^ p) hd'
    rw [hcn] at f1 g1
    rw [hdn] at f2 g2
    push_cast at f1 f2 g1 g2
    rw [Encl.holds_between, e, Int.cast_min, Int.cast_max, min_le_iff, le_max_iff]
    constructor
    · rcases le_total 0 (l : ℝ) with hl | hl
      · right
        refine f2.trans ?_
        have hl' : 0 ≤ a * 2 ^ p := hl.trans hx1
        gcongr
      · left
        refine f1.trans ?_
        calc (l : ℝ) * 2 ^ p / c ≤ (l : ℝ) * 2 ^ p / (b * 2 ^ p) := by
              exact div_le_div_of_nonpos (mul_nonpos_of_nonpos_of_nonneg hl hp.le) hcR hy1
          _ ≤ a * 2 ^ p * 2 ^ p / (b * 2 ^ p) := by gcongr
    · rcases le_total 0 (u : ℝ) with hu | hu
      · left
        refine le_trans ?_ g1
        gcongr
      · right
        refine le_trans ?_ g2
        calc a * 2 ^ p * 2 ^ p / (b * 2 ^ p) ≤ (u : ℝ) * 2 ^ p / (b * 2 ^ p) := by gcongr
          _ ≤ (u : ℝ) * 2 ^ p / d := by
              exact div_le_div_of_nonpos (mul_nonpos_of_nonpos_of_nonneg hu hp.le) hB hy2
  · trivial

theorem Encl.divNat_holds {p : ℕ} {x : Encl} {a : ℝ} (hx : x.Holds p a) (k : ℕ) : (x.divNat k).Holds p (a / k) := by
  rcases x with _ | ⟨l, u⟩
  · trivial
  unfold Encl.divNat
  dsimp only
  split
  · trivial
  · rename_i h
    have hk : 0 < k := Nat.pos_of_ne_zero h
    have e : a / k * 2 ^ p = a * 2 ^ p / k := by ring
    rw [Encl.holds_between, e]
    refine ⟨(floorDiv_le _ hk).trans ?_, le_trans ?_ (le_ceilDiv _ hk)⟩
    · gcongr; exact hx.1
    · gcongr; exact hx.2

/-- An enclosure of `a`, widened by `r`, encloses every real within `r / 2^p` of `a`. -/
theorem Encl.widen_holds {p : ℕ} {x : Encl} {a b : ℝ} {r : ℤ} (hx : x.Holds p a) (h : |b - a| * 2 ^ p ≤ r) :
    (x.widen r).Holds p b := by
  rcases x with _ | ⟨l, u⟩
  · trivial
  have hp := two_pow_pos_real p
  obtain ⟨h1, h2⟩ := hx
  have h3 : (b - a) * 2 ^ p ≤ r := le_trans (by gcongr; exact le_abs_self _) h
  have h4 : -(b - a) * 2 ^ p ≤ r := le_trans (by gcongr; exact neg_le_abs _) h
  rw [Encl.widen, Encl.holds_between]
  push_cast
  constructor <;> nlinarith

end Sys2Proof.Machine
end

