-- ==== Sys2Proof/Laws/EnclosureSeries.lean ====
section
/-! SUPPORT. The enclosures of π, log 10, sine, cosine, tangent and the powers of 10 enclose the exact real numbers: the power
series are Mathlib's, and each bound of what a series leaves out is proved here. -/

namespace Sys2Proof.Machine

open Finset

/-! ### π -/

/-- The size of term j of the arctangent series of 1/k. -/
noncomputable def atanTerm (k j : ℕ) : ℝ := 1 / ((2 * j + 1) * (k : ℝ) ^ (2 * j + 1))

theorem neg_one_pow_eq_ite (j : ℕ) : ((if j % 2 = 0 then 1 else -1 : ℤ) : ℝ) = (-1) ^ j := by
  rcases Nat.even_or_odd j with h | h
  · simp [Nat.even_iff.1 h, h.neg_one_pow]
  · simp [Nat.odd_iff.1 h, h.neg_one_pow]

theorem Encl.atanTerms_holds (p k : ℕ) (n j : ℕ) {acc : Encl} {a : ℝ} (h : acc.Holds p a) :
    (Encl.atanTerms p k n j acc).Holds p (a + ∑ i ∈ range n, (-1) ^ (j + i) * atanTerm k (j + i)) := by
  induction n generalizing j acc a with
  | zero => simpa [Encl.atanTerms] using h
  | succ n ih =>
    have ht := Encl.ofRat_holds p (if j % 2 = 0 then 1 else -1) ((2 * j + 1) * k ^ (2 * j + 1))
    have e : ((if j % 2 = 0 then 1 else -1 : ℤ) : ℝ) / (((2 * j + 1) * k ^ (2 * j + 1) : ℕ) : ℝ) =
        (-1) ^ j * atanTerm k j := by
      rw [neg_one_pow_eq_ite, atanTerm]; push_cast; ring
    rw [e] at ht
    have := ih (j + 1) (Encl.add_holds h ht)
    rw [sum_range_succ']
    simp only [Encl.atanTerms]
    convert this using 1
    simp only [add_zero, add_assoc, add_comm, add_left_comm]

theorem atanTerm_antitone {k : ℕ} (hk : 1 ≤ k) : Antitone (atanTerm k) := by
  refine antitone_nat_of_succ_le fun n => ?_
  have hk' : (1 : ℝ) ≤ k := by exact_mod_cast hk
  unfold atanTerm
  gcongr
  · linarith
  · omega

theorem atan_tendsto {k : ℕ} (hk : 2 ≤ k) :
    Filter.Tendsto (fun n => ∑ i ∈ range n, (-1 : ℝ) ^ i * atanTerm k i) Filter.atTop
      (nhds (Real.arctan (k : ℝ)⁻¹)) := by
  have hk' : (2 : ℝ) ≤ k := by exact_mod_cast hk
  have hx : ‖(k : ℝ)⁻¹‖ < 1 := by
    rw [norm_inv, Real.norm_natCast]
    exact inv_lt_one_of_one_lt₀ (by linarith)
  refine (Real.hasSum_arctan hx).tendsto_sum_nat.congr fun n => sum_congr rfl fun i _ => ?_
  rw [atanTerm]
  push_cast
  rw [inv_pow]
  field_simp

/-- What the arctangent series leaves out after n terms is at most its next term. -/
theorem arctan_rest {k : ℕ} (hk : 2 ≤ k) (n : ℕ) :
    |Real.arctan (k : ℝ)⁻¹ - ∑ i ∈ range n, (-1 : ℝ) ^ i * atanTerm k i| ≤ atanTerm k n := by
  have ha := atanTerm_antitone (k := k) (by omega)
  have ht := atan_tendsto hk
  have hlo := ha.alternating_series_le_tendsto ht
  have hhi := ha.tendsto_le_alternating_series ht
  have hpos : 0 ≤ atanTerm k n := by unfold atanTerm; positivity
  rcases Nat.even_or_odd' n with ⟨m, rfl | rfl⟩
  · have h1 := hlo m
    have h2 := hhi m
    rw [sum_range_succ] at h2
    simp at h2
    rw [abs_le]
    constructor <;> linarith
  · have h1 := hlo (m + 1)
    have h2 := hhi m
    rw [show 2 * (m + 1) = 2 * m + 1 + 1 by ring, sum_range_succ] at h1
    simp [pow_succ] at h1
    rw [abs_le]
    constructor <;> linarith

theorem Encl.atanInv_holds (p : ℕ) {k : ℕ} (hk : 2 ≤ k) (n : ℕ) :
    (Encl.atanInv p k n).Holds p (Real.arctan (k : ℝ)⁻¹) := by
  have h0 : (Encl.between 0 0).Holds p 0 := by simp
  have h := Encl.atanTerms_holds p k n 0 h0
  simp only [zero_add] at h
  refine Encl.widen_holds h ?_
  have hd : 0 < (2 * n + 1) * k ^ (2 * n + 1) := by positivity
  refine le_trans ?_ (le_ceilDiv (2 ^ p) hd)
  calc _ ≤ atanTerm k n * 2 ^ p := by gcongr; exact arctan_rest hk n
    _ = _ := by rw [atanTerm]; push_cast; ring

theorem Encl.pi_holds (p : ℕ) : (Encl.pi p).Holds p Real.pi := by
  have e : Real.pi = ((16 : ℤ) : ℝ) / (1 : ℕ) * Real.arctan ((5 : ℕ) : ℝ)⁻¹ -
      ((4 : ℤ) : ℝ) / (1 : ℕ) * Real.arctan ((239 : ℕ) : ℝ)⁻¹ := by
    have := Real.four_mul_arctan_inv_5_sub_arctan_inv_239
    push_cast
    linarith
  rw [e]
  exact Encl.sub_holds (Encl.mul_holds (Encl.ofRat_holds p 16 1) (Encl.atanInv_holds p (by norm_num) _))
    (Encl.mul_holds (Encl.ofRat_holds p 4 1) (Encl.atanInv_holds p (by norm_num) _))

/-! ### log 10 -/

/-- Term j of the series of artanh(1/k), as Mathlib writes it. -/
noncomputable def atanhTerm (k j : ℕ) : ℝ := ((k : ℝ)⁻¹) ^ (2 * j + 1) / (2 * j + 1)

theorem Encl.atanhTerms_holds (p : ℕ) {k : ℕ} (hk : 2 ≤ k) (n j : ℕ) {acc : Encl} {a : ℝ} (h : acc.Holds p a) :
    (Encl.atanhTerms p k n j acc).Holds p (a + ∑ i ∈ range n, atanhTerm k (j + i)) := by
  induction n generalizing j acc a with
  | zero => simpa [Encl.atanhTerms] using h
  | succ n ih =>
    have ht := Encl.ofRat_holds p 1 ((2 * j + 1) * k ^ (2 * j + 1))
    have e : ((1 : ℤ) : ℝ) / (((2 * j + 1) * k ^ (2 * j + 1) : ℕ) : ℝ) = atanhTerm k j := by
      have hk0 : (k : ℝ) ≠ 0 := by positivity
      rw [atanhTerm]; push_cast; rw [inv_pow]; field_simp
    rw [e] at ht
    have := ih (j + 1) (Encl.add_holds h ht)
    rw [sum_range_succ']
    simp only [Encl.atanhTerms]
    convert this using 1
    simp only [add_zero, add_assoc, add_comm, add_left_comm]

/-- What the series of artanh(1/k) leaves out after n terms. -/
theorem artanh_rest {k : ℕ} (hk : 2 ≤ k) (n : ℕ) :
    |1 / 2 * Real.log ((1 + (k : ℝ)⁻¹) / (1 - (k : ℝ)⁻¹)) - ∑ i ∈ range n, atanhTerm k i| ≤
      2 * ((k : ℝ)⁻¹) ^ (2 * n + 1) := by
  have hk' : (2 : ℝ) ≤ k := by exact_mod_cast hk
  have h0 : 0 ≤ (k : ℝ)⁻¹ := by positivity
  have h2 : (k : ℝ)⁻¹ ≤ 1 / 2 := by rw [one_div]; exact inv_anti₀ (by norm_num) hk'
  have h1 : (k : ℝ)⁻¹ < 1 := by linarith
  have hlo := Real.sum_range_le_log_div h0 h1 n
  have hhi := Real.log_div_le_sum_range_add h0 h1 n
  have hr : ((k : ℝ)⁻¹) ^ (2 * n + 1) / (1 - (k : ℝ)⁻¹ ^ 2) ≤ 2 * ((k : ℝ)⁻¹) ^ (2 * n + 1) := by
    have hq : (k : ℝ)⁻¹ ^ 2 ≤ 1 / 4 := by nlinarith
    rw [div_le_iff₀ (by linarith)]
    have : 0 ≤ ((k : ℝ)⁻¹) ^ (2 * n + 1) := by positivity
    nlinarith
  have hpos : 0 ≤ 2 * ((k : ℝ)⁻¹) ^ (2 * n + 1) := by positivity
  simp only [atanhTerm]
  rw [abs_le]
  constructor <;> linarith

theorem Encl.atanhInv_holds (p : ℕ) {k : ℕ} (hk : 2 ≤ k) (n : ℕ) :
    (Encl.atanhInv p k n).Holds p (1 / 2 * Real.log ((1 + (k : ℝ)⁻¹) / (1 - (k : ℝ)⁻¹))) := by
  have h0 : (Encl.between 0 0).Holds p 0 := by simp
  have h := Encl.atanhTerms_holds p hk n 0 h0
  simp only [zero_add] at h
  refine Encl.widen_holds h ?_
  have hd : 0 < k ^ (2 * n + 1) := by positivity
  refine le_trans ?_ (le_ceilDiv (2 * 2 ^ p) hd)
  calc _ ≤ 2 * ((k : ℝ)⁻¹) ^ (2 * n + 1) * 2 ^ p := by gcongr; exact artanh_rest hk n
    _ = _ := by push_cast; rw [inv_pow]; ring

theorem Encl.log10_holds (p : ℕ) : (Encl.log10 p).Holds p (Real.log 10) := by
  have h2 : Real.log 10 = 3 * Real.log 2 + Real.log (5 / 4) := by
    rw [show (10 : ℝ) = 2 ^ 3 * (5 / 4) by norm_num, Real.log_mul (by norm_num) (by norm_num), Real.log_pow]
    norm_num
  have e : Real.log 10 = ((6 : ℤ) : ℝ) / (1 : ℕ) * (1 / 2 * Real.log ((1 + ((3 : ℕ) : ℝ)⁻¹) / (1 - ((3 : ℕ) : ℝ)⁻¹))) +
      ((2 : ℤ) : ℝ) / (1 : ℕ) * (1 / 2 * Real.log ((1 + ((9 : ℕ) : ℝ)⁻¹) / (1 - ((9 : ℕ) : ℝ)⁻¹))) := by
    rw [h2, show (1 + ((3 : ℕ) : ℝ)⁻¹) / (1 - ((3 : ℕ) : ℝ)⁻¹) = 2 by norm_num,
      show (1 + ((9 : ℕ) : ℝ)⁻¹) / (1 - ((9 : ℕ) : ℝ)⁻¹) = 5 / 4 by norm_num]
    push_cast
    ring
  rw [e]
  exact Encl.add_holds (Encl.mul_holds (Encl.ofRat_holds p 6 1) (Encl.atanhInv_holds p (by norm_num) _))
    (Encl.mul_holds (Encl.ofRat_holds p 2 1) (Encl.atanhInv_holds p (by norm_num) _))

/-! ### Sine and cosine -/

theorem Encl.trigTerms_holds (p : ℕ) {x2 : Encl} {x : ℝ} (hx : x2.Holds p (x * x)) (n j : ℕ) {t acc : Encl} {s a : ℝ}
    (ht : t.Holds p (s * x ^ j / j.factorial)) (h : acc.Holds p a) :
    (Encl.trigTerms p x2 n j t acc).Holds p
      (a + ∑ i ∈ range n, s * (-1) ^ i * x ^ (j + 2 * i) / (j + 2 * i).factorial) := by
  induction n generalizing j t acc s a with
  | zero => simpa [Encl.trigTerms] using h
  | succ n ih =>
    have ht' := Encl.neg_holds (Encl.divNat_holds (Encl.mul_holds ht hx) ((j + 1) * (j + 2)))
    have e : -(s * x ^ j / (j.factorial : ℝ) * (x * x) / (((j + 1) * (j + 2) : ℕ) : ℝ)) =
        -s * x ^ (j + 2) / ((j + 2).factorial : ℝ) := by
      rw [show (j + 2).factorial = (j + 2) * ((j + 1) * j.factorial) from rfl]
      push_cast
      field_simp
      ring
    rw [e] at ht'
    have := ih (j + 2) ht' (Encl.add_holds h ht)
    rw [sum_range_succ']
    simp only [Encl.trigTerms]
    convert this using 1
    have hs : ∀ i, s * (-1 : ℝ) ^ (i + 1) * x ^ (j + 2 * (i + 1)) / ((j + 2 * (i + 1)).factorial : ℝ) =
        -s * (-1) ^ i * x ^ (j + 2 + 2 * i) / ((j + 2 + 2 * i).factorial : ℝ) := by
      intro i
      rw [show j + 2 * (i + 1) = j + 2 + 2 * i by ring]
      ring
    simp only [hs]
    simp
    ring

/-- The partial sums of the exponential series at an imaginary argument, split into cosine and sine. -/
theorem exp_sum_split (x : ℝ) (n : ℕ) :
    ∑ m ∈ range (2 * n), (x * Complex.I) ^ m / (m.factorial : ℂ) =
      ((∑ i ∈ range n, (-1) ^ i * x ^ (2 * i) / (2 * i).factorial : ℝ) : ℂ) +
        ((∑ i ∈ range n, (-1) ^ i * x ^ (2 * i + 1) / (2 * i + 1).factorial : ℝ) : ℂ) * Complex.I := by
  induction n with
  | zero => simp
  | succ n ih =>
    rw [show 2 * (n + 1) = 2 * n + 1 + 1 by ring, sum_range_succ, sum_range_succ, ih, sum_range_succ, sum_range_succ]
    have hI : Complex.I ^ (2 * n) = (-1) ^ n := by rw [pow_mul, Complex.I_sq]
    rw [mul_pow, mul_pow, pow_succ Complex.I, hI]
    push_cast
    ring

/-- What the cosine and sine series leave out after n terms, at arguments from -1 to 1. -/
theorem trig_rest {x : ℝ} (hx : |x| ≤ 1) {n : ℕ} (hn : 0 < n) :
    |Real.cos x - ∑ i ∈ range n, (-1) ^ i * x ^ (2 * i) / (2 * i).factorial| ≤
        ((2 * n : ℕ) + 1) / ((2 * n).factorial * (2 * n : ℕ)) ∧
      |Real.sin x - ∑ i ∈ range n, (-1) ^ i * x ^ (2 * i + 1) / (2 * i + 1).factorial| ≤
        ((2 * n : ℕ) + 1) / ((2 * n).factorial * (2 * n : ℕ)) := by
  have hz : ‖(x * Complex.I : ℂ)‖ = |x| := by simp
  have hb := Complex.exp_bound (x := x * Complex.I) (by rw [hz]; exact hx) (n := 2 * n) (by omega)
  rw [hz, exp_sum_split] at hb
  set C : ℝ := ∑ i ∈ range n, (-1) ^ i * x ^ (2 * i) / (2 * i).factorial
  set S : ℝ := ∑ i ∈ range n, (-1) ^ i * x ^ (2 * i + 1) / (2 * i + 1).factorial
  have hle : |x| ^ (2 * n) * (((2 * n).succ : ℝ) * (((2 * n).factorial : ℝ) * (2 * n : ℕ))⁻¹) ≤
      ((2 * n : ℕ) + 1) / ((2 * n).factorial * (2 * n : ℕ)) := by
    have h1 : |x| ^ (2 * n) ≤ 1 := pow_le_one₀ (abs_nonneg x) hx
    rw [Nat.succ_eq_add_one, ← div_eq_mul_inv]
    push_cast
    exact mul_le_of_le_one_left (by positivity) h1
  have hre : (Complex.exp (x * Complex.I) - ((C : ℂ) + (S : ℂ) * Complex.I)).re = Real.cos x - C := by
    simp [Complex.exp_ofReal_mul_I_re]
  have him : (Complex.exp (x * Complex.I) - ((C : ℂ) + (S : ℂ) * Complex.I)).im = Real.sin x - S := by
    simp [Complex.exp_ofReal_mul_I_im]
  constructor
  · rw [← hre]
    exact (Complex.abs_re_le_norm _).trans (hb.trans hle)
  · rw [← him]
    exact (Complex.abs_im_le_norm _).trans (hb.trans hle)

theorem le_seriesRest (p : ℕ) {M : ℕ} (hM : 0 < M) :
    ((M : ℝ) + 1) / (M.factorial * M) * 2 ^ p ≤ (seriesRest p M : ℝ) := by
  have hd : 0 < M.factorial * M := Nat.mul_pos M.factorial_pos hM
  refine le_trans (le_of_eq ?_) (le_ceilDiv ((M + 1) * 2 ^ p) hd)
  push_cast
  ring

theorem Encl.inUnit_abs_le {p : ℕ} {x : Encl} {a : ℝ} (hu : x.inUnit p = true) (hx : x.Holds p a) : |a| ≤ 1 := by
  rcases x with _ | ⟨l, u⟩
  · simp [Encl.inUnit] at hu
  · simp only [Encl.inUnit, Bool.and_eq_true, decide_eq_true_eq] at hu
    obtain ⟨h1, h2⟩ := hu
    have hp := two_pow_pos_real p
    have h1' : -(2 ^ p : ℝ) ≤ l := by exact_mod_cast h1
    have h2' : (u : ℝ) ≤ 2 ^ p := by exact_mod_cast h2
    obtain ⟨h3, h4⟩ := hx
    rw [abs_le]
    constructor
    · by_contra hlt
      push Not at hlt
      nlinarith
    · by_contra hlt
      push Not at hlt
      nlinarith

theorem Encl.unit_holds (p : ℕ) {a : ℝ} (h : |a| ≤ 1) : (Encl.unit p).Holds p a := by
  obtain ⟨h1, h2⟩ := abs_le.1 h
  have hp := two_pow_pos_real p
  rw [Encl.unit, Encl.holds_between]
  push_cast
  constructor <;> nlinarith

theorem Encl.cosSinUnit_holds {p : ℕ} {x : Encl} {a : ℝ} (hx : x.Holds p a) :
    (Encl.cosSinUnit p x).1.Holds p (Real.cos a) ∧ (Encl.cosSinUnit p x).2.Holds p (Real.sin a) := by
  unfold Encl.cosSinUnit
  dsimp only
  split
  · rename_i hu
    have ha := Encl.inUnit_abs_le hu hx
    have hn : 0 < p / 8 + 8 := by omega
    obtain ⟨hc, hs⟩ := trig_rest ha hn
    have hr := le_seriesRest p (M := 2 * (p / 8 + 8)) (by omega)
    have h0 : (Encl.between 0 0).Holds p 0 := by simp
    have hxx := Encl.mul_holds hx hx
    have h1 : (Encl.ofRat p 1 1).Holds p (1 * a ^ 0 / (Nat.factorial 0 : ℝ)) := by
      simpa using Encl.ofRat_holds p 1 1
    have h1' : x.Holds p (1 * a ^ 1 / (Nat.factorial 1 : ℝ)) := by simpa using hx
    have kc := Encl.trigTerms_holds p hxx (p / 8 + 8) 0 h1 h0
    have ks := Encl.trigTerms_holds p hxx (p / 8 + 8) 1 h1' h0
    simp only [zero_add, one_mul] at kc ks
    constructor
    · refine Encl.widen_holds kc (le_trans ?_ hr)
      gcongr
    · refine Encl.widen_holds ks (le_trans ?_ hr)
      gcongr
      simpa only [add_comm 1] using hs
  · exact ⟨Encl.unit_holds p (Real.abs_cos_le_one a), Encl.unit_holds p (Real.abs_sin_le_one a)⟩

theorem Encl.doubleAngle_holds {p : ℕ} {cs : Encl × Encl} {a : ℝ} (hc : cs.1.Holds p (Real.cos a))
    (hs : cs.2.Holds p (Real.sin a)) :
    (Encl.doubleAngle p cs).1.Holds p (Real.cos (2 * a)) ∧ (Encl.doubleAngle p cs).2.Holds p (Real.sin (2 * a)) := by
  have ec : Real.cos (2 * a) = Real.cos a * Real.cos a - Real.sin a * Real.sin a := by
    rw [two_mul, Real.cos_add]
  have es : Real.sin (2 * a) = ((2 : ℤ) : ℝ) / (1 : ℕ) * (Real.sin a * Real.cos a) := by
    rw [Real.sin_two_mul]; push_cast; ring
  rw [ec, es]
  exact ⟨Encl.sub_holds (Encl.mul_holds hc hc) (Encl.mul_holds hs hs),
    Encl.mul_holds (Encl.ofRat_holds p 2 1) (Encl.mul_holds hs hc)⟩

theorem Encl.cosSin_holds {p : ℕ} {x : Encl} {a : ℝ} (hx : x.Holds p a) :
    (Encl.cosSin p x).1.Holds p (Real.cos a) ∧ (Encl.cosSin p x).2.Holds p (Real.sin a) := by
  have hq := Encl.divNat_holds hx 4
  obtain ⟨c0, s0⟩ := Encl.cosSinUnit_holds hq
  obtain ⟨c1, s1⟩ := Encl.doubleAngle_holds c0 s0
  obtain ⟨c2, s2⟩ := Encl.doubleAngle_holds c1 s1
  have e : 2 * (2 * (a / (4 : ℕ))) = a := by push_cast; ring
  rw [e] at c2 s2
  exact ⟨c2, s2⟩

/-! ### The exponential -/

theorem Encl.expTerms_holds (p : ℕ) {x : Encl} {a : ℝ} (hx : x.Holds p a) (n m : ℕ) {t acc : Encl} {b : ℝ}
    (ht : t.Holds p (a ^ m / m.factorial)) (h : acc.Holds p b) :
    (Encl.expTerms p x n m t acc).Holds p (b + ∑ i ∈ range n, a ^ (m + i) / (m + i).factorial) := by
  induction n generalizing m t acc b with
  | zero => simpa [Encl.expTerms] using h
  | succ n ih =>
    have ht' := Encl.divNat_holds (Encl.mul_holds ht hx) (m + 1)
    have e : a ^ m / (m.factorial : ℝ) * a / ((m + 1 : ℕ) : ℝ) = a ^ (m + 1) / ((m + 1).factorial : ℝ) := by
      rw [Nat.factorial_succ]
      push_cast
      field_simp
      ring
    rw [e] at ht'
    have := ih (m + 1) ht' (Encl.add_holds h ht)
    rw [sum_range_succ']
    simp only [Encl.expTerms]
    convert this using 1
    simp only [add_zero, add_assoc, add_comm, add_left_comm]

theorem Encl.expUnit_holds {p : ℕ} {x : Encl} {a : ℝ} (hx : x.Holds p a) : (Encl.expUnit p x).Holds p (Real.exp a) := by
  unfold Encl.expUnit
  split
  · rename_i hu
    have ha := Encl.inUnit_abs_le hu hx
    have hM : 0 < p / 4 + 16 := by omega
    have hb := Real.exp_bound ha hM
    have hr := le_seriesRest p hM
    have h0 : (Encl.between 0 0).Holds p 0 := by simp
    have h1 : (Encl.ofRat p 1 1).Holds p (a ^ 0 / (Nat.factorial 0 : ℝ)) := by
      simpa using Encl.ofRat_holds p 1 1
    have k := Encl.expTerms_holds p hx (p / 4 + 16) 0 h1 h0
    simp only [zero_add] at k
    refine Encl.widen_holds k (le_trans ?_ hr)
    gcongr
    refine hb.trans ?_
    have hp1 : |a| ^ (p / 4 + 16) ≤ 1 := pow_le_one₀ (abs_nonneg a) ha
    rw [Nat.succ_eq_add_one, Nat.cast_add, Nat.cast_one]
    exact mul_le_of_le_one_left (by positivity) hp1
  · trivial

theorem Encl.exp_holds {p : ℕ} {x : Encl} {a : ℝ} (hx : x.Holds p a) : (Encl.exp p x).Holds p (Real.exp a) := by
  have h := Encl.expUnit_holds (Encl.divNat_holds hx 4)
  have h2 := Encl.mul_holds h h
  have h4 := Encl.mul_holds h2 h2
  have e : Real.exp (a / (4 : ℕ)) * Real.exp (a / (4 : ℕ)) * (Real.exp (a / (4 : ℕ)) * Real.exp (a / (4 : ℕ))) =
      Real.exp a := by
    rw [← Real.exp_add, ← Real.exp_add]; congr 1; push_cast; ring
  rw [e] at h4
  exact h4

end Sys2Proof.Machine
end

