-- ==== Sys2Proof/Laws/Rounding.lean ====
section
/-! SUPPORT. Rounding to binary32 (00_scope.md R10): the rounding of a rational is the rounding of the real it is, rounding is
monotone, and so a real between two others that round to one word rounds to that word. -/

namespace Sys2Proof.Machine

theorem roundHalfEven_eq_real (n : ℕ) {d : ℕ} (hd : 0 < d) :
    roundHalfEven n d = roundHalfEvenReal ((n : ℝ) / d) := by
  have hd' : (0 : ℝ) < d := by exact_mod_cast hd
  have hfl : ⌊(n : ℝ) / d⌋₊ = n / d := Nat.floor_div_eq_div n d
  have hfr : (n : ℝ) / d - ((n / d : ℕ) : ℝ) = ((n % d : ℕ) : ℝ) / d := by
    have h := Nat.div_add_mod n d
    have h' : (d : ℝ) * ((n / d : ℕ) : ℝ) + ((n % d : ℕ) : ℝ) = n := by exact_mod_cast h
    rw [eq_div_iff hd'.ne', sub_mul, div_mul_cancel₀ _ hd'.ne']
    linarith
  unfold roundHalfEven roundHalfEvenReal
  rw [hfl, hfr]
  congr 1
  have h1 : (1 / 2 < ((n % d : ℕ) : ℝ) / d) ↔ 2 * (n % d) > d := by
    rw [lt_div_iff₀ hd']
    constructor
    · intro h
      have : (d : ℝ) < 2 * ((n % d : ℕ) : ℝ) := by linarith
      exact_mod_cast this
    · intro h
      have : (d : ℝ) < 2 * ((n % d : ℕ) : ℝ) := by exact_mod_cast h
      linarith
  have h2 : (((n % d : ℕ) : ℝ) / d = 1 / 2) ↔ 2 * (n % d) = d := by
    rw [div_eq_iff hd'.ne']
    constructor
    · intro h
      have : 2 * ((n % d : ℕ) : ℝ) = d := by linarith
      exact_mod_cast this
    · intro h
      have : 2 * ((n % d : ℕ) : ℝ) = d := by exact_mod_cast h
      linarith
  rw [h1, h2]

theorem roundBits_eq_real (n : ℕ) {d : ℕ} (hd : 0 < d) : roundBits n d = roundBitsReal ((n : ℝ) / d) := by
  have hfl : ⌊(n : ℝ) / d * 2 ^ 149⌋₊ = n * 2 ^ 149 / d := by
    have e : (n : ℝ) / d * 2 ^ 149 = ((n * 2 ^ 149 : ℕ) : ℝ) / d := by push_cast; ring
    rw [e]
    exact Nat.floor_div_eq_div _ _
  unfold roundBits roundBitsReal
  rw [hfl]
  dsimp only
  congr 2
  rw [roundHalfEven_eq_real _ (by positivity)]
  congr 1
  push_cast
  field_simp
  norm_num

theorem rnd32_eq_real (n : ℤ) {d : ℕ} (hd : 0 < d) : rnd32 n d = rnd32Real ((n : ℝ) / d) := by
  have hd' : (0 : ℝ) < d := by exact_mod_cast hd
  have habs : |(n : ℝ) / d| = ((n.natAbs : ℕ) : ℝ) / d := by
    rw [abs_div, abs_of_pos hd', Nat.cast_natAbs, Int.cast_abs]
  have hneg : ((n : ℝ) / d < 0) ↔ n < 0 := by
    rw [div_lt_iff₀ hd', zero_mul]
    exact Int.cast_lt_zero
  unfold rnd32 rnd32Real
  rw [habs, ← roundBits_eq_real _ hd]
  simp only [hneg]

theorem floor_le_roundHalfEvenReal (y : ℝ) : ⌊y⌋₊ ≤ roundHalfEvenReal y := by
  unfold roundHalfEvenReal
  split <;> omega

theorem roundHalfEvenReal_le (y : ℝ) : roundHalfEvenReal y ≤ ⌊y⌋₊ + 1 := by
  unfold roundHalfEvenReal
  split <;> omega

theorem roundHalfEvenReal_mono {y z : ℝ} (h : y ≤ z) : roundHalfEvenReal y ≤ roundHalfEvenReal z := by
  rcases (Nat.floor_le_floor h).lt_or_eq with hlt | heq
  · exact (roundHalfEvenReal_le y).trans (hlt.trans_le (floor_le_roundHalfEvenReal z))
  · unfold roundHalfEvenReal
    rw [heq]
    split
    · rename_i hy
      have : 1 / 2 < z - (⌊z⌋₊ : ℝ) ∨ (z - (⌊z⌋₊ : ℝ) = 1 / 2 ∧ ⌊z⌋₊ % 2 = 1) := by
        rcases hy with hy | ⟨hy, ho⟩
        · left; linarith
        · rcases lt_or_eq_of_le (show (1 / 2 : ℝ) ≤ z - (⌊z⌋₊ : ℝ) by linarith) with hz | hz
          · exact .inl hz
          · exact .inr ⟨hz.symm, ho⟩
      rw [if_pos this]
    · split <;> omega

theorem log2_mono {m n : ℕ} (h : m ≤ n) : m.log2 ≤ n.log2 := by
  rcases Nat.eq_zero_or_pos m with rfl | hm
  · simp
  · exact (Nat.le_log2 (by omega)).2 ((Nat.log2_self_le (by omega)).trans h)

/-- A value is less than 2^24 of its units in the last place. -/
theorem scaled_lt (v : ℝ) : v * 2 ^ 149 / 2 ^ ulpExponent ⌊v * 2 ^ 149⌋₊ < 2 ^ 24 := by
  rw [div_lt_iff₀ (by positivity)]
  set t := ⌊v * 2 ^ 149⌋₊ with ht
  have h1 : v * 2 ^ 149 < (t : ℝ) + 1 := Nat.lt_floor_add_one _
  have h2 : t < 2 ^ (t.log2 + 1) := Nat.lt_log2_self
  have h3 : t.log2 + 1 ≤ 24 + ulpExponent t := by unfold ulpExponent; omega
  have h4 : t + 1 ≤ 2 ^ (24 + ulpExponent t) := h2.trans_le (Nat.pow_le_pow_right (by norm_num) h3)
  have h5 : (t : ℝ) + 1 ≤ 2 ^ (24 + ulpExponent t) := by exact_mod_cast h4
  rw [← pow_add]
  linarith

/-- A value whose unit in the last place is above the least one is at least 2^23 of its units. -/
theorem le_scaled {v : ℝ} (hv : 0 ≤ v) (he : 0 < ulpExponent ⌊v * 2 ^ 149⌋₊) :
    2 ^ 23 ≤ v * 2 ^ 149 / 2 ^ ulpExponent ⌊v * 2 ^ 149⌋₊ := by
  rw [le_div_iff₀ (by positivity)]
  set t := ⌊v * 2 ^ 149⌋₊ with ht
  have h1 : (t : ℝ) ≤ v * 2 ^ 149 := Nat.floor_le (by positivity)
  have h0 : t ≠ 0 := by
    rintro h
    rw [h] at he
    simp [ulpExponent] at he
  have h2 : 2 ^ t.log2 ≤ t := Nat.log2_self_le h0
  have h3 : 23 + ulpExponent t = t.log2 := by unfold ulpExponent at he ⊢; omega
  have h5 : (2 : ℝ) ^ (23 + ulpExponent t) ≤ t := by rw [h3]; exact_mod_cast h2
  rw [← pow_add]
  linarith

theorem roundBitsReal_mono {v w : ℝ} (hv : 0 ≤ v) (h : v ≤ w) : roundBitsReal v ≤ roundBitsReal w := by
  have hw := hv.trans h
  have hfl : ⌊v * 2 ^ 149⌋₊ ≤ ⌊w * 2 ^ 149⌋₊ := Nat.floor_le_floor (by gcongr)
  have he : ulpExponent ⌊v * 2 ^ 149⌋₊ ≤ ulpExponent ⌊w * 2 ^ 149⌋₊ := by
    have := log2_mono hfl
    unfold ulpExponent
    omega
  unfold roundBitsReal
  refine min_le_min_right _ ?_
  rcases he.lt_or_eq with hlt | heq
  · have h1 := scaled_lt v
    have h2 := le_scaled hw (by omega)
    have k1 : roundHalfEvenReal (v * 2 ^ 149 / 2 ^ ulpExponent ⌊v * 2 ^ 149⌋₊) ≤ 2 ^ 24 := by
      refine (roundHalfEvenReal_le _).trans ?_
      have : ⌊v * 2 ^ 149 / 2 ^ ulpExponent ⌊v * 2 ^ 149⌋₊⌋₊ < 2 ^ 24 :=
        (Nat.floor_lt (by positivity)).2 (by exact_mod_cast h1)
      omega
    have k2 : 2 ^ 23 ≤ roundHalfEvenReal (w * 2 ^ 149 / 2 ^ ulpExponent ⌊w * 2 ^ 149⌋₊) :=
      (Nat.le_floor (by exact_mod_cast h2)).trans (floor_le_roundHalfEvenReal _)
    omega
  · rw [heq]
    gcongr
    exact roundHalfEvenReal_mono (by gcongr)

theorem roundBitsReal_le (v : ℝ) : roundBitsReal v ≤ f32InfBits := min_le_right _ _

theorem f32Pack_inj {s s' : Bool} {m m' : ℕ} (hm : m ≤ f32InfBits) (hm' : m' ≤ f32InfBits)
    (h : f32Pack s m = f32Pack s' m') : s = s' ∧ m = m' := by
  have h' := congrArg BitVec.toNat h
  unfold f32InfBits at hm hm'
  cases s <;> cases s' <;> simp [f32Pack] at h' ⊢ <;> omega

/-- A real between two reals that round to one word rounds to that word. -/
theorem rnd32Real_sandwich {lo v hi : ℝ} (h1 : lo ≤ v) (h2 : v ≤ hi) (h : rnd32Real lo = rnd32Real hi) :
    rnd32Real v = rnd32Real lo := by
  obtain ⟨hs, hm⟩ := f32Pack_inj (roundBitsReal_le _) (roundBitsReal_le _) h
  have key : ∀ {b : Bool}, (decide (v < 0) && roundBitsReal |v| != 0) = b → roundBitsReal |v| = roundBitsReal |lo| →
      (decide (lo < 0) && roundBitsReal |lo| != 0) = b → rnd32Real v = rnd32Real lo := by
    intro b k1 k2 k3
    unfold rnd32Real
    rw [k1, k2, k3]
  rcases le_or_gt 0 lo with hlo | hlo
  · have hv := hlo.trans h1
    have hhi := hv.trans h2
    have m1 : roundBitsReal |lo| ≤ roundBitsReal |v| :=
      roundBitsReal_mono (abs_nonneg _) (by rwa [abs_of_nonneg hlo, abs_of_nonneg hv])
    have m2 : roundBitsReal |v| ≤ roundBitsReal |hi| :=
      roundBitsReal_mono (abs_nonneg _) (by rwa [abs_of_nonneg hv, abs_of_nonneg hhi])
    refine key (b := false) ?_ (by omega) ?_ <;> simp [not_lt.2 hv, not_lt.2 hlo]
  · rcases lt_or_ge hi 0 with hhi | hhi
    · have hv := h2.trans_lt hhi
      have m1 : roundBitsReal |hi| ≤ roundBitsReal |v| :=
        roundBitsReal_mono (abs_nonneg _) (by rw [abs_of_neg hhi, abs_of_neg hv]; linarith)
      have m2 : roundBitsReal |v| ≤ roundBitsReal |lo| :=
        roundBitsReal_mono (abs_nonneg _) (by rw [abs_of_neg hlo, abs_of_neg hv]; linarith)
      have m3 : roundBitsReal |v| = roundBitsReal |lo| := by omega
      refine key (b := roundBitsReal |lo| != 0) ?_ m3 ?_ <;> simp [hv, hlo, m3]
    · have z : roundBitsReal |lo| = 0 := by
        simp only [hlo, decide_true, Bool.true_and, not_lt.2 hhi, decide_false, Bool.false_and] at hs
        simpa using hs
      have m : roundBitsReal |v| = 0 := by
        rcases lt_or_ge v 0 with hv | hv
        · have : roundBitsReal |v| ≤ roundBitsReal |lo| :=
            roundBitsReal_mono (abs_nonneg _) (by rw [abs_of_neg hlo, abs_of_neg hv]; linarith)
          omega
        · have : roundBitsReal |v| ≤ roundBitsReal |hi| :=
            roundBitsReal_mono (abs_nonneg _) (by rwa [abs_of_nonneg hv, abs_of_nonneg hhi])
          omega
      refine key (b := false) ?_ (by omega) ?_ <;> simp [m, z]

end Sys2Proof.Machine
end

