-- ==== Sys2Proof/Laws/Formulas.lean ====
section
/-! SUPPORT. Read over enclosures a factory formula encloses its exact real value, and where the enclosure settles a word, that word
is `rnd32` of the value (41_coefficient_factory.md R140, R141). The factory's definitions carry these proofs with the words. -/

namespace Sys2Proof.Machine

/-- Operations over `R` follow the real ones under a relation between what they compute with and the reals. -/
structure RealOps.Follows {R : Type} (o : RealOps R) (rel : R → ℝ → Prop) : Prop where
  ofRat : ∀ n d, rel (o.ofRat n d) (realOps.ofRat n d)
  pi : rel o.pi realOps.pi
  add : ∀ {x y a b}, rel x a → rel y b → rel (o.add x y) (realOps.add a b)
  sub : ∀ {x y a b}, rel x a → rel y b → rel (o.sub x y) (realOps.sub a b)
  mul : ∀ {x y a b}, rel x a → rel y b → rel (o.mul x y) (realOps.mul a b)
  div : ∀ {x y a b}, rel x a → rel y b → rel (o.div x y) (realOps.div a b)
  sin : ∀ {x a}, rel x a → rel (o.sin x) (realOps.sin a)
  cos : ∀ {x a}, rel x a → rel (o.cos x) (realOps.cos a)
  tan : ∀ {x a}, rel x a → rel (o.tan x) (realOps.tan a)
  pow10 : ∀ {x a}, rel x a → rel (o.pow10 x) (realOps.pow10 a)

/-- The enclosure operations follow the real ones. -/
theorem enclOps_follows (p : ℕ) : (enclOps p).Follows (Encl.Holds p) where
  ofRat := Encl.ofRat_holds p
  pi := Encl.pi_holds p
  add := Encl.add_holds
  sub := Encl.sub_holds
  mul := Encl.mul_holds
  div := Encl.div_holds
  sin := fun h => (Encl.cosSin_holds h).2
  cos := fun h => (Encl.cosSin_holds h).1
  tan := fun {_ a} h => by
    have e : realOps.tan a = Real.sin a / Real.cos a := Real.tan_eq_sin_div_cos a
    rw [e]
    exact Encl.div_holds (Encl.cosSin_holds h).2 (Encl.cosSin_holds h).1
  pow10 := fun {_ a} h => by
    have e : realOps.pow10 a = Real.exp (a * Real.log 10) := by
      show (10 : ℝ) ^ a = _
      rw [Real.rpow_def_of_pos (by norm_num), mul_comm]
    rw [e]
    exact Encl.exp_holds (Encl.mul_holds h (Encl.log10_holds p))

section
variable {R : Type} {o : RealOps R} {rel : R → ℝ → Prop} (F : o.Follows rel)
include F

theorem peakFormula_follows {fs f q g : R} {fs' f' q' g' : ℝ} (h1 : rel fs fs') (h2 : rel f f') (h3 : rel q q')
    (h4 : rel g g') (name : CoefName) :
    rel (peakFormula o fs f q g name) (peakFormula realOps fs' f' q' g' name) := by
  have hA := F.pow10 (F.div h4 (F.ofRat 40 1))
  have hw := F.div (F.mul (F.mul (F.ofRat 2 1) F.pi) h2) h1
  have hal := F.div (F.sin hw) (F.mul (F.ofRat 2 1) h3)
  have ha0 := F.add (F.ofRat 1 1) (F.div hal hA)
  cases name
  · exact F.div (F.add (F.ofRat 1 1) (F.mul hal hA)) ha0
  · exact F.div (F.mul (F.ofRat (-2) 1) (F.cos hw)) ha0
  · exact F.div (F.sub (F.ofRat 1 1) (F.mul hal hA)) ha0
  · exact F.div (F.mul (F.ofRat (-2) 1) (F.cos hw)) ha0
  · exact F.div (F.sub (F.ofRat 1 1) (F.div hal hA)) ha0

theorem butterworthQ_follows (S k : ℕ) : rel (butterworthQ o S k) (butterworthQ realOps S k) :=
  F.div (F.ofRat 1 1) (F.mul (F.ofRat 2 1) (F.cos (F.div (F.mul (F.ofRat _ 1) F.pi) (F.ofRat _ 1))))

theorem prewarp_follows {fs f : R} {fs' f' : ℝ} (h1 : rel fs fs') (h2 : rel f f') :
    rel (prewarp o fs f) (prewarp realOps fs' f') := F.tan (F.div (F.mul F.pi h2) h1)

theorem cutDenominator_follows {K Q : R} {K' Q' : ℝ} (h1 : rel K K') (h2 : rel Q Q') :
    rel (cutDenominator o K Q) (cutDenominator realOps K' Q') :=
  F.add (F.add (F.ofRat 1 1) (F.div h1 h2)) (F.mul h1 h1)

theorem cutA1_follows {K Q : R} {K' Q' : ℝ} (h1 : rel K K') (h2 : rel Q Q') : rel (cutA1 o K Q) (cutA1 realOps K' Q') :=
  F.div (F.mul (F.ofRat 2 1) (F.sub (F.mul h1 h1) (F.ofRat 1 1))) (cutDenominator_follows F h1 h2)

theorem cutA2_follows {K Q : R} {K' Q' : ℝ} (h1 : rel K K') (h2 : rel Q Q') : rel (cutA2 o K Q) (cutA2 realOps K' Q') :=
  F.div (F.add (F.sub (F.ofRat 1 1) (F.div h1 h2)) (F.mul h1 h1)) (cutDenominator_follows F h1 h2)

theorem highpassFormula_follows {fs f : R} {fs' f' : ℝ} (h1 : rel fs fs') (h2 : rel f f') (S k : ℕ) (name : CoefName) :
    rel (highpassFormula o fs f S k name) (highpassFormula realOps fs' f' S k name) := by
  have hK := prewarp_follows F h1 h2
  have hQ := butterworthQ_follows F S k
  have hd := cutDenominator_follows F hK hQ
  cases name
  · exact F.div (F.ofRat 1 1) hd
  · exact F.div (F.ofRat (-2) 1) hd
  · exact F.div (F.ofRat 1 1) hd
  · exact cutA1_follows F hK hQ
  · exact cutA2_follows F hK hQ

theorem lowpassFormula_follows {fs f : R} {fs' f' : ℝ} (h1 : rel fs fs') (h2 : rel f f') (S k : ℕ) (name : CoefName) :
    rel (lowpassFormula o fs f S k name) (lowpassFormula realOps fs' f' S k name) := by
  have hK := prewarp_follows F h1 h2
  have hQ := butterworthQ_follows F S k
  have hd := cutDenominator_follows F hK hQ
  cases name
  · exact F.div (F.mul hK hK) hd
  · exact F.div (F.mul (F.mul (F.ofRat 2 1) hK) hK) hd
  · exact F.div (F.mul hK hK) hd
  · exact cutA1_follows F hK hQ
  · exact cutA2_follows F hK hQ

/-- Every factory formula follows its exact real reading. -/
theorem coefFormula_follows (a : CoefArgs) : rel (coefFormula o a) (exactCoef a) := by
  have hu : ∀ x, rel (ofUnits o x) (ofUnits realOps x) := fun x => F.ofRat x _
  cases a with
  | peak fs f q g name => exact peakFormula_follows F (hu fs) (hu f) (hu q) (hu g) name
  | highpass fs f S k name => exact highpassFormula_follows F (hu fs) (hu f) S k name
  | lowpass fs f S k name => exact lowpassFormula_follows F (hu fs) (hu f) S k name

end

/-- Where both ends of an enclosure of a real round to one word, `rnd32` of the real is that word. -/
theorem rnd32Real_of_settled {p : ℕ} {e : Encl} {v : ℝ} {w : Word} (he : e.Holds p v) (h : e.settled p = some w) :
    w = rnd32Real v := by
  rcases e with _ | ⟨lo, hi⟩
  · simp [Encl.settled] at h
  · have hp : 0 < 2 ^ p := by positivity
    simp only [Encl.settled, Option.ite_none_right_eq_some, Option.some.injEq] at h
    obtain ⟨heq, rfl⟩ := h
    rw [rnd32_eq_real _ hp, rnd32_eq_real _ hp] at heq
    rw [rnd32_eq_real _ hp]
    obtain ⟨k1, k2⟩ := he
    have hp' := two_pow_pos_real p
    refine (rnd32Real_sandwich (hi := (hi : ℝ) / ((2 ^ p : ℕ) : ℝ)) ?_ ?_ heq).symm
    · push_cast
      rwa [div_le_iff₀ hp']
    · push_cast
      rwa [le_div_iff₀ hp']

/-- A word that an enclosure of a coefficient's formula settles is `rnd32` of the formula's exact real. -/
theorem settled_eq_rnd32Real {a : CoefArgs} {p : ℕ} {w : Word} (h : (coefFormula (enclOps p) a).settled p = some w) :
    w = rnd32Real (exactCoef a) := rnd32Real_of_settled (coefFormula_follows (enclOps_follows p) a) h

end Sys2Proof.Machine
end

