-- ==== Sys2Proof/Machine/Factory.lean ====
section
/-! DEFINITION. The coefficient factory (41_coefficient_factory.md R140 to R151): each coefficient's correctly rounded reference
word, the tolerance COEF_TOL_ULP, the coefficient sets, and FiniteCheck. It is pure: it reads its arguments and writes nothing
(R140). -/

namespace Sys2Proof.Machine

/-- The precisions at which a coefficient is evaluated first, one after another, until both ends of its enclosure round alike. -/
def factoryPrecisions : List Nat := [128, 384, 1024, 4096]

/-- `rnd32` of the exact real of a coefficient, searched for at rising precisions. The type pairs the word with the proof that it
is that one word, so nothing about it is open, however far the search goes (R141; log 14). -/
def searchWord (a : CoefArgs) (p : Nat) : { w : Word // w = rnd32Real (exactCoef a) } :=
  match h : (coefFormula (enclOps p) a).settled p with
  | some w => ⟨w, settled_eq_rnd32Real h⟩
  | none => searchWord a (2 * p)
partial_fixpoint

/-- `rnd32` of the exact real of a coefficient: the word that the first precision of the list to settle it gives, and past the
list the word that the search at higher precisions gives (R141). -/
def settleWord (a : CoefArgs) : List Nat → Word
  | [] => (searchWord a 8192).val
  | p :: ps =>
    match (coefFormula (enclOps p) a).settled p with
    | some w => w
    | none => settleWord a ps

/-- The reference value of a coefficient: `rnd32(v)` of the exact real v of its formula, for every argument (R141). -/
def referenceWord (a : CoefArgs) : Word := settleWord a factoryPrecisions

/-- A word conforms to a reference value: it is finite, and at most `tol` representable values away (R141). -/
def conforms (tol : Nat) (c ref : Word) : Bool :=
  f32IsFinite c && decide ((f32Ord c - f32Ord ref).natAbs ≤ tol)

/-- The word the factory gives: the reference value at tolerance 0; above it any conforming word that is a fixed function of
the arguments, so the implementation's own word where it conforms (R141; log 8). -/
def coefWord (tol : Nat) (a : CoefArgs) : Word :=
  if tol = 0 then referenceWord a
  else if conforms tol (Config.factoryWord a) (referenceWord a) then Config.factoryWord a
  else referenceWord a

/-- The five words of a section, from its coefficient's arguments by name. -/
def coefSet (tol : Nat) (a : CoefName → CoefArgs) : Coefs :=
  { b0 := coefWord tol (a .b0)
    b1 := coefWord tol (a .b1)
    b2 := coefWord tol (a .b2)
    a1 := coefWord tol (a .a1)
    a2 := coefWord tol (a .a2) }

/-- `makePeak(fs, f, Q, g)` (R142). -/
def makePeak (tol : Nat) (fs f q g : Word) : Coefs :=
  coefSet tol (CoefArgs.peak (f32Units fs) (f32Units f) (f32Units q) (f32Units g))

/-- `makeHighpassCascade(f, fs, S)`: the sections k = 0..S-1, Q rising with k (R146, R148). -/
def makeHighpassCascade (tol : Nat) (f fs : Word) (S : Nat) : List Coefs :=
  (List.range S).map (fun k => coefSet tol (CoefArgs.highpass (f32Units fs) (f32Units f) S k))

/-- `makeLowpassCascade(f, fs, S)`: the sections k = 0..S-1, Q rising with k (R147, R148). -/
def makeLowpassCascade (tol : Nat) (f fs : Word) (S : Nat) : List Coefs :=
  (List.range S).map (fun k => coefSet tol (CoefArgs.lowpass (f32Units fs) (f32Units f) S k))

/-- Every word of a set is finite (R149). -/
def Coefs.finite (c : Coefs) : Bool :=
  f32IsFinite c.b0 && f32IsFinite c.b1 && f32IsFinite c.b2 && f32IsFinite c.a1 && f32IsFinite c.a2

/-- What phase 2 of a job computes: the peak set and the two cascade sets (44_processor.md R203). -/
structure FactorySets where
  peak : Coefs
  lowCut : List Coefs
  highCut : List Coefs
  deriving DecidableEq, Repr

/-- Phase 2 of the job, from SNAP and FS_L (44_processor.md R203, 30_encoding.md R104). -/
def factorySets (s : State) : FactorySets :=
  { peak := makePeak s.params.coefTolUlp s.fsL s.snap.peakFreq s.snap.peakQ s.snap.peakGainDb
    lowCut := makeHighpassCascade s.params.coefTolUlp s.snap.lowCutFreq s.fsL (slopeSections s.snap.lowCutSlope)
    highCut := makeLowpassCascade s.params.coefTolUlp s.snap.highCutFreq s.fsL (slopeSections s.snap.highCutSlope) }

/-- `FiniteCheck`: every new word is finite (R149, 44_processor.md R204). -/
def finiteCheck (k : FactorySets) : Bool := k.peak.finite && k.lowCut.all Coefs.finite && k.highCut.all Coefs.finite

end Sys2Proof.Machine
end

