-- ==== Sys2Proof/Machine/Processor.lean ====
section
/-! DEFINITION. The channel chain and the block job (44_processor.md R190, R201 to R215): the sequencer's completion step. -/

namespace Sys2Proof.Machine

/-- `channelChain(ch, x)` over the channel's history file: LC, then the peak section 4, always enabled, then HC (R190). -/
def channelChain (ftz : Bool) (bank : CoefBank) (lc hc : Nat) (h : HistFile) (x : Word) : Word × HistFile :=
  let r := processCascade ftz bank lc .lowCut h x
  let r := processSample ftz bank 4 r.2 r.1
  processCascade ftz bank hc .highCut r.2 r.1

/-- What streaming one channel reads and does not change: the bank, the counts, FTZ and the draw of the buffers. -/
structure StreamEnv where
  ftz : Bool
  bank : CoefBank
  lc : Nat
  hc : Nat
  resets : Nat
  deriving DecidableEq, Repr

/-- The environment of a state's streaming phase (R206). -/
def State.streamEnv (s : State) : StreamEnv :=
  { ftz := s.params.ftz, bank := s.coefs, lc := s.lcActive.toNat, hc := s.hcActive.toNat, resets := s.resets }

/-- `count` frames of one channel from frame `n` on, in increasing order and in place: each frame's buffer word goes through
the chain with the history the frame before left (R206). -/
def streamFrames (e : StreamEnv) (ch : Channel) : Nat → Nat → List Host.Cell × HistFile → List Host.Cell × HistFile
  | 0, _, mh => mh
  | count + 1, n, mh =>
    let r := channelChain e.ftz e.bank e.lc e.hc mh.2 (bufRead e.resets mh.1 ch n)
    streamFrames e ch count (n + 1) (bufWrite mh.1 ch n r.1, r.2)

/-- Phase 5: the LEN_L frames of the left channel and then those of the right (R206, R207). -/
def streamBlock (s : State) : State :=
  let left := streamFrames s.streamEnv .left s.lenL.toNat 0 (s.mem, s.histLeft)
  let right := streamFrames s.streamEnv .right s.lenL.toNat 0 (left.1, s.histRight)
  { s with mem := right.1, histLeft := left.2, histRight := right.2 }

/-- Phase 4: the peak set into section 4 and both cascades with their counts, in one step, and BLOCK_COUNT + 1 modulo 2^32
(R205, R215, 42_biquad_section.md R166). It touches no history word. -/
def commit (k : FactorySets) (s : State) : State :=
  let s := { s with coefs := s.coefs.set 4 k.peak }
  let s := applyCascade .lowCut (slopeSections s.snap.lowCutSlope) k.lowCut s
  let s := applyCascade .highCut (slopeSections s.snap.highCutSlope) k.highCut s
  { s with blockCount := s.blockCount + 1#32 }

/-- The end of every job, normal or aborted: STATE ← READY and DONE ← 1 (R208, R209). -/
def endJob (s : State) : State := { s with seq := .ready, done := true }

/-- Phases 3 to 5 with the sets phase 2 computed: an abort with ERR_NUM if a word of them is not finite, else commit and
stream (R204 to R209). -/
def jobWithSets (k : FactorySets) (s : State) : State :=
  if finiteCheck k then endJob (streamBlock (commit k s)) else endJob (raise .num 0#32 s)

/-- `Job()`, one atomic step: an abort with ERR_PARAM and the failing field's register offset, or the factory and the later
phases (R201 to R203, 60_exceptions.md R234). -/
def job (s : State) : State :=
  match paramCheck s.snap s.fsL with
  | some off => endJob (raise .param off s)
  | none => jobWithSets (factorySets s) s

/-- The sequencer's turn: the completion step is its one enabled step while STATE = BUSY; with no job pending it does nothing
(R201; log 2). -/
def sequencerStep (s : State) : State := if s.seq = .busy then job s else s

end Sys2Proof.Machine
end

