-- ==== Sys2Proof/Machine/Bus.lean ====
section
/-! DEFINITION. The bus slave: read and write transactions (20_memory.md R70 to R80), the issue of a command word
(44_processor.md R191, R193), and one step of whichever agent comes next (00_scope.md R7, 20_memory.md R85). -/

namespace Sys2Proof.Machine

/-- `IssueCommand(v)`: an illegal word raises ERR_CMD with the word and changes nothing else, before every other check; a legal
one is executed (44_processor.md R191, R193, 30_encoding.md R102). -/
def issueCommand (v : Word) (s : State) : Host.Outcome State Fault Refusal :=
  match decode v with
  | .ok i => exec i s
  | .error _ => .next (raise .cmd v s)

/-- `MemRead(off, 4)` of a legal read: the word read and the state after it, which differs only if ERR_ACCESS is raised: for a
window that the pending job owns while BUSY, and for an unmapped offset (20_memory.md R73, R78, R80, R83). -/
def memRead (off : Word) (s : State) : Word × State :=
  match regionOf s.params.bufFrames off with
  | .register r => (regRead s r, s)
  | .coefWindow => if s.seq = .busy then (0#32, raise .access off s) else (coefWindowRead s off.toNat, s)
  | .histWindow => if s.seq = .busy then (0#32, raise .access off s) else (histWindowRead s off.toNat, s)
  | .reserved => (0#32, s)
  | .buffer ch i => if s.seq = .busy then (0#32, raise .access off s) else (s.buf ch i, s)
  | .unmapped => (0#32, raise .access off s)

/-- A legal write to a place other than CMD (20_memory.md R74): registers by their access code, read-only windows and reserved
offsets without effect, buffer words stored; ERR_ACCESS for a window in BUSY and for an unmapped offset. -/
def memStore (off v : Word) (s : State) : State :=
  match regionOf s.params.bufFrames off with
  | .register r => regWrite v s r
  | .coefWindow => if s.seq = .busy then raise .access off s else s
  | .histWindow => if s.seq = .busy then raise .access off s else s
  | .reserved => s
  | .buffer ch i => if s.seq = .busy then raise .access off s else { s with mem := bufWrite s.mem ch i v }
  | .unmapped => raise .access off s

/-- `MemWrite(off, 4, v)` of a legal write: a write to CMD issues the command `v` (20_memory.md R74, R83). -/
def memWrite (off v : Word) (s : State) : Host.Outcome State Fault Refusal :=
  if off = Reg.cmd.offset then issueCommand v s else .next (memStore off v s)

/-- A bus transaction as one atomic step: an illegal one raises ERR_ACCESS, reads 0 and writes nothing; a legal read hands
back its word; a legal write does what it does (20_memory.md R70, R72, R82). -/
def busStep (t : Txn) (s : State) : Host.Outcome State Fault Refusal :=
  match t.kind with
  | .read =>
    if t.legal then .next { (memRead t.off s).2 with rdata := some (memRead t.off s).1 }
    else .next { raise .access t.off s with rdata := some 0#32 }
  | .write => if t.legal then memWrite t.off t.wdata s else .next (raise .access t.off s)

/-- One entry of the total order of steps, taken by the agent it names (20_memory.md R85). -/
def inputStep (i : Input) (s : State) : Host.Outcome State Fault Refusal :=
  match i with
  | .transaction t => busStep t s
  | .sequencerTurn => .next (sequencerStep s)
  | .resetInput => .next (resetStep s)

/-- The state in which an agent's step begins: the entry it answers is taken off the order, and no read answer stands. -/
def State.begin (s : State) (rest : List Input) : State := { s with inputs := rest, rdata := none }

/-- One step of the machine: the next entry's, or, with none left, the sequencer's, so that a pending job is always eventually
completed (44_processor.md R201; log 1, log 2). -/
def nextStep (s : State) : Host.Outcome State Fault Refusal :=
  match s.inputs with
  | [] => .next (sequencerStep (s.begin []))
  | i :: rest => inputStep i (s.begin rest)

/-- The transaction that hands the machine a command: a legal write of its word to CMD (44_processor.md R191). -/
def commandTxn (v : Word) : Txn := { kind := .write, off := Reg.cmd.offset, wdata := v, be := 0b1111#4 }

end Sys2Proof.Machine
end

