-- ==== Sys2Proof/Machine/Step.lean ====
section
/-! DEFINITION. The step of the machine, and the placing of one command where the next step takes it. SEQ-IIR fetches nothing
(20_memory.md R87): a command arrives as a bus master's write to CMD, the next entry of `inputs` (log 15). -/

namespace Sys2Proof.Machine

/-- One step of SEQ-IIR: one bus transaction, completion step or reset step of the total order (20_memory.md R85). -/
def step (s : State) : Host.Outcome State Fault Refusal := nextStep s

/-- `s` with the command whose first `nbits` bits are `w` next in the order: a legal write of its word to CMD. -/
def State.withFetchWord (s : State) (nbits w : Nat) : State :=
  { s with inputs := .transaction (commandTxn (tableWord nbits w)) :: s.inputs }

end Sys2Proof.Machine
end

