-- ==== Sys2Proof/Machine/HostNotation.lean ====
section
/-! DEFINITION. The host notation of 30_encoding.md R108 and R109: lines, targets and pseudo-instructions, and the bus
transactions they stand for. -/

namespace Sys2Proof.Machine

/-- A word of the HIST window, by name (R108). -/
inductive HistName where
  | x1 | x2 | y1 | y2
  deriving DecidableEq, Repr

/-- A target of a line (R108). -/
inductive Target where
  /-- A register by its name. -/
  | reg (r : Reg)
  /-- `LBUF[i]` or `RBUF[i]`. -/
  | buf (ch : Channel) (i : Nat)
  /-- `COEF[s].name`. -/
  | coef (s : Fin 9) (name : CoefName)
  /-- `HIST[ch][s].name`. -/
  | hist (ch : Channel) (s : Fin 9) (name : HistName)
  /-- A hex offset. -/
  | offset (off : Word)
  deriving DecidableEq, Repr

/-- A host line, one bus transaction or a loop of reads (R108). -/
inductive HostLine where
  | wr (t : Target) (v : Word)
  | rd (t : Target)
  | poll (t : Target) (mask expect : Word)
  deriving DecidableEq, Repr

/-- The pseudo-instructions of R109. -/
inductive Pseudo where
  | nop | prepare | release | process | waitReady | waitDone | clearStatus
  | prepareStream (fs : Word) (n : Word)
  | runBlock (n : Word)
  deriving DecidableEq, Repr

/-- The word index of a coefficient in its section (20_memory.md R76). -/
def coefIndex : CoefName → Nat
  | .b0 => 0
  | .b1 => 1
  | .b2 => 2
  | .a1 => 3
  | .a2 => 4

/-- The word index of a history word in its section (20_memory.md R77). -/
def HistName.index : HistName → Nat
  | .x1 => 0
  | .x2 => 1
  | .y1 => 2
  | .y2 => 3

/-- The offset of a target (R108). -/
def Target.off : Target → Word
  | .reg r => r.offset
  | .buf ch i => BitVec.ofNat 32 (bufAddr ch i)
  | .coef s name => BitVec.ofNat 32 (0x100 + 0x20 * s.val + 4 * coefIndex name)
  | .hist .left s name => BitVec.ofNat 32 (0x400 + 0x10 * s.val + 4 * name.index)
  | .hist .right s name => BitVec.ofNat 32 (0x400 + 0x100 + 0x10 * s.val + 4 * name.index)
  | .offset off => off

/-- A legal read of an offset. -/
def readTxn (off : Word) : Txn := { kind := .read, off := off, wdata := 0#32, be := 0b1111#4 }

/-- A legal write of a word to an offset. -/
def writeTxn (off v : Word) : Txn := { kind := .write, off := off, wdata := v, be := 0b1111#4 }

/-- The transactions of a line; a `poll` is a loop of reads and has no single encoding: here it takes `polls` of them (R108;
log 16). -/
def HostLine.txns (polls : Nat) : HostLine → List Txn
  | .wr t v => [writeTxn t.off v]
  | .rd t => [readTxn t.off]
  | .poll t _ _ => List.replicate polls (readTxn t.off)

/-- A `poll` ends with the read whose masked word is the expected one (R108). -/
def pollEnds (mask expect rdata : Word) : Bool := rdata &&& mask == expect

/-- `f32(n/d)`: the binary32 word `rnd32(n/d)`, for a positive d (R108). -/
def f32Value (n : Int) (d : Nat) : Word := rnd32 n d

/-- The expansion of a pseudo-instruction (R109). -/
def Pseudo.expand : Pseudo → List HostLine
  | .nop => [.wr (.reg .cmd) 0x00000000#32]
  | .prepare => [.wr (.reg .cmd) 0x00000001#32]
  | .release => [.wr (.reg .cmd) 0x00000002#32]
  | .process => [.wr (.reg .cmd) 0x00000003#32]
  | .waitReady => [.poll (.reg .status) 0x3#32 0x1#32]
  | .waitDone => [.poll (.reg .status) 0x4#32 0x4#32]
  | .clearStatus => [.wr (.reg .status) 0x00007F04#32]
  | .prepareStream fs n => [.wr (.reg .sampleRate) fs, .wr (.reg .maxBlock) n, .wr (.reg .cmd) 0x00000001#32]
  | .runBlock n => [.wr (.reg .blockLen) n, .wr (.reg .cmd) 0x00000003#32, .poll (.reg .status) 0x3#32 0x1#32]

/-- The transactions of a program, each `poll` taken as `polls` reads. -/
def Pseudo.txns (polls : Nat) (p : Pseudo) : List Txn := p.expand.flatMap (HostLine.txns polls)

end Sys2Proof.Machine
end

