-- ==== Sys2Proof/WellFormed.lean ====
section
/-! DEFINITION. Well-formedness: of a command (it has no field, so each is well formed), of a command word
(30_encoding.md R102) and of the OPEN parameters (00_scope.md R8). -/

namespace Sys2Proof

/-- A command has no register, immediate or mode field that could be out of range (30_encoding.md R100). -/
def Instr.wf : Instr → Bool
  | .nop => true
  | .prepare => true
  | .release => true
  | .process => true

/-- The reserved field RSV, bits 31:4, is 0 (30_encoding.md R100). -/
def commandRsvOk (v : Word) : Bool := v >>> 4 == 0#32

/-- The opcode field OPC, bits 3:0, is one of 0x0..0x3 (30_encoding.md R101). -/
def commandOpcOk (v : Word) : Bool := (v &&& 0xF#32).ult 4#32

/-- A CMD word that is not illegal (30_encoding.md R102). -/
def commandWordWf (v : Word) : Bool := commandRsvOk v && commandOpcOk v

/-- The OPEN parameters lie in their domains: 1 ≤ BUF_FRAMES ≤ 16384 and BASE_ADDR is a multiple of 0x40000
(00_scope.md R8, 92_eei_decisions.md). -/
def Params.wf (p : Params) : Bool :=
  decide (1 ≤ p.bufFrames) && decide (p.bufFrames ≤ 16384) && p.baseAddr &&& 0x3FFFF#32 == 0#32

end Sys2Proof
end

