-- ==== Sys2Proof/Safety.lean ====
section
/-! DEFINITION. What counts as a safe run, in the terms claims use: the fault record of 60_exceptions.md R246, and the invariant
of the machine's state. -/

namespace Sys2Proof.Machine

/-- No error has been raised (60_exceptions.md R246, 92_eei_decisions.md D45: claims may assume that no fault was recorded). -/
def State.faultFree (s : State) : Bool := s.faults.isEmpty

/-- An address is a byte of one of the sample words of LBUF or RBUF (20_memory.md R79). -/
def inBuffers (bufFrames a : Nat) : Prop :=
  (0x10000 ≤ a ∧ a < 0x10000 + 4 * bufFrames) ∨ (0x20000 ≤ a ∧ a < 0x20000 + 4 * bufFrames)

/-- What holds at reset and after every step. -/
structure State.Inv (s : State) : Prop where
  /-- The OPEN parameters lie in their domains (00_scope.md R8). -/
  params : s.params.wf = true
  /-- The memory is in its canonical form. -/
  memory : memWf s.mem
  /-- Only sample words are ever stored (20_memory.md R79, R80). -/
  stored : ∀ c ∈ s.mem, inBuffers s.params.bufFrames c.1
  /-- FIRST_ERR is 0 exactly while no ERR bit is set (10_state.md R24, 60_exceptions.md R232). -/
  firstErr : s.firstErr = 0#4 ↔ s.errs = 0#7
  /-- FIRST_ERR is 0 or one of the cause codes 1..7 (60_exceptions.md R230). -/
  firstErrCode : s.firstErr.toNat ≤ 7
  /-- Every ERR bit that is set stands for an error in the fault record (60_exceptions.md R246). -/
  recorded : ∀ c : ErrCause, s.errs &&& c.bit ≠ 0#7 → c ∈ s.faults
  /-- The counts lie in 0..4 (10_state.md R28). -/
  lcCount : s.lcActive.toNat ≤ 4
  hcCount : s.hcActive.toNat ≤ 4
  /-- Both counts leave 0 at the same commit (10_state.md R28). -/
  counts : s.lcActive = 0#3 ↔ s.hcActive = 0#3
  /-- No word of the coefficient bank is ever NaN or infinite (41_coefficient_factory.md R149, 92_eei_decisions.md D19). -/
  bank : ∀ i : Fin 9, (s.coefs.get i).finite = true
  /-- While a stream is prepared, FS_L is finite and above 0 and 1 ≤ MAXBLK_L ≤ BUF_FRAMES (44_processor.md R195). -/
  prepared : s.seq ≠ .unprepared →
    f32IsFinite s.fsL = true ∧ 0 < f32Units s.fsL ∧ 1 ≤ s.maxBlkL.toNat ∧ s.maxBlkL.toNat ≤ s.params.bufFrames
  /-- A pending job's length is at most MAXBLK_L (44_processor.md R200, 20_memory.md R88). -/
  pending : s.seq = .busy → s.lenL.toNat ≤ s.maxBlkL.toNat

end Sys2Proof.Machine
end

