-- ==== Sys2Proof/Certificates/Slice0/Obligations.lean ====
section
/-! DEFINITION. The statements for the provers. Each docstring names the rules of spec/ it formalises. -/

open Sys2Proof Sys2Proof.Machine

/-! ### Words used by the statements -/

/-- A write transaction of `v` to an offset with every byte lane enabled (20_memory.md R70, R72). -/
def Claims.write (off v : Word) : Input := .transaction { kind := .write, off := off, wdata := v, be := 0b1111#4 }

/-- A read transaction of an offset with every byte lane enabled. -/
def Claims.read (off : Word) : Input := .transaction { kind := .read, off := off, wdata := 0#32, be := 0b1111#4 }

/-- The state in which a step begins: its entry is taken off `inputs`, and no read answer stands. -/
def Claims.begun (s : State) (rest : List Input) : State := { s with inputs := rest, rdata := none }

/-- `real(w)` of a finite word as a real number (00_scope.md R10). -/
noncomputable def Claims.real (w : Word) : ℝ := (f32Units w : ℝ) / 2 ^ 149

/-- A word offset: its two low bits are 0. -/
def Claims.aligned (off : Word) : Prop := off.toNat % 4 = 0

/-- An illegal CMD word: RSV ≠ 0, or OPC in 0x4..0xF (30_encoding.md R102). -/
def Claims.illegalWord (v : Word) : Prop := v >>> 4 ≠ 0#32 ∨ 4 ≤ (v &&& 0xF#32).toNat

/-- PREPARE's operands are good: SAMPLE_RATE finite and above 0, 1 ≤ MAX_BLOCK ≤ BUF_FRAMES (44_processor.md R195). -/
def Claims.goodConfig (s : State) : Prop :=
  f32IsFinite s.sampleRate = true ∧ 0 < Claims.real s.sampleRate ∧
    1 ≤ s.maxBlock.toNat ∧ s.maxBlock.toNat ≤ s.params.bufFrames

/-- An offset of the COEF window, the HIST window, or a buffer word below BUF_FRAMES (20_memory.md R73). -/
def Claims.jobOwned (bufFrames : ℕ) (off : Word) : Prop :=
  (0x100 ≤ off.toNat ∧ off.toNat < 0x220) ∨ (0x400 ≤ off.toNat ∧ off.toNat < 0x600) ∨
    (0x10000 ≤ off.toNat ∧ off.toNat < 0x30000 ∧ off.toNat % 0x10000 / 4 < bufFrames)

/-- The offset of word `w` of section `n` of a channel in the HIST window (20_memory.md R77). -/
def Claims.histOffset (ch : Channel) (n w : ℕ) : ℕ := 0x400 + (if ch = .right then 0x100 else 0) + 0x10 * n + 4 * w

/-- An unmapped offset (20_memory.md R80). -/
def Claims.unmapped (bufFrames : ℕ) (off : Word) : Prop :=
  (0x1000 ≤ off.toNat ∧ off.toNat < 0x10000) ∨ 0x30000 ≤ off.toNat ∨
    (0x10000 ≤ off.toNat ∧ off.toNat < 0x30000 ∧ bufFrames ≤ off.toNat % 0x10000 / 4)

/-- A reserved offset of 0x000..0xFFF (20_memory.md R75). -/
def Claims.reserved (off : Word) : Prop :=
  off.toNat < 0x1000 ∧ (∀ r : Reg, off ≠ r.offset) ∧ ¬(0x100 ≤ off.toNat ∧ off.toNat < 0x220) ∧
    ¬(0x400 ≤ off.toNat ∧ off.toNat < 0x600)

/-- What an RW register keeps of a written word: the slope registers and INT_EN keep bits 1:0 (20_memory.md R74). -/
def Claims.kept (r : Reg) (v : Word) : Word :=
  if r = .intEn ∨ r = .lowCutSlope ∨ r = .highCutSlope then v &&& 3#32 else v

/-- `FreqOK(f)` and `BelowNyquist(f)` over the reals (40_parameters.md R124, R125). -/
def Claims.freqGood (fs f : Word) : Prop :=
  f32IsFinite f = true ∧ 20 ≤ Claims.real f ∧ Claims.real f ≤ 20000 ∧ 2 * Claims.real f < Claims.real fs

/-- `GainOK(g)` over the reals (40_parameters.md R126). -/
def Claims.gainGood (g : Word) : Prop := f32IsFinite g = true ∧ -24 ≤ Claims.real g ∧ Claims.real g ≤ 24

/-- `QOK(q)` over the reals (40_parameters.md R127). -/
def Claims.qGood (q : Word) : Prop := f32IsFinite q = true ∧ 1 / 10 ≤ Claims.real q ∧ Claims.real q ≤ 10

/-- Some word of a coefficient set is not finite. -/
def Claims.notFinite (c : Coefs) : Prop :=
  f32IsFinite c.b0 = false ∨ f32IsFinite c.b1 = false ∨ f32IsFinite c.b2 = false ∨ f32IsFinite c.a1 = false ∨
    f32IsFinite c.a2 = false

/-- The channel chain run over a list of samples, with no memory: each sample with the history the one before left. -/
def Claims.chainRun (e : StreamEnv) : HistFile → List Word → List Word × HistFile
  | h, [] => ([], h)
  | h, x :: xs =>
    let r := channelChain e.ftz e.bank e.lc e.hc h x
    let q := Claims.chainRun e r.2 xs
    (r.1 :: q.1, q.2)

/-- A word whose subnormal value is read as a zero of its own sign: exponent 0 and a fraction that is not 0
(42_biquad_section.md R163, FTZ = true). -/
def Claims.flushed (w : Word) : Word :=
  if w.extractLsb' 23 8 = 0#8 ∧ w.extractLsb' 0 23 ≠ 0#23 then (if w.msb then 0x80000000#32 else 0#32) else w

/-- Two jobs with the same OPEN parameters, the same snapshot and the same FS_L (44_processor.md R211). -/
def Claims.sameSetup (s u : State) : Prop := u.params = s.params ∧ u.snap = s.snap ∧ u.fsL = s.fsL

/-- The first `n` words of a channel's buffer. -/
def Claims.block (s : State) (ch : Channel) (n : ℕ) : List Word := (List.range n).map (fun i => s.buf ch i)

/-- The entry of the order of steps that comes next is the completion step of a pending job: the sequencer's turn, or the end
of the order (44_processor.md R201). -/
def Claims.completionNext (s : State) : Prop :=
  s.seq = .busy ∧ (s.inputs = [] ∨ ∃ rest, s.inputs = .sequencerTurn :: rest)

/-- A command word that a legal write puts into CMD is next. -/
def Claims.commandNext (s : State) (v : Word) : Prop := ∃ rest, s.inputs = Claims.write 0x004#32 v :: rest

/-- The reset input is next. -/
def Claims.resetNext (s : State) : Prop := ∃ rest, s.inputs = .resetInput :: rest

/-! ### Encoding -/

/-- Decoding a command word gives exactly the command of which it is the encoding, and four encoded bytes decode to their
command and leave the rest (30_encoding.md R100, R101, R107). -/
def Obligations.DecodeInvertsEncode : Prop :=
  ∀ (i : Instr) (v : Word) (rest : List Byte), i.wf = true →
    (decode v = .ok i ↔ v = encode i) ∧ decodeBytes (encodeBytes i ++ rest) = .ok (i, rest)

/-- The opcode map: 0x0 to 0x3 with RSV = 0 select the four commands, and every other word is illegal (30_encoding.md R101). -/
def Obligations.OpcodeMapOfEveryWord : Prop :=
  ∀ v : Word,
    (decode v = .ok .nop ↔ v = 0x00000000#32) ∧ (decode v = .ok .prepare ↔ v = 0x00000001#32) ∧
    (decode v = .ok .release ↔ v = 0x00000002#32) ∧ (decode v = .ok .process ↔ v = 0x00000003#32) ∧
    ((∃ e, decode v = .error e) ↔ Claims.illegalWord v)

/-- A few words of spec/95_test_vectors.md section 2.1, decoded. -/
def Obligations.ListedWordsDecode : Prop :=
  decodeTableWord 32 0x00000000 = some .nop ∧ decodeTableWord 32 0x00000001 = some .prepare ∧
  decodeTableWord 32 0x00000002 = some .release ∧ decodeTableWord 32 0x00000003 = some .process ∧
  decode 0x00000004#32 = .error .reservedOpcode ∧ decode 0x0000000F#32 = .error .reservedOpcode ∧
  decode 0x00000010#32 = .error .reservedBits ∧ decode 0x80000003#32 = .error .reservedBits

/-! ### One step -/

/-- A legal write to CMD of a word that decodes to `i` makes the step `exec i`, from the state with that transaction taken off
the order (44_processor.md R191); the word that `withFetchWord` places is such a write (log 15). -/
def Obligations.StepRunsDecodedCommand : Prop :=
  ∀ (s : State) (rest : List Input) (v : Word) (i : Instr),
    (s.inputs = Claims.write 0x004#32 v :: rest → decode v = .ok i → step s = exec i (Claims.begun s rest)) ∧
    step (s.withFetchWord 32 (encode i).toNat) = exec i (Claims.begun s s.inputs)

/-- Writing an illegal word to CMD raises ERR_CMD with the word, in every state and before every other check, and changes
nothing else (44_processor.md R193, 30_encoding.md R102). -/
def Obligations.IllegalCommandWordRaises : Prop :=
  ∀ (s : State) (rest : List Input) (v : Word),
    s.inputs = Claims.write 0x004#32 v :: rest → Claims.illegalWord v →
      step s = .next (raise .cmd v (Claims.begun s rest))

/-- Every step answers a next state (93_implementation_defined.md: no behaviour is stuck; 60_exceptions.md R236), one that a
bus transaction, a completion step or a reset step from the next entry gives: the entry is gone from the order. -/
def Obligations.StepNeverStops : Prop :=
  ∀ s : State, ∃ t, step s = .next t ∧ t.inputs = s.inputs.tail ∧ t.params = s.params

/-! ### Errors, STATUS and the interrupt -/

/-- Raising an error: the cause code and information word are recorded only while no ERR bit is set, the cause's ERR bit is set,
the cause joins the fault record, and nothing else changes (60_exceptions.md R231). That it joins the record also where its ERR bit is
1 already is the model's choice (log 6; R238, R246). -/
def Obligations.RaiseRecordsFirstError : Prop :=
  ∀ (c : ErrCause) (info : Word) (s : State),
    (s.errs = 0#7 → (raise c info s).firstErr = c.code ∧ (raise c info s).errInfo = info) ∧
    (s.errs ≠ 0#7 → (raise c info s).firstErr = s.firstErr ∧ (raise c info s).errInfo = s.errInfo) ∧
    (∀ k : ℕ, (raise c info s).errs.getLsbD k = (s.errs.getLsbD k || decide (k + 1 = c.code.toNat))) ∧
    (raise c info s).faults = s.faults ++ [c] ∧
    raise c info s = { s with
      firstErr := (raise c info s).firstErr
      errInfo := (raise c info s).errInfo
      errs := (raise c info s).errs
      faults := (raise c info s).faults }

/-- The cause codes are 1 to 7 in the order of the table, and the STATUS bit of code k is bit 7 + k: raising a cause sets it in
the word that a read of STATUS gives (60_exceptions.md R230's first three columns). -/
def Obligations.CauseCodesAndBits : Prop :=
  ErrCause.code .cmd = 1#4 ∧ ErrCause.code .busy = 2#4 ∧ ErrCause.code .unprep = 3#4 ∧ ErrCause.code .cfg = 4#4 ∧
  ErrCause.code .param = 5#4 ∧ ErrCause.code .num = 6#4 ∧ ErrCause.code .access = 7#4 ∧
  ∀ (c : ErrCause) (info : Word) (s : State), (regRead (raise c info s) .status).getLsbD (7 + c.code.toNat) = true

/-- A read of STATUS gives STATE in bits 1:0, DONE in bit 2, the ERR bits in 14:8, FIRST_ERR in 19:16 and 0 in every other bit,
in every state (10_state.md R24). -/
def Obligations.StatusReadLayout : Prop :=
  ∀ (s : State) (rest : List Input), s.inputs = Claims.read 0x008#32 :: rest →
    ∃ w : Word, step s = .next { Claims.begun s rest with rdata := some w } ∧
      w.toNat = (match s.seq with | .unprepared => 0 | .ready => 1 | .busy => 2) + 4 * s.done.toNat +
        256 * s.errs.toNat + 65536 * s.firstErr.toNat

/-- A write of v to STATUS clears DONE and the ERR bits where v has a 1, ignores every other bit, makes FIRST_ERR 0 if no ERR bit
is left, and changes nothing else, ERR_INFO and STATE included (10_state.md R24, 60_exceptions.md R232). -/
def Obligations.StatusWriteOneToClear : Prop :=
  ∀ (s : State) (rest : List Input) (v : Word), s.inputs = Claims.write 0x008#32 v :: rest →
    ∃ t, step s = .next t ∧
      t.done = (s.done && !(v.getLsbD 2)) ∧
      (∀ k < 7, t.errs.getLsbD k = (s.errs.getLsbD k && !(v.getLsbD (8 + k)))) ∧
      (t.errs = 0#7 → t.firstErr = 0#4) ∧ (t.errs ≠ 0#7 → t.firstErr = s.firstErr) ∧
      t = { Claims.begun s rest with done := t.done, errs := t.errs, firstErr := t.firstErr }

/-- irq is (DONE and INT_EN[0]) or (STATUS[14:8] ≠ 0 and INT_EN[1]), of the words the registers read (10_state.md R38). -/
def Obligations.IrqIsFunctionOfStatus : Prop :=
  (∀ s : State, s.irq = true ↔
    ((regRead s .status).getLsbD 2 = true ∧ (regRead s .intEn).getLsbD 0 = true) ∨
    ((regRead s .status).extractLsb' 8 7 ≠ 0#7 ∧ (regRead s .intEn).getLsbD 1 = true)) ∧
  State.reset.irq = false

/-- The fault record only grows: every step keeps it as a beginning of the new one, and every ERR bit the step sets has its cause
among what the step appends (60_exceptions.md R246). -/
def Obligations.FaultRecordOnlyGrows : Prop :=
  ∀ s t : State, step s = .next t → ∃ new, t.faults = s.faults ++ new ∧
    ∀ c : ErrCause, t.errs &&& c.bit ≠ 0#7 → s.errs &&& c.bit = 0#7 → c ∈ new

/-! ### Registers and the address map -/

/-- A write to an RW register stores the word, or its bits 1:0 for a slope register and INT_EN, in every state, BUSY included; a
read of any register then gives that value or what it gave before, and nothing else changes (20_memory.md R74;
10_state.md R25, R29, R30, R31, R36). -/
def Obligations.ReadWriteRegisterHoldsWrite : Prop :=
  ∀ (s : State) (rest : List Input) (r : Reg) (v : Word), r.access = .rw → s.inputs = Claims.write r.offset v :: rest →
    ∃ t, step s = .next t ∧ regRead t r = Claims.kept r v ∧ (∀ r', r' ≠ r → regRead t r' = regRead s r') ∧
      t = { Claims.begun s rest with
        intEn := t.intEn, sampleRate := t.sampleRate, maxBlock := t.maxBlock, blockLen := t.blockLen, regs := t.regs }

/-- A write to an RO register or to a reserved offset has no effect and raises no error, and a reserved offset reads 0 without an
error, in every state (10_state.md R39, 20_memory.md R74, R75). -/
def Obligations.ReadOnlyAndReserved : Prop :=
  ∀ (s : State) (rest : List Input) (off v : Word), Claims.aligned off →
    (s.inputs = Claims.write off v :: rest →
      ((∃ r : Reg, r.access = .ro ∧ off = r.offset) ∨ Claims.reserved off) →
      step s = .next (Claims.begun s rest)) ∧
    (s.inputs = Claims.read off :: rest → Claims.reserved off →
      step s = .next { Claims.begun s rest with rdata := some 0#32 })

/-- A whole-word read of any register answers its value and changes nothing, in every state; and that value is the constant ID, 0 for
CMD, what each RW register holds, and the state each read-only register views (20_memory.md R73; 10_state.md R22, R23,
R25, R29 to R36, R41; the words of STATUS and ACTIVE are the matter of StatusReadLayout and ActiveReadLayout). -/
def Obligations.ReadOnlyRegisterValues : Prop :=
  ∀ (s : State) (rest : List Input) (r : Reg), s.inputs = Claims.read r.offset :: rest →
    step s = .next { Claims.begun s rest with rdata := some (regRead s r) } ∧
    ∀ w : Word,
      ((r = .id ∧ w = 0x53455131#32) ∨ (r = .cmd ∧ w = 0#32) ∨ (r = .intEn ∧ w = s.intEn.setWidth 32) ∨
        (r = .sampleRate ∧ w = s.sampleRate) ∨ (r = .maxBlock ∧ w = s.maxBlock) ∨ (r = .blockLen ∧ w = s.blockLen) ∨
        (r = .blockCount ∧ w = s.blockCount) ∨ (r = .bufFrames ∧ w = BitVec.ofNat 32 s.params.bufFrames) ∨
        (r = .fsLatched ∧ w = s.fsL) ∨ (r = .maxblkLatched ∧ w = s.maxBlkL) ∨ (r = .lenLatched ∧ w = s.lenL) ∨
        (r = .errInfo ∧ w = s.errInfo) ∨
        (r = .lowCutFreq ∧ w = s.regs.lowCutFreq) ∨ (r = .lowCutSlope ∧ w = s.regs.lowCutSlope.setWidth 32) ∨
        (r = .highCutFreq ∧ w = s.regs.highCutFreq) ∨ (r = .highCutSlope ∧ w = s.regs.highCutSlope.setWidth 32) ∨
        (r = .peakFreq ∧ w = s.regs.peakFreq) ∨ (r = .peakGainDb ∧ w = s.regs.peakGainDb) ∨
        (r = .peakQ ∧ w = s.regs.peakQ) ∨
        (r = .snapLowCutFreq ∧ w = s.snap.lowCutFreq) ∨ (r = .snapLowCutSlope ∧ w = s.snap.lowCutSlope.setWidth 32) ∨
        (r = .snapHighCutFreq ∧ w = s.snap.highCutFreq) ∨ (r = .snapHighCutSlope ∧ w = s.snap.highCutSlope.setWidth 32) ∨
        (r = .snapPeakFreq ∧ w = s.snap.peakFreq) ∨ (r = .snapPeakGainDb ∧ w = s.snap.peakGainDb) ∨
        (r = .snapPeakQ ∧ w = s.snap.peakQ)) →
      regRead s r = w

/-- The ACTIVE register: LC_ACTIVE in 2:0, HC_ACTIVE in 6:4, bit 8+i = (i < LC_ACTIVE), bit 12+i = (i < HC_ACTIVE), other bits 0
(10_state.md R28's table). -/
def Obligations.ActiveReadLayout : Prop :=
  ∀ s : State, (∀ i < 4, (regRead s .active).getLsbD (8 + i) = decide (i < s.lcActive.toNat) ∧
      (regRead s .active).getLsbD (12 + i) = decide (i < s.hcActive.toNat)) ∧
    (regRead s .active).toNat % 256 = s.lcActive.toNat + 16 * s.hcActive.toNat ∧ (regRead s .active).toNat < 65536

/-- An access that is not of the whole word or not aligned raises ERR_ACCESS: a write changes nothing else, a read gives 0
(20_memory.md R72). -/
def Obligations.IllegalAccessRaises : Prop :=
  ∀ (s : State) (rest : List Input) (x : Txn), s.inputs = .transaction x :: rest →
    (x.be ≠ 0b1111#4 ∨ ¬Claims.aligned x.off) →
    (x.kind = .read → step s = .next { raise .access x.off (Claims.begun s rest) with rdata := some 0#32 }) ∧
    (x.kind = .write → step s = .next (raise .access x.off (Claims.begun s rest)))

/-- Any access to an unmapped offset, legal or not, raises ERR_ACCESS; a read gives 0, a write is dropped (20_memory.md R80). -/
def Obligations.UnmappedAccessRaises : Prop :=
  ∀ (s : State) (rest : List Input) (x : Txn), s.inputs = .transaction x :: rest →
    Claims.unmapped s.params.bufFrames x.off →
    (x.kind = .read → step s = .next { raise .access x.off (Claims.begun s rest) with rdata := some 0#32 }) ∧
    (x.kind = .write → step s = .next (raise .access x.off (Claims.begun s rest)))

/-- While BUSY, every access to a COEF, HIST, LBUF or RBUF word, legal or not, raises ERR_ACCESS, reads 0 and writes nothing; a
whole-word access to a control register proceeds as in any other state (20_memory.md R78). -/
def Obligations.BusyWindowAccessRaises : Prop :=
  ∀ (s : State) (rest : List Input) (x : Txn), s.seq = .busy → s.inputs = .transaction x :: rest →
    (Claims.jobOwned s.params.bufFrames x.off →
      (x.kind = .read → step s = .next { raise .access x.off (Claims.begun s rest) with rdata := some 0#32 }) ∧
      (x.kind = .write → step s = .next (raise .access x.off (Claims.begun s rest)))) ∧
    (∀ r : Reg, x.off = r.offset → x.be = 0b1111#4 →
      (x.kind = .read → step s = .next { Claims.begun s rest with rdata := some (regRead s r) }) ∧
      (x.kind = .write → step s =
        if r = .cmd then issueCommand x.wdata (Claims.begun s rest)
        else .next (regWrite x.wdata (Claims.begun s rest) r)))

/-- While no job is pending, the words of the COEF window are b0, b1, b2, a1, a2 and 0 for w = 5 to 7 of each section, and those of a
channel's HIST window are x1, x2, y1, y2 of each section and 0 for n = 9 to 15; a write to either has no effect and raises nothing
(20_memory.md R76, R77, R74). -/
def Obligations.WindowReads : Prop :=
  (∀ (s : State) (rest : List Input) (n : Fin 9) (w : Fin 8), s.seq ≠ .busy →
    s.inputs = Claims.read (BitVec.ofNat 32 (0x100 + 0x20 * n.val + 4 * w.val)) :: rest →
    step s = .next { Claims.begun s rest with
      rdata := some ([(s.coefs.get n).b0, (s.coefs.get n).b1, (s.coefs.get n).b2, (s.coefs.get n).a1,
        (s.coefs.get n).a2, 0#32, 0#32, 0#32].getD w.val 0#32) }) ∧
  (∀ (s : State) (rest : List Input) (ch : Channel) (n : Fin 16) (w : Fin 4), s.seq ≠ .busy →
    s.inputs = Claims.read (BitVec.ofNat 32 (Claims.histOffset ch n.val w.val)) :: rest →
    step s = .next { Claims.begun s rest with
      rdata := some (if h : n.val < 9 then
          [((s.hist ch).get ⟨n.val, h⟩).x1, ((s.hist ch).get ⟨n.val, h⟩).x2, ((s.hist ch).get ⟨n.val, h⟩).y1,
            ((s.hist ch).get ⟨n.val, h⟩).y2].getD w.val 0#32
        else 0#32) }) ∧
  (∀ (s : State) (rest : List Input) (off v : Word), s.seq ≠ .busy → Claims.aligned off →
    (0x100 ≤ off.toNat ∧ off.toNat < 0x220) ∨ (0x400 ≤ off.toNat ∧ off.toNat < 0x600) →
    s.inputs = Claims.write off v :: rest → step s = .next (Claims.begun s rest))

/-- A read transaction, legal or not, changes nothing but the ERR_ACCESS it may raise (20_memory.md R73, R83). -/
def Obligations.ReadsHaveNoSideEffect : Prop :=
  ∀ (s : State) (rest : List Input) (x : Txn), s.inputs = .transaction x :: rest → x.kind = .read →
    (∃ d, step s = .next { Claims.begun s rest with rdata := some d }) ∨
      step s = .next { raise .access x.off (Claims.begun s rest) with rdata := some 0#32 }

/-- While no job is pending, a write to sample word i of a channel's buffer, i below BUF_FRAMES, stores the word: a read then gives
it, every other sample word and every byte of memory outside the word read as before, and nothing else changes
(20_memory.md R74, R79, 70_reset_and_hazards.md R266). -/
def Obligations.BufferWordHoldsWrite : Prop :=
  ∀ (s : State) (rest : List Input) (ch : Channel) (i : ℕ) (v : Word),
    s.seq ≠ .busy → s.params.wf = true → i < s.params.bufFrames →
    s.inputs = Claims.write (BitVec.ofNat 32 (bufAddr ch i)) v :: Claims.read (BitVec.ofNat 32 (bufAddr ch i)) :: rest →
    ∃ t, step s = .next t ∧
      step t = .next { t with inputs := rest, rdata := some v } ∧
      (∀ ch' j, j < s.params.bufFrames → (ch' ≠ ch ∨ j ≠ i) → t.buf ch' j = s.buf ch' j) ∧
      (∀ a, ¬(bufAddr ch i ≤ a ∧ a < bufAddr ch i + 4) → memByte t.resets t.mem a = memByte s.resets s.mem a) ∧
      t = { Claims.begun s (Claims.read (BitVec.ofNat 32 (bufAddr ch i)) :: rest) with mem := t.mem }

/-- The platform routes the 0x40000 bytes at BASE_ADDR to the block as offsets 0x00000..0x3FFFF, and no other bus address
(20_memory.md R84). -/
def Obligations.PlatformRoutesBaseWindow : Prop :=
  ∀ (p : Params) (kind : TxnKind) (addr wdata : Word) (be : BitVec 4), p.wf = true →
    ((∃ x, routeTxn p kind addr wdata be = some x) ↔
      p.baseAddr.toNat ≤ addr.toNat ∧ addr.toNat < p.baseAddr.toNat + 0x40000) ∧
    ∀ x, routeTxn p kind addr wdata be = some x →
      x.off.toNat = addr.toNat - p.baseAddr.toNat ∧ x.kind = kind ∧ x.wdata = wdata ∧ x.be = be

/-! ### Commands -/

/-- NOP does nothing in every state, BUSY included; a word with OPC = 0 and RSV ≠ 0 is not NOP: written to CMD it raises ERR_CMD
(44_processor.md R192). -/
def Obligations.NopChangesNothing : Prop :=
  ∀ s : State, exec .nop s = .next s ∧
    ∀ v : Word, v &&& 0xF#32 = 0#32 → v ≠ 0#32 → issueCommand v s = .next (raise .cmd v s)

/-- PREPARE in UNPREPARED or READY with good operands latches FS_L and MAXBLK_L, zeroes every history word, sets every coefficient
set to identity and both counts and BLOCK_COUNT to 0, and makes STATE READY; it writes nothing else (44_processor.md R196). -/
def Obligations.PrepareStartsStream : Prop :=
  ∀ s : State, s.seq ≠ .busy → Claims.goodConfig s →
    ∃ t, exec .prepare s = .next t ∧ t.fsL = s.sampleRate ∧ t.maxBlkL = s.maxBlock ∧
      (∀ ch, ∀ n : Fin 9, (t.hist ch).get n = { x1 := 0#32, x2 := 0#32, y1 := 0#32, y2 := 0#32 }) ∧
      (∀ n : Fin 9, t.coefs.get n = { b0 := 0x3F800000#32, b1 := 0#32, b2 := 0#32, a1 := 0#32, a2 := 0#32 }) ∧
      t.lcActive = 0#3 ∧ t.hcActive = 0#3 ∧ t.blockCount = 0#32 ∧ t.seq = .ready ∧
      t = { s with
        fsL := t.fsL, maxBlkL := t.maxBlkL, histLeft := t.histLeft, histRight := t.histRight, coefs := t.coefs,
        lcActive := t.lcActive, hcActive := t.hcActive, blockCount := t.blockCount, seq := t.seq }

/-- PREPARE in UNPREPARED or READY raises ERR_CFG with its opcode, and changes nothing else, unless SAMPLE_RATE is finite and above 0
and 1 ≤ MAX_BLOCK ≤ BUF_FRAMES; with both it raises nothing, however high the sample rate (44_processor.md R195). -/
def Obligations.PrepareRefusesBadConfig : Prop :=
  ∀ s : State, s.seq ≠ .busy →
    (¬Claims.goodConfig s → exec .prepare s = .next (raise .cfg 1#32 s)) ∧
    (Claims.goodConfig s → ∃ t, exec .prepare s = .next t ∧ t.seq = .ready ∧ t.errs = s.errs ∧ t.faults = s.faults)

/-- RELEASE in UNPREPARED or READY makes STATE UNPREPARED and writes nothing else; a PROCESS after it raises ERR_UNPREP
(44_processor.md R198). -/
def Obligations.ReleaseUnprepares : Prop :=
  ∀ s : State, s.seq ≠ .busy →
    exec .release s = .next { s with seq := .unprepared } ∧
    exec .process { s with seq := .unprepared } = .next (raise .unprep 3#32 { s with seq := .unprepared })

/-- PROCESS in READY with BLOCK_LEN ≤ MAXBLK_L latches the seven parameter registers into SNAP and BLOCK_LEN into LEN_L and makes
STATE BUSY, in one step; DONE and everything else keep their values (44_processor.md R199, 40_parameters.md R121). -/
def Obligations.ProcessLatchesAndStartsJob : Prop :=
  ∀ s : State, s.seq = .ready → s.blockLen.toNat ≤ s.maxBlkL.toNat →
    exec .process s = .next { s with
      snap := {
        lowCutFreq := s.regs.lowCutFreq, lowCutSlope := s.regs.lowCutSlope, highCutFreq := s.regs.highCutFreq,
        highCutSlope := s.regs.highCutSlope, peakFreq := s.regs.peakFreq, peakGainDb := s.regs.peakGainDb,
        peakQ := s.regs.peakQ }
      lenL := s.blockLen
      seq := .busy }

/-- PROCESS raises ERR_UNPREP in UNPREPARED, whatever BLOCK_LEN is, and ERR_CFG in READY if BLOCK_LEN > MAXBLK_L; it then changes
nothing else (44_processor.md R200). -/
def Obligations.ProcessRefusals : Prop :=
  ∀ s : State,
    (s.seq = .unprepared → exec .process s = .next (raise .unprep 3#32 s)) ∧
    (s.seq = .ready → s.maxBlkL.toNat < s.blockLen.toNat → exec .process s = .next (raise .cfg 3#32 s))

/-- PREPARE, RELEASE and PROCESS in BUSY raise ERR_BUSY with their opcode and change nothing else, so the pending job is as it was
(44_processor.md R194). -/
def Obligations.BusyRefusesCommands : Prop :=
  ∀ s : State, s.seq = .busy →
    exec .prepare s = .next (raise .busy 1#32 s) ∧ exec .release s = .next (raise .busy 2#32 s) ∧
    exec .process s = .next (raise .busy 3#32 s)

/-- A word written to CMD raises at most one error, that of the first check that fails, in the order ERR_CMD, ERR_BUSY, ERR_UNPREP,
ERR_CFG (60_exceptions.md R233). The error is told by what joins the fault record, also where its ERR bit is 1 already, which is the
model's choice (R246; log 6). -/
def Obligations.FirstFailingCheckDecides : Prop :=
  ∀ (s t : State) (rest : List Input) (v : Word), s.inputs = Claims.write 0x004#32 v :: rest → step s = .next t →
    (Claims.illegalWord v → t.faults = s.faults ++ [.cmd]) ∧
    (v = 0#32 → t.faults = s.faults) ∧
    (v = 1#32 ∨ v = 2#32 ∨ v = 3#32 → s.seq = .busy → t.faults = s.faults ++ [.busy]) ∧
    (v = 3#32 → s.seq = .unprepared → t.faults = s.faults ++ [.unprep]) ∧
    (v = 3#32 → s.seq = .ready → s.maxBlkL.toNat < s.blockLen.toNat → t.faults = s.faults ++ [.cfg]) ∧
    (v = 1#32 → s.seq ≠ .busy → ¬Claims.goodConfig s → t.faults = s.faults ++ [.cfg]) ∧
    (v = 1#32 → s.seq ≠ .busy → Claims.goodConfig s → t.faults = s.faults) ∧
    (v = 2#32 → s.seq ≠ .busy → t.faults = s.faults) ∧
    (v = 3#32 → s.seq = .ready → s.blockLen.toNat ≤ s.maxBlkL.toNat → t.faults = s.faults)

/-- The frame of the commands NOP, PREPARE, RELEASE and PROCESS: whatever a command does, the parameter and configuration
registers, INT_EN, DONE, the schedule, the read answer and every byte of memory stay; SNAP and LEN_L change only by PROCESS; FS_L,
MAXBLK_L, C, H, the counts and BLOCK_COUNT only by PREPARE; STATE not by NOP (44_processor.md R192, R196, R198, R199). -/
def Obligations.CommandFrame : Prop :=
  ∀ (i : Instr) (s t : State), exec i s = .next t →
    t.regs = s.regs ∧ t.sampleRate = s.sampleRate ∧ t.maxBlock = s.maxBlock ∧ t.blockLen = s.blockLen ∧
    t.intEn = s.intEn ∧ t.done = s.done ∧ t.inputs = s.inputs ∧ t.rdata = s.rdata ∧ t.params = s.params ∧
    t.resets = s.resets ∧ (∀ a, memByte t.resets t.mem a = memByte s.resets s.mem a) ∧
    (i ≠ .process → t.snap = s.snap ∧ t.lenL = s.lenL) ∧
    (i ≠ .prepare → t.fsL = s.fsL ∧ t.maxBlkL = s.maxBlkL ∧ t.coefs = s.coefs ∧ t.histLeft = s.histLeft ∧
      t.histRight = s.histRight ∧ t.lcActive = s.lcActive ∧ t.hcActive = s.hcActive ∧ t.blockCount = s.blockCount) ∧
    (i = .nop → t = s)

/-! ### Arithmetic -/

/-- `real(w)` of a finite word by IEEE-754's layout: sign, exponent and fraction (00_scope.md R10, K1). -/
def Obligations.RealValueOfWord : Prop :=
  ∀ w : Word, f32IsFinite w = true →
    Claims.real w = (if w.msb then -1 else 1) *
      (if (w.extractLsb' 23 8).toNat = 0 then ((w.extractLsb' 0 23).toNat : ℝ) * (2 : ℝ) ^ (-149 : ℤ)
        else (2 ^ 23 + ((w.extractLsb' 0 23).toNat : ℝ)) * (2 : ℝ) ^ ((w.extractLsb' 23 8).toNat - 150 : ℤ))

/-- `rnd32` gives a nearest binary32 value: where its result is finite, no finite word is nearer to n/d, and of two equally near
ones it is the one with an even fraction (00_scope.md R10). -/
def Obligations.RoundingIsNearestEven : Prop :=
  ∀ (n : ℤ) (d : ℕ) (u : Word), 0 < d → f32IsFinite (rnd32 n d) = true → f32IsFinite u = true →
    |(n : ℝ) / d - Claims.real (rnd32 n d)| ≤ |(n : ℝ) / d - Claims.real u| ∧
    (|(n : ℝ) / d - Claims.real (rnd32 n d)| = |(n : ℝ) / d - Claims.real u| →
      Claims.real u ≠ Claims.real (rnd32 n d) → f32Frac (rnd32 n d) % 2 = 0)

/-- `rnd32` overflows to infinity exactly from halfway between the greatest finite value and 2^128 on, with the sign of the value
(00_scope.md R10). -/
def Obligations.RoundingOverflow : Prop :=
  ∀ (n : ℤ) (d : ℕ), 0 < d →
    ((2 ^ 25 - 1) * 2 ^ 103 ≤ (n : ℝ) / d → rnd32 n d = 0x7F800000#32) ∧
    ((n : ℝ) / d ≤ -((2 ^ 25 - 1) * 2 ^ 103) → rnd32 n d = 0xFF800000#32) ∧
    (|(n : ℝ) / d| < (2 ^ 25 - 1) * 2 ^ 103 → f32IsFinite (rnd32 n d) = true)

/-- `f32_add` with FTZ = false, case by case: NaN, opposite infinities, an infinity, a zero sum, and else the rounded exact sum
(42_biquad_section.md R160); and `f32_sub` at either FTZ is `f32_add` with the second word's bit 31 inverted, whatever that word is
(R161). -/
def Obligations.AdditionCases : Prop :=
  ∀ a b : Word,
    (f32IsNaN a = true ∨ f32IsNaN b = true → f32Add false a b = 0x7FC00000#32) ∧
    (f32IsInf a = true → f32IsInf b = true → a ≠ b → f32Add false a b = 0x7FC00000#32) ∧
    (f32IsInf a = true → f32IsNaN b = false → (f32IsInf b = false ∨ a = b) → f32Add false a b = a) ∧
    (f32IsInf b = true → f32IsNaN a = false → (f32IsInf a = false ∨ a = b) → f32Add false a b = b) ∧
    (f32IsFinite a = true → f32IsFinite b = true → Claims.real a + Claims.real b = 0 →
      f32Add false a b = if a = 0x80000000#32 ∧ b = 0x80000000#32 then 0x80000000#32 else 0#32) ∧
    (f32IsFinite a = true → f32IsFinite b = true → Claims.real a + Claims.real b ≠ 0 →
      f32Add false a b = rnd32Real (Claims.real a + Claims.real b)) ∧
    (∃ b' : Word, (∀ k < 32, b'.getLsbD k = (b.getLsbD k ^^ decide (k = 31))) ∧ ∀ ftz : Bool, f32Sub ftz a b = f32Add ftz a b')

/-- `f32_mul` with FTZ = false, case by case: NaN, zero times infinity, an infinity, a zero, and else the rounded exact product,
with the exclusive or of the signs also where it rounds to zero (42_biquad_section.md R162). -/
def Obligations.MultiplicationCases : Prop :=
  ∀ a b : Word,
    (f32IsNaN a = true ∨ f32IsNaN b = true → f32Mul false a b = 0x7FC00000#32) ∧
    ((f32IsZero a = true ∧ f32IsInf b = true) ∨ (f32IsInf a = true ∧ f32IsZero b = true) →
      f32Mul false a b = 0x7FC00000#32) ∧
    (f32IsInf a = true → f32IsNaN b = false → f32IsZero b = false →
      f32Mul false a b = if a.msb = b.msb then 0x7F800000#32 else 0xFF800000#32) ∧
    (f32IsInf b = true → f32IsNaN a = false → f32IsZero a = false →
      f32Mul false a b = if a.msb = b.msb then 0x7F800000#32 else 0xFF800000#32) ∧
    (f32IsFinite a = true → f32IsFinite b = true → (f32IsZero a = true ∨ f32IsZero b = true) →
      f32Mul false a b = if a.msb = b.msb then 0#32 else 0x80000000#32) ∧
    (f32IsFinite a = true → f32IsFinite b = true → f32IsZero a = false → f32IsZero b = false →
      f32Mul false a b = if rnd32Real (Claims.real a * Claims.real b) = 0#32 ∧ a.msb ≠ b.msb then 0x80000000#32
        else rnd32Real (Claims.real a * Claims.real b))

/-- Every NaN result of the three operations is the canonical quiet NaN; with FTZ = true no operation's result is subnormal, and an
operation is the one with FTZ = false on operands whose subnormals are zeros of their own sign, its subnormal result replaced by a
zero of its own sign (42_biquad_section.md R163). -/
def Obligations.NaNResultsAreCanonical : Prop :=
  (∀ (ftz : Bool) (a b y : Word), (y = f32Add ftz a b ∨ y = f32Sub ftz a b ∨ y = f32Mul ftz a b) →
    (f32IsNaN y = true → y = 0x7FC00000#32) ∧ (ftz = true → f32IsSubnormal y = false)) ∧
  ∀ a b : Word,
    f32Add true a b = Claims.flushed (f32Add false (Claims.flushed a) (Claims.flushed b)) ∧
    f32Sub true a b = Claims.flushed (f32Sub false (Claims.flushed a) (Claims.flushed b)) ∧
    f32Mul true a b = Claims.flushed (f32Mul false (Claims.flushed a) (Claims.flushed b))

/-! ### Sections, cascades, chain -/

/-- An enabled section: the difference equation from left to right, the four history words moved on at once, every other section's
history as it was (42_biquad_section.md R164, R168). -/
def Obligations.EnabledSectionEquation : Prop :=
  ∀ (ftz : Bool) (bank : CoefBank) (n : Fin 9) (h : HistFile) (x : Word),
    ∃ y, (processSample ftz bank n h x).1 = y ∧
      y = f32Sub ftz (f32Sub ftz (f32Add ftz (f32Add ftz (f32Mul ftz (bank.get n).b0 x)
        (f32Mul ftz (bank.get n).b1 (h.get n).x1)) (f32Mul ftz (bank.get n).b2 (h.get n).x2))
        (f32Mul ftz (bank.get n).a1 (h.get n).y1)) (f32Mul ftz (bank.get n).a2 (h.get n).y2) ∧
      (processSample ftz bank n h x).2.get n = { x1 := x, x2 := (h.get n).x1, y1 := y, y2 := (h.get n).y1 } ∧
      ∀ m : Fin 9, m ≠ n → (processSample ftz bank n h x).2.get m = h.get m

/-- A NaN in the input, in a history word or in a coefficient of an enabled section makes its output CNAN, and the section's next
output is CNAN too, whatever its input (42_biquad_section.md R164, corner cases). -/
def Obligations.NaNPoisonsSection : Prop :=
  ∀ (ftz : Bool) (bank : CoefBank) (n : Fin 9) (h : HistFile) (x x' : Word),
    (f32IsNaN x = true ∨ f32IsNaN (h.get n).x1 = true ∨ f32IsNaN (h.get n).x2 = true ∨ f32IsNaN (h.get n).y1 = true ∨
      f32IsNaN (h.get n).y2 = true ∨ f32IsNaN (bank.get n).b0 = true ∨ f32IsNaN (bank.get n).b1 = true ∨
      f32IsNaN (bank.get n).b2 = true ∨ f32IsNaN (bank.get n).a1 = true ∨ f32IsNaN (bank.get n).a2 = true) →
    (processSample ftz bank n h x).1 = 0x7FC00000#32 ∧
      (processSample ftz bank n (processSample ftz bank n h x).2 x').1 = 0x7FC00000#32

/-- A cascade passes a sample through its first ACT sections in index order and is the identity past them: its result is that of
those sections alone, and every other section's history stays (43_cut_cascade.md R182, 42_biquad_section.md R165). The channel chain
passes it through the enabled sections among 0 to 3, then section 4, always enabled, then the enabled ones among 5 to 8
(44_processor.md R190). -/
def Obligations.CascadeRunsEnabledPrefix : Prop :=
  (∀ (ftz : Bool) (bank : CoefBank) (act : ℕ) (c : Cascade) (h : HistFile) (x : Word),
    processCascade ftz bank act c h x =
      ((c.sections.take act).foldl (fun r n => processSample ftz bank n r.2 r.1) (x, h)) ∧
    (∀ n : Fin 9, n ∉ c.sections.take act → (processCascade ftz bank act c h x).2.get n = h.get n) ∧
    (act = 0 → processCascade ftz bank act c h x = (x, h))) ∧
  ∀ (ftz : Bool) (bank : CoefBank) (lc hc : ℕ) (h : HistFile) (x : Word),
    channelChain ftz bank lc hc h x =
      ((([0, 1, 2, 3] : List (Fin 9)).take lc ++ 4 :: ([5, 6, 7, 8] : List (Fin 9)).take hc).foldl
        (fun r n => processSample ftz bank n r.2 r.1) (x, h))

/-! ### The factory -/

/-- At tolerance 0 each peak coefficient is `rnd32` of the RBJ formula's exact real, for every argument
(41_coefficient_factory.md R141, R142, R143). -/
def Obligations.PeakFactoryRoundsExactly : Prop :=
  ∀ fs f q g : Word,
    let A : ℝ := (10 : ℝ) ^ (Claims.real g / 40)
    let w0 : ℝ := 2 * Real.pi * Claims.real f / Claims.real fs
    let alpha : ℝ := Real.sin w0 / (2 * Claims.real q)
    let a0 : ℝ := 1 + alpha / A
    makePeak 0 fs f q g =
      { b0 := rnd32Real ((1 + alpha * A) / a0)
        b1 := rnd32Real (-2 * Real.cos w0 / a0)
        b2 := rnd32Real ((1 - alpha * A) / a0)
        a1 := rnd32Real (-2 * Real.cos w0 / a0)
        a2 := rnd32Real ((1 - alpha / A) / a0) }

/-- At tolerance 0 a high-pass or low-pass cascade has S sections, and each coefficient of its section k is `rnd32` of the
Butterworth formula's exact real, for every argument (41_coefficient_factory.md R141, R144 to R148). -/
def Obligations.CutFactoryRoundsExactly : Prop :=
  ∀ (fs f : Word) (S : ℕ),
    (makeHighpassCascade 0 f fs S).length = S ∧ (makeLowpassCascade 0 f fs S).length = S ∧
    ∀ k < S,
      let K : ℝ := Real.tan (Real.pi * Claims.real f / Claims.real fs)
      let Q : ℝ := 1 / (2 * Real.cos ((2 * k + 1) * Real.pi / (4 * S)))
      let d : ℝ := 1 + K / Q + K * K
      (makeHighpassCascade 0 f fs S)[k]? = some
        { b0 := rnd32Real (1 / d)
          b1 := rnd32Real (-2 / d)
          b2 := rnd32Real (1 / d)
          a1 := rnd32Real (2 * (K * K - 1) / d)
          a2 := rnd32Real ((1 - K / Q + K * K) / d) } ∧
      (makeLowpassCascade 0 f fs S)[k]? = some
        { b0 := rnd32Real (K * K / d)
          b1 := rnd32Real (2 * K * K / d)
          b2 := rnd32Real (K * K / d)
          a1 := rnd32Real (2 * (K * K - 1) / d)
          a2 := rnd32Real ((1 - K / Q + K * K) / d) }

/-- For every argument the reference value is `rnd32(v)` of the formula's exact real v, and the factory's word at tolerance 0 is the
reference value; at any tolerance it conforms to it wherever that is finite: finite itself, and at most COEF_TOL_ULP representable
values away (41_coefficient_factory.md R141). -/
def Obligations.FactoryWithinTolerance : Prop :=
  ∀ (tol : ℕ) (a : CoefArgs),
    referenceWord a = rnd32Real (exactCoef a) ∧ coefWord 0 a = rnd32Real (exactCoef a) ∧
    (f32IsFinite (rnd32Real (exactCoef a)) = true →
      f32IsFinite (coefWord tol a) = true ∧ |f32Ord (coefWord tol a) - f32Ord (rnd32Real (exactCoef a))| ≤ tol)

/-- At gain 0 and tolerance 0 the peak section has b0 = 1.0, b1 = a1 and b2 = a2 exactly, for a frequency below Nyquist and a positive
Q (41_coefficient_factory.md R150). -/
def Obligations.UnityGainPeakIsTransparent : Prop :=
  ∀ fs f q g : Word, Claims.real g = 0 → 0 < Claims.real q → 0 < Claims.real f → 2 * Claims.real f < Claims.real fs →
    (makePeak 0 fs f q g).b0 = 0x3F800000#32 ∧ (makePeak 0 fs f q g).b1 = (makePeak 0 fs f q g).a1 ∧
      (makePeak 0 fs f q g).b2 = (makePeak 0 fs f q g).a2

/-! ### The job -/

/-- ParamCheck over exact reals: it passes exactly when every field is in range and every frequency below Nyquist, and else it names
the register of the first failing field, in the order low cut, high cut, peak frequency, gain, Q (40_parameters.md R124 to R127,
R129; FS_L is finite in every state the machine reaches). -/
def Obligations.ParamCheckOverReals : Prop :=
  ∀ (p : ParamSet) (fs : Word), f32IsFinite fs = true →
    (¬Claims.freqGood fs p.lowCutFreq → paramCheck p fs = some 0x040#32) ∧
    (Claims.freqGood fs p.lowCutFreq → ¬Claims.freqGood fs p.highCutFreq → paramCheck p fs = some 0x048#32) ∧
    (Claims.freqGood fs p.lowCutFreq → Claims.freqGood fs p.highCutFreq → ¬Claims.freqGood fs p.peakFreq →
      paramCheck p fs = some 0x050#32) ∧
    (Claims.freqGood fs p.lowCutFreq → Claims.freqGood fs p.highCutFreq → Claims.freqGood fs p.peakFreq →
      ¬Claims.gainGood p.peakGainDb → paramCheck p fs = some 0x054#32) ∧
    (Claims.freqGood fs p.lowCutFreq → Claims.freqGood fs p.highCutFreq → Claims.freqGood fs p.peakFreq →
      Claims.gainGood p.peakGainDb → ¬Claims.qGood p.peakQ → paramCheck p fs = some 0x058#32) ∧
    (Claims.freqGood fs p.lowCutFreq → Claims.freqGood fs p.highCutFreq → Claims.freqGood fs p.peakFreq →
      Claims.gainGood p.peakGainDb → Claims.qGood p.peakQ → paramCheck p fs = none)

/-- A job whose snapshot fails ParamCheck, and a job with a coefficient that is not finite, raises ERR_PARAM with the failing field's
register or ERR_NUM with 0, sets STATE to READY and DONE, and does nothing else (44_processor.md R209, R202, R204,
40_parameters.md R129, 41_coefficient_factory.md R149). -/
def Obligations.JobAborts : Prop :=
  (∀ (s : State) (off : Word), Claims.completionNext s → paramCheck s.snap s.fsL = some off →
    step s = .next { raise .param off (Claims.begun s s.inputs.tail) with seq := .ready, done := true }) ∧
  (∀ (s : State) (k : FactorySets),
    (Claims.notFinite k.peak ∨ (∃ c ∈ k.lowCut, Claims.notFinite c) ∨ ∃ c ∈ k.highCut, Claims.notFinite c) →
    jobWithSets k s = { raise .num 0#32 s with seq := .ready, done := true })

/-- A job whose snapshot passes and whose coefficients are finite commits, streams and ends: the peak set goes into section 4 and the
S sets of each cascade into its first S sections, the other sections keep their words, the counts become S, BLOCK_COUNT rises by 1
modulo 2^32; each channel's block and history become what the channel chain, with the committed coefficients and counts, makes of them;
STATE becomes READY and DONE 1, no error is raised, and every byte of memory outside the two blocks and everything else stays
(44_processor.md R205, R206, R208, R215, 43_cut_cascade.md R181). LEN_L ≤ 16384 in every state in which a job is pending (20_memory.md
R88; State.Inv). -/
def Obligations.JobCommits : Prop :=
  ∀ s : State, Claims.completionNext s → paramCheck s.snap s.fsL = none → finiteCheck (factorySets s) = true →
    ∃ t, step s = .next t ∧ t.coefs.get 4 = (factorySets s).peak ∧
      (∀ (i : ℕ) (hi : i < 4), t.coefs.get ⟨i, by omega⟩ =
        ((factorySets s).lowCut[i]?).getD (s.coefs.get ⟨i, by omega⟩)) ∧
      (∀ (i : ℕ) (hi : i < 4), t.coefs.get ⟨5 + i, by omega⟩ =
        ((factorySets s).highCut[i]?).getD (s.coefs.get ⟨5 + i, by omega⟩)) ∧
      (factorySets s).lowCut.length = s.snap.lowCutSlope.toNat + 1 ∧
      (factorySets s).highCut.length = s.snap.highCutSlope.toNat + 1 ∧
      t.lcActive.toNat = s.snap.lowCutSlope.toNat + 1 ∧ t.hcActive.toNat = s.snap.highCutSlope.toNat + 1 ∧
      (s.lenL.toNat ≤ 16384 → ∀ ch : Channel,
        Claims.block t ch s.lenL.toNat =
          (Claims.chainRun t.streamEnv (s.hist ch) (Claims.block s ch s.lenL.toNat)).1 ∧
        t.hist ch = (Claims.chainRun t.streamEnv (s.hist ch) (Claims.block s ch s.lenL.toNat)).2) ∧
      (∀ a, (∀ c : Channel, ¬(bufAddr c 0 ≤ a ∧ a < bufAddr c s.lenL.toNat)) →
        memByte t.resets t.mem a = memByte s.resets s.mem a) ∧
      t.blockCount = s.blockCount + 1#32 ∧ t.seq = .ready ∧ t.done = true ∧
      t = { Claims.begun s s.inputs.tail with
        coefs := t.coefs, lcActive := t.lcActive, hcActive := t.hcActive, blockCount := t.blockCount, seq := t.seq,
        done := t.done, histLeft := t.histLeft, histRight := t.histRight, mem := t.mem }

/-- Streaming in place is the pure channel chain: for each channel the block's words become the chain's outputs on the words that stood
there, and the history the chain's; words past the block and every other byte of memory stay (44_processor.md R206, R207). -/
def Obligations.StreamingRefinesPureChain : Prop :=
  ∀ s : State, s.lenL.toNat ≤ 16384 → ∀ ch : Channel,
    Claims.block (streamBlock s) ch s.lenL.toNat =
      (Claims.chainRun s.streamEnv (s.hist ch) (Claims.block s ch s.lenL.toNat)).1 ∧
    (streamBlock s).hist ch = (Claims.chainRun s.streamEnv (s.hist ch) (Claims.block s ch s.lenL.toNat)).2 ∧
    (∀ a, (∀ c : Channel, ¬(bufAddr c 0 ≤ a ∧ a < bufAddr c s.lenL.toNat)) →
      memByte s.resets (streamBlock s).mem a = memByte s.resets s.mem a) ∧
    streamBlock s = { s with
      mem := (streamBlock s).mem, histLeft := (streamBlock s).histLeft, histRight := (streamBlock s).histRight }

/-- Stereo linkage: a completion step from equal channel histories and equal blocks leaves equal blocks and equal histories, bit for
bit (44_processor.md R210). -/
def Obligations.StereoLinkage : Prop :=
  ∀ s t : State, Claims.completionNext s → s.lenL.toNat ≤ 16384 →
    (∀ n : Fin 9, (s.hist .left).get n = (s.hist .right).get n) →
    (∀ n < s.lenL.toNat, s.buf .left n = s.buf .right n) → step s = .next t →
    (∀ n : Fin 9, (t.hist .left).get n = (t.hist .right).get n) ∧
      ∀ n < s.lenL.toNat, t.buf .left n = t.buf .right n

/-- Installing the same sets twice is installing them once. And a block split in two gives what the whole block gives: of three jobs with
equal snapshots, s on the whole block, u on its first part from the same coefficients and histories, and v on the rest from those u
left, the completion steps leave the same samples, bit for bit, and s and v the same histories and coefficients; the second of the
two, v, writes the coefficients and counts that u wrote (44_processor.md R211, 42_biquad_section.md R166). -/
def Obligations.RepeatedCommitAndBlockSplit : Prop :=
  (∀ (k : FactorySets) (s : State), commit k (commit k s) = { commit k s with blockCount := s.blockCount + 2#32 }) ∧
  (∀ s u v s' u' v' : State, Claims.completionNext s → Claims.completionNext u → Claims.completionNext v →
    step s = .next s' → step u = .next u' → step v = .next v' →
    Claims.sameSetup s u → Claims.sameSetup s v → u.coefs = s.coefs → v.coefs = u'.coefs →
    v.lcActive = u'.lcActive → v.hcActive = u'.hcActive →
    s.lenL.toNat = u.lenL.toNat + v.lenL.toNat → s.lenL.toNat ≤ 16384 →
    (∀ ch, u.hist ch = s.hist ch) → (∀ ch, v.hist ch = u'.hist ch) →
    (∀ ch, Claims.block s ch s.lenL.toNat = Claims.block u ch u.lenL.toNat ++ Claims.block v ch v.lenL.toNat) →
      (∀ ch, Claims.block s' ch s.lenL.toNat = Claims.block u' ch u.lenL.toNat ++ Claims.block v' ch v.lenL.toNat ∧
        s'.hist ch = v'.hist ch) ∧
      s'.coefs = v'.coefs ∧ v'.coefs = u'.coefs ∧ v'.lcActive = u'.lcActive ∧ v'.hcActive = u'.hcActive)

/-- No bus transaction disturbs a pending job: in BUSY any transaction, command writes included, leaves STATE = BUSY, and the job then
leaves the same coefficients, counts, histories, buffers, BLOCK_COUNT, SNAP and latched configuration as if it had not happened
(20_memory.md R78, 40_parameters.md R122, 44_processor.md R194, 70_reset_and_hazards.md R270). -/
def Obligations.TransactionsDoNotDisturbJob : Prop :=
  ∀ (s t : State) (x : Txn), s.seq = .busy → busStep x s = .next t →
    t.seq = .busy ∧ (job t).coefs = (job s).coefs ∧ (job t).lcActive = (job s).lcActive ∧
    (job t).hcActive = (job s).hcActive ∧ (job t).histLeft = (job s).histLeft ∧ (job t).histRight = (job s).histRight ∧
    (job t).mem = (job s).mem ∧ (job t).blockCount = (job s).blockCount ∧ (job t).snap = (job s).snap ∧
    (job t).lenL = (job s).lenL ∧ (job t).fsL = (job s).fsL ∧ (job t).maxBlkL = (job s).maxBlkL

/-- Every pending job ends: with no reset among the steps to come, at most one step more than there are of them brings the machine to
READY with DONE set (44_processor.md R201, R214, 70_reset_and_hazards.md R280; the order of steps is data of the model, log 1). -/
def Obligations.PendingJobCompletes : Prop :=
  ∀ s : State, s.seq = .busy → .resetInput ∉ s.inputs →
    ∃ k t, k ≤ s.inputs.length + 1 ∧ Host.Core.run core k s = .next t ∧ t.seq = .ready ∧ t.done = true

/-! ### Reset -/

/-- The reset step puts every state item to its reset value, from any state; the buffers hold a fresh unspecified draw, no read answer
stands and irq is 0 (70_reset_and_hazards.md R260, R263). -/
def Obligations.ResetStepValues : Prop :=
  ∀ (s : State) (rest : List Input), s.inputs = .resetInput :: rest →
    ∃ t, step s = .next t ∧ t.seq = .unprepared ∧ t.done = false ∧ t.errs = 0#7 ∧ t.firstErr = 0#4 ∧
      regRead t .status = 0#32 ∧ t.errInfo = 0#32 ∧ t.intEn = 0#2 ∧ t.sampleRate = 0#32 ∧ t.maxBlock = 0#32 ∧
      t.blockLen = 0#32 ∧ t.blockCount = 0#32 ∧ t.fsL = 0#32 ∧ t.maxBlkL = 0#32 ∧ t.lenL = 0#32 ∧
      (∀ p ∈ [t.regs, t.snap], p.lowCutFreq = 0x41A00000#32 ∧ p.lowCutSlope = 0#2 ∧ p.highCutFreq = 0x469C4000#32 ∧
        p.highCutSlope = 0#2 ∧ p.peakFreq = 0x443B8000#32 ∧ p.peakGainDb = 0#32 ∧ p.peakQ = 0x3F800000#32) ∧
      t.lcActive = 0#3 ∧ t.hcActive = 0#3 ∧
      (∀ n : Fin 9, t.coefs.get n = { b0 := 0x3F800000#32, b1 := 0#32, b2 := 0#32, a1 := 0#32, a2 := 0#32 }) ∧
      (∀ ch, ∀ n : Fin 9, (t.hist ch).get n = { x1 := 0#32, x2 := 0#32, y1 := 0#32, y2 := 0#32 }) ∧
      (∀ a, memByte t.resets t.mem a = Config.unwrittenByte (s.resets + 1) a) ∧
      t.irq = false ∧ t.rdata = none ∧ t.params = s.params

/-- A reset step taken in BUSY discards the pending job: a sequencer turn after it does nothing, DONE stays 0 and no error is recorded
(70_reset_and_hazards.md R262). That a sequencer turn with no job does nothing is the model's choice (log 2), and so is that the fault
record outlives the reset (60_exceptions.md R246; log 6). -/
def Obligations.ResetDiscardsPendingJob : Prop :=
  ∀ (s : State) (rest : List Input), s.seq = .busy → s.inputs = .resetInput :: .sequencerTurn :: rest →
    ∃ t, step s = .next t ∧ step t = .next { t with inputs := rest } ∧ t.done = false ∧ t.errs = 0#7 ∧
      t.faults = s.faults

/-! ### Invariants and whole-machine rules -/

/-- The invariant holds at power-on, for all parameters in their domains, and at reset. -/
def Obligations.InvariantAtReset : Prop :=
  (∀ p : Params, p.wf = true → (State.powerOn p).Inv) ∧ State.reset.Inv

/-- Every step keeps the invariant: the memory's canonical form and that only sample words are stored, FIRST_ERR = 0 exactly with no ERR
bit, every ERR bit's cause in the fault record, counts in 0..4 that leave 0 together, a coefficient bank without NaN or infinity, and
the bounds of the latched configuration (10_state.md R24, R28, 41_coefficient_factory.md R149, 44_processor.md R195, R200). -/
def Obligations.InvariantKeptByStep : Prop :=
  ∀ s t : State, s.Inv → step s = .next t → t.Inv

/-- UNPREPARED and READY are left only by a command written to CMD or by a reset, and BUSY only by the completion step, to READY, or by
a reset (60_exceptions.md R245, 10_state.md R24, 44_processor.md R201). -/
def Obligations.WhatChangesState : Prop :=
  ∀ s t : State, step s = .next t → t.seq ≠ s.seq →
    (s.seq ≠ .busy → Claims.resetNext s ∨ ∃ v, Claims.commandNext s v ∧ (v = 1#32 ∨ v = 2#32 ∨ v = 3#32)) ∧
    (s.seq = .busy → Claims.resetNext s ∨ (Claims.completionNext s ∧ t.seq = .ready))

/-- Nothing but a reset, a PREPARE and a completion step writes the coefficient bank, the counts or the history file; BLOCK_COUNT
changes only by a completion step, by 1 modulo 2^32, or to 0 by PREPARE or a reset (10_state.md R26, R27, R28, R32). -/
def Obligations.WhatChangesTheStream : Prop :=
  ∀ s t : State, step s = .next t →
    (t.coefs ≠ s.coefs ∨ t.lcActive ≠ s.lcActive ∨ t.hcActive ≠ s.hcActive ∨ t.histLeft ≠ s.histLeft ∨
        t.histRight ≠ s.histRight →
      Claims.resetNext s ∨ Claims.commandNext s 1#32 ∨ Claims.completionNext s) ∧
    (t.blockCount ≠ s.blockCount →
      (Claims.completionNext s ∧ t.blockCount = s.blockCount + 1#32) ∨
        ((Claims.resetNext s ∨ Claims.commandNext s 1#32) ∧ t.blockCount = 0#32))

/-! ### Host notation -/

/-- The pseudo-instructions as transactions, and the worked example of the encoding (30_encoding.md R109, R110). -/
def Obligations.PseudoInstructionsExpand : Prop :=
  ∀ (polls : ℕ) (fs n : Word),
    Pseudo.txns polls .nop = [writeTxn 0x004#32 0#32] ∧ Pseudo.txns polls .prepare = [writeTxn 0x004#32 1#32] ∧
    Pseudo.txns polls .release = [writeTxn 0x004#32 2#32] ∧ Pseudo.txns polls .process = [writeTxn 0x004#32 3#32] ∧
    Pseudo.txns polls .clearStatus = [writeTxn 0x008#32 0x00007F04#32] ∧
    Pseudo.txns polls .waitReady = List.replicate polls (readTxn 0x008#32) ∧
    Pseudo.txns polls .waitDone = List.replicate polls (readTxn 0x008#32) ∧
    Pseudo.txns polls (.prepareStream fs n) = [writeTxn 0x010#32 fs, writeTxn 0x014#32 n, writeTxn 0x004#32 1#32] ∧
    Pseudo.txns polls (.runBlock n) =
      [writeTxn 0x018#32 n, writeTxn 0x004#32 3#32] ++ List.replicate polls (readTxn 0x008#32) ∧
    f32Value 48000 1 = 0x473B8000#32
end

