-- ==== Sys2Proof/Laws/State.lean ====
section
/-! SUPPORT. One lemma for each field of State under each update of it, true by rfl, so that no proof unfolds a record update. -/

namespace Sys2Proof.Machine


/-! ### `raise` -/

@[simp] theorem raise_seq (c : ErrCause) (i : Word) (s : State) : (raise c i s).seq = s.seq := rfl
@[simp] theorem raise_done (c : ErrCause) (i : Word) (s : State) : (raise c i s).done = s.done := rfl
@[simp] theorem raise_errs (c : ErrCause) (i : Word) (s : State) : (raise c i s).errs = s.errs ||| c.bit := rfl
@[simp] theorem raise_firstErr (c : ErrCause) (i : Word) (s : State) : (raise c i s).firstErr = if s.errs = 0#7 then c.code else s.firstErr := rfl
@[simp] theorem raise_errInfo (c : ErrCause) (i : Word) (s : State) : (raise c i s).errInfo = if s.errs = 0#7 then i else s.errInfo := rfl
@[simp] theorem raise_intEn (c : ErrCause) (i : Word) (s : State) : (raise c i s).intEn = s.intEn := rfl
@[simp] theorem raise_sampleRate (c : ErrCause) (i : Word) (s : State) : (raise c i s).sampleRate = s.sampleRate := rfl
@[simp] theorem raise_maxBlock (c : ErrCause) (i : Word) (s : State) : (raise c i s).maxBlock = s.maxBlock := rfl
@[simp] theorem raise_blockLen (c : ErrCause) (i : Word) (s : State) : (raise c i s).blockLen = s.blockLen := rfl
@[simp] theorem raise_blockCount (c : ErrCause) (i : Word) (s : State) : (raise c i s).blockCount = s.blockCount := rfl
@[simp] theorem raise_fsL (c : ErrCause) (i : Word) (s : State) : (raise c i s).fsL = s.fsL := rfl
@[simp] theorem raise_maxBlkL (c : ErrCause) (i : Word) (s : State) : (raise c i s).maxBlkL = s.maxBlkL := rfl
@[simp] theorem raise_lenL (c : ErrCause) (i : Word) (s : State) : (raise c i s).lenL = s.lenL := rfl
@[simp] theorem raise_regs (c : ErrCause) (i : Word) (s : State) : (raise c i s).regs = s.regs := rfl
@[simp] theorem raise_snap (c : ErrCause) (i : Word) (s : State) : (raise c i s).snap = s.snap := rfl
@[simp] theorem raise_lcActive (c : ErrCause) (i : Word) (s : State) : (raise c i s).lcActive = s.lcActive := rfl
@[simp] theorem raise_hcActive (c : ErrCause) (i : Word) (s : State) : (raise c i s).hcActive = s.hcActive := rfl
@[simp] theorem raise_coefs (c : ErrCause) (i : Word) (s : State) : (raise c i s).coefs = s.coefs := rfl
@[simp] theorem raise_histLeft (c : ErrCause) (i : Word) (s : State) : (raise c i s).histLeft = s.histLeft := rfl
@[simp] theorem raise_histRight (c : ErrCause) (i : Word) (s : State) : (raise c i s).histRight = s.histRight := rfl
@[simp] theorem raise_mem (c : ErrCause) (i : Word) (s : State) : (raise c i s).mem = s.mem := rfl
@[simp] theorem raise_params (c : ErrCause) (i : Word) (s : State) : (raise c i s).params = s.params := rfl
@[simp] theorem raise_inputs (c : ErrCause) (i : Word) (s : State) : (raise c i s).inputs = s.inputs := rfl
@[simp] theorem raise_rdata (c : ErrCause) (i : Word) (s : State) : (raise c i s).rdata = s.rdata := rfl
@[simp] theorem raise_faults (c : ErrCause) (i : Word) (s : State) : (raise c i s).faults = s.faults ++ [c] := rfl
@[simp] theorem raise_resets (c : ErrCause) (i : Word) (s : State) : (raise c i s).resets = s.resets := rfl

/-! ### `statusWrite` -/

@[simp] theorem statusWrite_seq (v : Word) (s : State) : (statusWrite v s).seq = s.seq := rfl
@[simp] theorem statusWrite_done (v : Word) (s : State) : (statusWrite v s).done = (s.done && !(v.getLsbD 2)) := rfl
@[simp] theorem statusWrite_errs (v : Word) (s : State) : (statusWrite v s).errs = s.errs &&& ~~~(v.extractLsb' 8 7) := rfl
@[simp] theorem statusWrite_firstErr (v : Word) (s : State) : (statusWrite v s).firstErr = if s.errs &&& ~~~(v.extractLsb' 8 7) = 0#7 then 0#4 else s.firstErr := rfl
@[simp] theorem statusWrite_errInfo (v : Word) (s : State) : (statusWrite v s).errInfo = s.errInfo := rfl
@[simp] theorem statusWrite_intEn (v : Word) (s : State) : (statusWrite v s).intEn = s.intEn := rfl
@[simp] theorem statusWrite_sampleRate (v : Word) (s : State) : (statusWrite v s).sampleRate = s.sampleRate := rfl
@[simp] theorem statusWrite_maxBlock (v : Word) (s : State) : (statusWrite v s).maxBlock = s.maxBlock := rfl
@[simp] theorem statusWrite_blockLen (v : Word) (s : State) : (statusWrite v s).blockLen = s.blockLen := rfl
@[simp] theorem statusWrite_blockCount (v : Word) (s : State) : (statusWrite v s).blockCount = s.blockCount := rfl
@[simp] theorem statusWrite_fsL (v : Word) (s : State) : (statusWrite v s).fsL = s.fsL := rfl
@[simp] theorem statusWrite_maxBlkL (v : Word) (s : State) : (statusWrite v s).maxBlkL = s.maxBlkL := rfl
@[simp] theorem statusWrite_lenL (v : Word) (s : State) : (statusWrite v s).lenL = s.lenL := rfl
@[simp] theorem statusWrite_regs (v : Word) (s : State) : (statusWrite v s).regs = s.regs := rfl
@[simp] theorem statusWrite_snap (v : Word) (s : State) : (statusWrite v s).snap = s.snap := rfl
@[simp] theorem statusWrite_lcActive (v : Word) (s : State) : (statusWrite v s).lcActive = s.lcActive := rfl
@[simp] theorem statusWrite_hcActive (v : Word) (s : State) : (statusWrite v s).hcActive = s.hcActive := rfl
@[simp] theorem statusWrite_coefs (v : Word) (s : State) : (statusWrite v s).coefs = s.coefs := rfl
@[simp] theorem statusWrite_histLeft (v : Word) (s : State) : (statusWrite v s).histLeft = s.histLeft := rfl
@[simp] theorem statusWrite_histRight (v : Word) (s : State) : (statusWrite v s).histRight = s.histRight := rfl
@[simp] theorem statusWrite_mem (v : Word) (s : State) : (statusWrite v s).mem = s.mem := rfl
@[simp] theorem statusWrite_params (v : Word) (s : State) : (statusWrite v s).params = s.params := rfl
@[simp] theorem statusWrite_inputs (v : Word) (s : State) : (statusWrite v s).inputs = s.inputs := rfl
@[simp] theorem statusWrite_rdata (v : Word) (s : State) : (statusWrite v s).rdata = s.rdata := rfl
@[simp] theorem statusWrite_faults (v : Word) (s : State) : (statusWrite v s).faults = s.faults := rfl
@[simp] theorem statusWrite_resets (v : Word) (s : State) : (statusWrite v s).resets = s.resets := rfl

/-! ### `prepareStream` -/

@[simp] theorem prepareStream_seq (s : State) : (prepareStream s).seq = .ready := rfl
@[simp] theorem prepareStream_done (s : State) : (prepareStream s).done = s.done := rfl
@[simp] theorem prepareStream_errs (s : State) : (prepareStream s).errs = s.errs := rfl
@[simp] theorem prepareStream_firstErr (s : State) : (prepareStream s).firstErr = s.firstErr := rfl
@[simp] theorem prepareStream_errInfo (s : State) : (prepareStream s).errInfo = s.errInfo := rfl
@[simp] theorem prepareStream_intEn (s : State) : (prepareStream s).intEn = s.intEn := rfl
@[simp] theorem prepareStream_sampleRate (s : State) : (prepareStream s).sampleRate = s.sampleRate := rfl
@[simp] theorem prepareStream_maxBlock (s : State) : (prepareStream s).maxBlock = s.maxBlock := rfl
@[simp] theorem prepareStream_blockLen (s : State) : (prepareStream s).blockLen = s.blockLen := rfl
@[simp] theorem prepareStream_blockCount (s : State) : (prepareStream s).blockCount = 0#32 := rfl
@[simp] theorem prepareStream_fsL (s : State) : (prepareStream s).fsL = s.sampleRate := rfl
@[simp] theorem prepareStream_maxBlkL (s : State) : (prepareStream s).maxBlkL = s.maxBlock := rfl
@[simp] theorem prepareStream_lenL (s : State) : (prepareStream s).lenL = s.lenL := rfl
@[simp] theorem prepareStream_regs (s : State) : (prepareStream s).regs = s.regs := rfl
@[simp] theorem prepareStream_snap (s : State) : (prepareStream s).snap = s.snap := rfl
@[simp] theorem prepareStream_lcActive (s : State) : (prepareStream s).lcActive = 0#3 := rfl
@[simp] theorem prepareStream_hcActive (s : State) : (prepareStream s).hcActive = 0#3 := rfl
@[simp] theorem prepareStream_coefs (s : State) : (prepareStream s).coefs = CoefBank.identity := rfl
@[simp] theorem prepareStream_histLeft (s : State) : (prepareStream s).histLeft = HistFile.zero := rfl
@[simp] theorem prepareStream_histRight (s : State) : (prepareStream s).histRight = HistFile.zero := rfl
@[simp] theorem prepareStream_mem (s : State) : (prepareStream s).mem = s.mem := rfl
@[simp] theorem prepareStream_params (s : State) : (prepareStream s).params = s.params := rfl
@[simp] theorem prepareStream_inputs (s : State) : (prepareStream s).inputs = s.inputs := rfl
@[simp] theorem prepareStream_rdata (s : State) : (prepareStream s).rdata = s.rdata := rfl
@[simp] theorem prepareStream_faults (s : State) : (prepareStream s).faults = s.faults := rfl
@[simp] theorem prepareStream_resets (s : State) : (prepareStream s).resets = s.resets := rfl

/-! ### `releaseBody` -/

@[simp] theorem releaseBody_seq (s : State) : (releaseBody s).seq = .unprepared := rfl
@[simp] theorem releaseBody_done (s : State) : (releaseBody s).done = s.done := rfl
@[simp] theorem releaseBody_errs (s : State) : (releaseBody s).errs = s.errs := rfl
@[simp] theorem releaseBody_firstErr (s : State) : (releaseBody s).firstErr = s.firstErr := rfl
@[simp] theorem releaseBody_errInfo (s : State) : (releaseBody s).errInfo = s.errInfo := rfl
@[simp] theorem releaseBody_intEn (s : State) : (releaseBody s).intEn = s.intEn := rfl
@[simp] theorem releaseBody_sampleRate (s : State) : (releaseBody s).sampleRate = s.sampleRate := rfl
@[simp] theorem releaseBody_maxBlock (s : State) : (releaseBody s).maxBlock = s.maxBlock := rfl
@[simp] theorem releaseBody_blockLen (s : State) : (releaseBody s).blockLen = s.blockLen := rfl
@[simp] theorem releaseBody_blockCount (s : State) : (releaseBody s).blockCount = s.blockCount := rfl
@[simp] theorem releaseBody_fsL (s : State) : (releaseBody s).fsL = s.fsL := rfl
@[simp] theorem releaseBody_maxBlkL (s : State) : (releaseBody s).maxBlkL = s.maxBlkL := rfl
@[simp] theorem releaseBody_lenL (s : State) : (releaseBody s).lenL = s.lenL := rfl
@[simp] theorem releaseBody_regs (s : State) : (releaseBody s).regs = s.regs := rfl
@[simp] theorem releaseBody_snap (s : State) : (releaseBody s).snap = s.snap := rfl
@[simp] theorem releaseBody_lcActive (s : State) : (releaseBody s).lcActive = s.lcActive := rfl
@[simp] theorem releaseBody_hcActive (s : State) : (releaseBody s).hcActive = s.hcActive := rfl
@[simp] theorem releaseBody_coefs (s : State) : (releaseBody s).coefs = s.coefs := rfl
@[simp] theorem releaseBody_histLeft (s : State) : (releaseBody s).histLeft = s.histLeft := rfl
@[simp] theorem releaseBody_histRight (s : State) : (releaseBody s).histRight = s.histRight := rfl
@[simp] theorem releaseBody_mem (s : State) : (releaseBody s).mem = s.mem := rfl
@[simp] theorem releaseBody_params (s : State) : (releaseBody s).params = s.params := rfl
@[simp] theorem releaseBody_inputs (s : State) : (releaseBody s).inputs = s.inputs := rfl
@[simp] theorem releaseBody_rdata (s : State) : (releaseBody s).rdata = s.rdata := rfl
@[simp] theorem releaseBody_faults (s : State) : (releaseBody s).faults = s.faults := rfl
@[simp] theorem releaseBody_resets (s : State) : (releaseBody s).resets = s.resets := rfl

/-! ### `latchOperands` -/

@[simp] theorem latchOperands_seq (s : State) : (latchOperands s).seq = s.seq := rfl
@[simp] theorem latchOperands_done (s : State) : (latchOperands s).done = s.done := rfl
@[simp] theorem latchOperands_errs (s : State) : (latchOperands s).errs = s.errs := rfl
@[simp] theorem latchOperands_firstErr (s : State) : (latchOperands s).firstErr = s.firstErr := rfl
@[simp] theorem latchOperands_errInfo (s : State) : (latchOperands s).errInfo = s.errInfo := rfl
@[simp] theorem latchOperands_intEn (s : State) : (latchOperands s).intEn = s.intEn := rfl
@[simp] theorem latchOperands_sampleRate (s : State) : (latchOperands s).sampleRate = s.sampleRate := rfl
@[simp] theorem latchOperands_maxBlock (s : State) : (latchOperands s).maxBlock = s.maxBlock := rfl
@[simp] theorem latchOperands_blockLen (s : State) : (latchOperands s).blockLen = s.blockLen := rfl
@[simp] theorem latchOperands_blockCount (s : State) : (latchOperands s).blockCount = s.blockCount := rfl
@[simp] theorem latchOperands_fsL (s : State) : (latchOperands s).fsL = s.fsL := rfl
@[simp] theorem latchOperands_maxBlkL (s : State) : (latchOperands s).maxBlkL = s.maxBlkL := rfl
@[simp] theorem latchOperands_lenL (s : State) : (latchOperands s).lenL = s.blockLen := rfl
@[simp] theorem latchOperands_regs (s : State) : (latchOperands s).regs = s.regs := rfl
@[simp] theorem latchOperands_snap (s : State) : (latchOperands s).snap = s.regs := rfl
@[simp] theorem latchOperands_lcActive (s : State) : (latchOperands s).lcActive = s.lcActive := rfl
@[simp] theorem latchOperands_hcActive (s : State) : (latchOperands s).hcActive = s.hcActive := rfl
@[simp] theorem latchOperands_coefs (s : State) : (latchOperands s).coefs = s.coefs := rfl
@[simp] theorem latchOperands_histLeft (s : State) : (latchOperands s).histLeft = s.histLeft := rfl
@[simp] theorem latchOperands_histRight (s : State) : (latchOperands s).histRight = s.histRight := rfl
@[simp] theorem latchOperands_mem (s : State) : (latchOperands s).mem = s.mem := rfl
@[simp] theorem latchOperands_params (s : State) : (latchOperands s).params = s.params := rfl
@[simp] theorem latchOperands_inputs (s : State) : (latchOperands s).inputs = s.inputs := rfl
@[simp] theorem latchOperands_rdata (s : State) : (latchOperands s).rdata = s.rdata := rfl
@[simp] theorem latchOperands_faults (s : State) : (latchOperands s).faults = s.faults := rfl
@[simp] theorem latchOperands_resets (s : State) : (latchOperands s).resets = s.resets := rfl

/-! ### `endJob` -/

@[simp] theorem endJob_seq (s : State) : (endJob s).seq = .ready := rfl
@[simp] theorem endJob_done (s : State) : (endJob s).done = true := rfl
@[simp] theorem endJob_errs (s : State) : (endJob s).errs = s.errs := rfl
@[simp] theorem endJob_firstErr (s : State) : (endJob s).firstErr = s.firstErr := rfl
@[simp] theorem endJob_errInfo (s : State) : (endJob s).errInfo = s.errInfo := rfl
@[simp] theorem endJob_intEn (s : State) : (endJob s).intEn = s.intEn := rfl
@[simp] theorem endJob_sampleRate (s : State) : (endJob s).sampleRate = s.sampleRate := rfl
@[simp] theorem endJob_maxBlock (s : State) : (endJob s).maxBlock = s.maxBlock := rfl
@[simp] theorem endJob_blockLen (s : State) : (endJob s).blockLen = s.blockLen := rfl
@[simp] theorem endJob_blockCount (s : State) : (endJob s).blockCount = s.blockCount := rfl
@[simp] theorem endJob_fsL (s : State) : (endJob s).fsL = s.fsL := rfl
@[simp] theorem endJob_maxBlkL (s : State) : (endJob s).maxBlkL = s.maxBlkL := rfl
@[simp] theorem endJob_lenL (s : State) : (endJob s).lenL = s.lenL := rfl
@[simp] theorem endJob_regs (s : State) : (endJob s).regs = s.regs := rfl
@[simp] theorem endJob_snap (s : State) : (endJob s).snap = s.snap := rfl
@[simp] theorem endJob_lcActive (s : State) : (endJob s).lcActive = s.lcActive := rfl
@[simp] theorem endJob_hcActive (s : State) : (endJob s).hcActive = s.hcActive := rfl
@[simp] theorem endJob_coefs (s : State) : (endJob s).coefs = s.coefs := rfl
@[simp] theorem endJob_histLeft (s : State) : (endJob s).histLeft = s.histLeft := rfl
@[simp] theorem endJob_histRight (s : State) : (endJob s).histRight = s.histRight := rfl
@[simp] theorem endJob_mem (s : State) : (endJob s).mem = s.mem := rfl
@[simp] theorem endJob_params (s : State) : (endJob s).params = s.params := rfl
@[simp] theorem endJob_inputs (s : State) : (endJob s).inputs = s.inputs := rfl
@[simp] theorem endJob_rdata (s : State) : (endJob s).rdata = s.rdata := rfl
@[simp] theorem endJob_faults (s : State) : (endJob s).faults = s.faults := rfl
@[simp] theorem endJob_resets (s : State) : (endJob s).resets = s.resets := rfl

/-! ### `streamBlock` -/

@[simp] theorem streamBlock_seq (s : State) : (streamBlock s).seq = s.seq := rfl
@[simp] theorem streamBlock_done (s : State) : (streamBlock s).done = s.done := rfl
@[simp] theorem streamBlock_errs (s : State) : (streamBlock s).errs = s.errs := rfl
@[simp] theorem streamBlock_firstErr (s : State) : (streamBlock s).firstErr = s.firstErr := rfl
@[simp] theorem streamBlock_errInfo (s : State) : (streamBlock s).errInfo = s.errInfo := rfl
@[simp] theorem streamBlock_intEn (s : State) : (streamBlock s).intEn = s.intEn := rfl
@[simp] theorem streamBlock_sampleRate (s : State) : (streamBlock s).sampleRate = s.sampleRate := rfl
@[simp] theorem streamBlock_maxBlock (s : State) : (streamBlock s).maxBlock = s.maxBlock := rfl
@[simp] theorem streamBlock_blockLen (s : State) : (streamBlock s).blockLen = s.blockLen := rfl
@[simp] theorem streamBlock_blockCount (s : State) : (streamBlock s).blockCount = s.blockCount := rfl
@[simp] theorem streamBlock_fsL (s : State) : (streamBlock s).fsL = s.fsL := rfl
@[simp] theorem streamBlock_maxBlkL (s : State) : (streamBlock s).maxBlkL = s.maxBlkL := rfl
@[simp] theorem streamBlock_lenL (s : State) : (streamBlock s).lenL = s.lenL := rfl
@[simp] theorem streamBlock_regs (s : State) : (streamBlock s).regs = s.regs := rfl
@[simp] theorem streamBlock_snap (s : State) : (streamBlock s).snap = s.snap := rfl
@[simp] theorem streamBlock_lcActive (s : State) : (streamBlock s).lcActive = s.lcActive := rfl
@[simp] theorem streamBlock_hcActive (s : State) : (streamBlock s).hcActive = s.hcActive := rfl
@[simp] theorem streamBlock_coefs (s : State) : (streamBlock s).coefs = s.coefs := rfl
@[simp] theorem streamBlock_params (s : State) : (streamBlock s).params = s.params := rfl
@[simp] theorem streamBlock_inputs (s : State) : (streamBlock s).inputs = s.inputs := rfl
@[simp] theorem streamBlock_rdata (s : State) : (streamBlock s).rdata = s.rdata := rfl
@[simp] theorem streamBlock_faults (s : State) : (streamBlock s).faults = s.faults := rfl
@[simp] theorem streamBlock_resets (s : State) : (streamBlock s).resets = s.resets := rfl

/-! ### `commit` -/

@[simp] theorem commit_seq (k : FactorySets) (s : State) : (commit k s).seq = s.seq := rfl
@[simp] theorem commit_done (k : FactorySets) (s : State) : (commit k s).done = s.done := rfl
@[simp] theorem commit_errs (k : FactorySets) (s : State) : (commit k s).errs = s.errs := rfl
@[simp] theorem commit_firstErr (k : FactorySets) (s : State) : (commit k s).firstErr = s.firstErr := rfl
@[simp] theorem commit_errInfo (k : FactorySets) (s : State) : (commit k s).errInfo = s.errInfo := rfl
@[simp] theorem commit_intEn (k : FactorySets) (s : State) : (commit k s).intEn = s.intEn := rfl
@[simp] theorem commit_sampleRate (k : FactorySets) (s : State) : (commit k s).sampleRate = s.sampleRate := rfl
@[simp] theorem commit_maxBlock (k : FactorySets) (s : State) : (commit k s).maxBlock = s.maxBlock := rfl
@[simp] theorem commit_blockLen (k : FactorySets) (s : State) : (commit k s).blockLen = s.blockLen := rfl
@[simp] theorem commit_blockCount (k : FactorySets) (s : State) : (commit k s).blockCount = s.blockCount + 1#32 := rfl
@[simp] theorem commit_fsL (k : FactorySets) (s : State) : (commit k s).fsL = s.fsL := rfl
@[simp] theorem commit_maxBlkL (k : FactorySets) (s : State) : (commit k s).maxBlkL = s.maxBlkL := rfl
@[simp] theorem commit_lenL (k : FactorySets) (s : State) : (commit k s).lenL = s.lenL := rfl
@[simp] theorem commit_regs (k : FactorySets) (s : State) : (commit k s).regs = s.regs := rfl
@[simp] theorem commit_snap (k : FactorySets) (s : State) : (commit k s).snap = s.snap := rfl
@[simp] theorem commit_lcActive (k : FactorySets) (s : State) : (commit k s).lcActive = BitVec.ofNat 3 (slopeSections s.snap.lowCutSlope) := rfl
@[simp] theorem commit_hcActive (k : FactorySets) (s : State) : (commit k s).hcActive = BitVec.ofNat 3 (slopeSections s.snap.highCutSlope) := rfl
@[simp] theorem commit_histLeft (k : FactorySets) (s : State) : (commit k s).histLeft = s.histLeft := rfl
@[simp] theorem commit_histRight (k : FactorySets) (s : State) : (commit k s).histRight = s.histRight := rfl
@[simp] theorem commit_mem (k : FactorySets) (s : State) : (commit k s).mem = s.mem := rfl
@[simp] theorem commit_params (k : FactorySets) (s : State) : (commit k s).params = s.params := rfl
@[simp] theorem commit_inputs (k : FactorySets) (s : State) : (commit k s).inputs = s.inputs := rfl
@[simp] theorem commit_rdata (k : FactorySets) (s : State) : (commit k s).rdata = s.rdata := rfl
@[simp] theorem commit_faults (k : FactorySets) (s : State) : (commit k s).faults = s.faults := rfl
@[simp] theorem commit_resets (k : FactorySets) (s : State) : (commit k s).resets = s.resets := rfl

/-! ### `resetStep` -/

@[simp] theorem resetStep_seq (s : State) : (resetStep s).seq = (State.powerOn s.params).seq := rfl
@[simp] theorem resetStep_done (s : State) : (resetStep s).done = (State.powerOn s.params).done := rfl
@[simp] theorem resetStep_errs (s : State) : (resetStep s).errs = (State.powerOn s.params).errs := rfl
@[simp] theorem resetStep_firstErr (s : State) : (resetStep s).firstErr = (State.powerOn s.params).firstErr := rfl
@[simp] theorem resetStep_errInfo (s : State) : (resetStep s).errInfo = (State.powerOn s.params).errInfo := rfl
@[simp] theorem resetStep_intEn (s : State) : (resetStep s).intEn = (State.powerOn s.params).intEn := rfl
@[simp] theorem resetStep_sampleRate (s : State) : (resetStep s).sampleRate = (State.powerOn s.params).sampleRate := rfl
@[simp] theorem resetStep_maxBlock (s : State) : (resetStep s).maxBlock = (State.powerOn s.params).maxBlock := rfl
@[simp] theorem resetStep_blockLen (s : State) : (resetStep s).blockLen = (State.powerOn s.params).blockLen := rfl
@[simp] theorem resetStep_blockCount (s : State) : (resetStep s).blockCount = (State.powerOn s.params).blockCount := rfl
@[simp] theorem resetStep_fsL (s : State) : (resetStep s).fsL = (State.powerOn s.params).fsL := rfl
@[simp] theorem resetStep_maxBlkL (s : State) : (resetStep s).maxBlkL = (State.powerOn s.params).maxBlkL := rfl
@[simp] theorem resetStep_lenL (s : State) : (resetStep s).lenL = (State.powerOn s.params).lenL := rfl
@[simp] theorem resetStep_regs (s : State) : (resetStep s).regs = (State.powerOn s.params).regs := rfl
@[simp] theorem resetStep_snap (s : State) : (resetStep s).snap = (State.powerOn s.params).snap := rfl
@[simp] theorem resetStep_lcActive (s : State) : (resetStep s).lcActive = (State.powerOn s.params).lcActive := rfl
@[simp] theorem resetStep_hcActive (s : State) : (resetStep s).hcActive = (State.powerOn s.params).hcActive := rfl
@[simp] theorem resetStep_coefs (s : State) : (resetStep s).coefs = (State.powerOn s.params).coefs := rfl
@[simp] theorem resetStep_histLeft (s : State) : (resetStep s).histLeft = (State.powerOn s.params).histLeft := rfl
@[simp] theorem resetStep_histRight (s : State) : (resetStep s).histRight = (State.powerOn s.params).histRight := rfl
@[simp] theorem resetStep_mem (s : State) : (resetStep s).mem = (State.powerOn s.params).mem := rfl
@[simp] theorem resetStep_params (s : State) : (resetStep s).params = s.params := rfl
@[simp] theorem resetStep_inputs (s : State) : (resetStep s).inputs = s.inputs := rfl
@[simp] theorem resetStep_rdata (s : State) : (resetStep s).rdata = (State.powerOn s.params).rdata := rfl
@[simp] theorem resetStep_faults (s : State) : (resetStep s).faults = s.faults := rfl
@[simp] theorem resetStep_resets (s : State) : (resetStep s).resets = s.resets + 1 := rfl

/-! ### `begin` -/

@[simp] theorem begin_seq (s : State) (rest : List Input) : (s.begin rest).seq = s.seq := rfl
@[simp] theorem begin_done (s : State) (rest : List Input) : (s.begin rest).done = s.done := rfl
@[simp] theorem begin_errs (s : State) (rest : List Input) : (s.begin rest).errs = s.errs := rfl
@[simp] theorem begin_firstErr (s : State) (rest : List Input) : (s.begin rest).firstErr = s.firstErr := rfl
@[simp] theorem begin_errInfo (s : State) (rest : List Input) : (s.begin rest).errInfo = s.errInfo := rfl
@[simp] theorem begin_intEn (s : State) (rest : List Input) : (s.begin rest).intEn = s.intEn := rfl
@[simp] theorem begin_sampleRate (s : State) (rest : List Input) : (s.begin rest).sampleRate = s.sampleRate := rfl
@[simp] theorem begin_maxBlock (s : State) (rest : List Input) : (s.begin rest).maxBlock = s.maxBlock := rfl
@[simp] theorem begin_blockLen (s : State) (rest : List Input) : (s.begin rest).blockLen = s.blockLen := rfl
@[simp] theorem begin_blockCount (s : State) (rest : List Input) : (s.begin rest).blockCount = s.blockCount := rfl
@[simp] theorem begin_fsL (s : State) (rest : List Input) : (s.begin rest).fsL = s.fsL := rfl
@[simp] theorem begin_maxBlkL (s : State) (rest : List Input) : (s.begin rest).maxBlkL = s.maxBlkL := rfl
@[simp] theorem begin_lenL (s : State) (rest : List Input) : (s.begin rest).lenL = s.lenL := rfl
@[simp] theorem begin_regs (s : State) (rest : List Input) : (s.begin rest).regs = s.regs := rfl
@[simp] theorem begin_snap (s : State) (rest : List Input) : (s.begin rest).snap = s.snap := rfl
@[simp] theorem begin_lcActive (s : State) (rest : List Input) : (s.begin rest).lcActive = s.lcActive := rfl
@[simp] theorem begin_hcActive (s : State) (rest : List Input) : (s.begin rest).hcActive = s.hcActive := rfl
@[simp] theorem begin_coefs (s : State) (rest : List Input) : (s.begin rest).coefs = s.coefs := rfl
@[simp] theorem begin_histLeft (s : State) (rest : List Input) : (s.begin rest).histLeft = s.histLeft := rfl
@[simp] theorem begin_histRight (s : State) (rest : List Input) : (s.begin rest).histRight = s.histRight := rfl
@[simp] theorem begin_mem (s : State) (rest : List Input) : (s.begin rest).mem = s.mem := rfl
@[simp] theorem begin_params (s : State) (rest : List Input) : (s.begin rest).params = s.params := rfl
@[simp] theorem begin_inputs (s : State) (rest : List Input) : (s.begin rest).inputs = rest := rfl
@[simp] theorem begin_rdata (s : State) (rest : List Input) : (s.begin rest).rdata = none := rfl
@[simp] theorem begin_faults (s : State) (rest : List Input) : (s.begin rest).faults = s.faults := rfl
@[simp] theorem begin_resets (s : State) (rest : List Input) : (s.begin rest).resets = s.resets := rfl

end Sys2Proof.Machine
end

