-- ==== Sys2Proof/Laws/Commands.lean ====
section
/-! SUPPORT. Everything a command can do (44_processor.md R191 to R200), said once. -/

namespace Sys2Proof.Machine

/-- What an accepted PROCESS leaves. -/
def processAccepted (s : State) : State := { latchOperands s with seq := .busy }

theorem unlessBusy_of_busy {s : State} (h : s.seq = .busy) (opc : Word) (run : State → State) :
    unlessBusy opc run s = raise .busy opc s := by simp [unlessBusy, h]

theorem unlessBusy_of_not_busy {s : State} (h : s.seq ≠ .busy) (opc : Word) (run : State → State) :
    unlessBusy opc run s = run s := by simp [unlessBusy, h]

/-- The state an issued command leaves: nothing changed, one error raised, or the one effect of an accepted command. -/
inductive CommandEffect (i : Instr) (s : State) : State → Prop where
  | none (h : i = .nop) : CommandEffect i s s
  | refused (c : ErrCause) (info : Word) (h : i ≠ .nop) : CommandEffect i s (raise c info s)
  | prepared (hi : i = .prepare) (hb : s.seq ≠ .busy) (ho : prepareOk s = true) : CommandEffect i s (prepareStream s)
  | released (hi : i = .release) (hb : s.seq ≠ .busy) : CommandEffect i s (releaseBody s)
  | accepted (hi : i = .process) (hr : s.seq = .ready) (hl : processLenOk s = true) :
      CommandEffect i s (processAccepted s)

/-- A command answers a next state, and it is one of the effects. -/
theorem exec_effect (i : Instr) (s : State) : ∃ t, exec i s = .next t ∧ CommandEffect i s t := by
  cases i with
  | nop => exact ⟨s, rfl, .none rfl⟩
  | prepare =>
    refine ⟨_, rfl, ?_⟩
    unfold unlessBusy prepareBody
    split
    · exact .refused _ _ (by decide)
    · split
      · exact .prepared rfl (by assumption) (by assumption)
      · exact .refused _ _ (by decide)
  | release =>
    refine ⟨_, rfl, ?_⟩
    unfold unlessBusy
    split
    · exact .refused _ _ (by decide)
    · exact .released rfl (by assumption)
  | process =>
    refine ⟨_, rfl, ?_⟩
    unfold unlessBusy processBody
    split
    · exact .refused _ _ (by decide)
    · rename_i hb
      split
      · exact .refused _ _ (by decide)
      · rename_i hu
        split
        · exact .refused _ _ (by decide)
        · rename_i hl
          refine .accepted rfl ?_ (by simpa using hl)
          cases hs : s.seq <;> simp_all

theorem effect_of_exec {i : Instr} {s t : State} (h : exec i s = .next t) : CommandEffect i s t := by
  obtain ⟨t', h', e⟩ := exec_effect i s
  rw [h] at h'
  cases h'
  exact e

end Sys2Proof.Machine
end

