-- ==== Sys2Proof/Laws/Map.lean ====
section
/-! SUPPORT. The address map (20_memory.md R84): each register has an offset of its own below 0x100, and what an offset names. -/

namespace Sys2Proof.Machine

theorem Reg.offset_toNat_lt (r : Reg) : r.offset.toNat < 0x100 := by cases r <;> decide

theorem Reg.ofOffset_offset (r : Reg) : Reg.ofOffset r.offset = some r := by cases r <;> decide

/-- An offset names a register exactly if it is the register's own. -/
theorem Reg.ofOffset_eq_some {off : Word} {r : Reg} : Reg.ofOffset off = some r ↔ off = r.offset := by
  constructor
  · intro h
    have := List.find?_some h
    exact (beq_iff_eq.1 this).symm
  · rintro rfl
    exact Reg.ofOffset_offset r

theorem Reg.ofOffset_none_of_ge {off : Word} (h : 0x100 ≤ off.toNat) : Reg.ofOffset off = none := by
  rcases hr : Reg.ofOffset off with _ | r
  · rfl
  · have := r.offset_toNat_lt
    rw [Reg.ofOffset_eq_some.1 hr] at h
    omega

theorem regionOf_register (n : ℕ) (r : Reg) : regionOf n r.offset = .register r := by
  simp [regionOf, Reg.ofOffset_offset]

theorem regionOf_eq_register {n : ℕ} {off : Word} {r : Reg} : regionOf n off = .register r ↔ off = r.offset := by
  constructor
  · intro h
    unfold regionOf at h
    split at h
    · rename_i r' hr
      simp only [Region.register.injEq] at h
      subst h
      exact Reg.ofOffset_eq_some.1 hr
    · dsimp only at h
      repeat' split at h
      all_goals first | cases h | (unfold bufferRegion at h; dsimp only at h; split at h <;> cases h)
  · rintro rfl
    exact regionOf_register n r

/-- What an offset above the registers names. -/
theorem regionOf_of_ge {off : Word} (n : ℕ) (h : 0x100 ≤ off.toNat) :
    regionOf n off =
      if off.toNat < 0x220 then .coefWindow
      else if 0x400 ≤ off.toNat ∧ off.toNat < 0x600 then .histWindow
      else if off.toNat < 0x1000 then .reserved
      else if 0x10000 ≤ off.toNat ∧ off.toNat < 0x30000 then bufferRegion n off.toNat
      else .unmapped := by
  unfold regionOf
  rw [Reg.ofOffset_none_of_ge h]
  simp [h]

theorem bufAddr_lt {ch : Channel} {i : ℕ} (hi : i < 16384) : 0x10000 ≤ bufAddr ch i ∧ bufAddr ch i < 0x30000 := by
  cases ch <;> simp [bufAddr, Channel.bufBase] <;> omega

theorem bufferRegion_bufAddr {n i : ℕ} (ch : Channel) (hi : i < n) (hn : n ≤ 16384) :
    bufferRegion n (bufAddr ch i) = .buffer ch i := by
  have h1 : bufAddr ch i % 0x10000 / 4 = i := by cases ch <;> simp only [bufAddr, Channel.bufBase] <;> omega
  have h2 : (if bufAddr ch i < 0x20000 then Channel.left else .right) = ch := by
    cases ch
    · exact if_pos (by simp only [bufAddr, Channel.bufBase]; omega)
    · exact if_neg (by simp only [bufAddr, Channel.bufBase]; omega)
  simp only [bufferRegion, h1, h2, if_pos hi]

/-- The offset of a sample word names that sample word. -/
theorem regionOf_buffer {n i : ℕ} (ch : Channel) (hi : i < n) (hn : n ≤ 16384) :
    regionOf n (BitVec.ofNat 32 (bufAddr ch i)) = .buffer ch i := by
  obtain ⟨h1, h2⟩ := bufAddr_lt (ch := ch) (show i < 16384 by omega)
  have e : (BitVec.ofNat 32 (bufAddr ch i)).toNat = bufAddr ch i := by
    rw [BitVec.toNat_ofNat]
    exact Nat.mod_eq_of_lt (by omega)
  rw [regionOf_of_ge n (by omega), e, if_neg (by omega), if_neg (by omega), if_neg (by omega), if_pos ⟨h1, h2⟩,
    bufferRegion_bufAddr ch hi hn]

/-- A buffer word that an offset names is below BUF_FRAMES. -/
theorem lt_of_regionOf_buffer {n : ℕ} {off : Word} {ch : Channel} {i : ℕ} (h : regionOf n off = .buffer ch i) : i < n := by
  unfold regionOf at h
  split at h
  · cases h
  · dsimp only at h
    repeat' split at h
    all_goals first | cases h | skip
    unfold bufferRegion at h
    dsimp only at h
    split at h
    · cases h
      assumption
    · cases h

end Sys2Proof.Machine
end

