-- ==== Sys2Proof/Laws/Bus.lean ====
section
/-! SUPPORT. Everything a transaction and a step can do (20_memory.md R70 to R85), said once. -/

namespace Sys2Proof.Machine

/-- A legal read changes nothing, or raises ERR_ACCESS and reads 0 (20_memory.md R83). -/
theorem memRead_effect (off : Word) (s : State) :
    (memRead off s).2 = s ∨ memRead off s = (0#32, raise .access off s) := by
  unfold memRead
  split <;> (try split) <;> simp

/-- The state a legal write to a place other than CMD leaves. -/
inductive StoreEffect (off v : Word) (s : State) : State → Prop where
  | none : StoreEffect off v s s
  | refused : StoreEffect off v s (raise .access off s)
  | register (r : Reg) (h : off = r.offset) : StoreEffect off v s (regWrite v s r)
  | buffer (ch : Channel) (i : ℕ) (hi : i < s.params.bufFrames) (hb : s.seq ≠ .busy) :
      StoreEffect off v s { s with mem := bufWrite s.mem ch i v }

theorem memStore_effect (off v : Word) (s : State) : StoreEffect off v s (memStore off v s) := by
  unfold memStore
  split
  · rename_i r h
    exact .register r (regionOf_eq_register.1 h)
  · split
    · exact .refused
    · exact .none
  · split
    · exact .refused
    · exact .none
  · exact .none
  · rename_i ch i h
    split
    · exact .refused
    · exact .buffer ch i (lt_of_regionOf_buffer h) (by assumption)
  · exact .refused

/-- The state one step leaves, from the state `b` in which the agent's step begins. -/
inductive StepEffect (b : State) : State → Prop where
  /-- A read that hands back `d`. -/
  | read (d : Word) : StepEffect b { b with rdata := some d }
  /-- A read refused with ERR_ACCESS. -/
  | readRefused (off : Word) : StepEffect b { raise .access off b with rdata := some 0#32 }
  /-- A write refused with ERR_ACCESS, or an illegal command word. -/
  | writeRefused (c : ErrCause) (info : Word) : StepEffect b (raise c info b)
  /-- A write to a place other than CMD. -/
  | store (off v : Word) (t : State) (h : StoreEffect off v b t) : StepEffect b t
  /-- A command written to CMD. -/
  | command (i : Instr) (t : State) (h : CommandEffect i b t) : StepEffect b t
  /-- The completion step of a pending job. -/
  | completion (h : b.seq = .busy) : StepEffect b (job b)
  /-- A sequencer turn with no job pending. -/
  | idle (h : b.seq ≠ .busy) : StepEffect b b
  /-- The reset step. -/
  | reset : StepEffect b (resetStep b)

theorem issueCommand_effect (v : Word) (b : State) : ∃ t, issueCommand v b = .next t ∧ StepEffect b t := by
  unfold issueCommand
  split
  · rename_i i _
    obtain ⟨t, h, e⟩ := exec_effect i b
    exact ⟨t, h, .command i t e⟩
  · exact ⟨_, rfl, .writeRefused _ _⟩

theorem busStep_effect (x : Txn) (b : State) : ∃ t, busStep x b = .next t ∧ StepEffect b t := by
  unfold busStep
  split
  · split
    · refine ⟨_, rfl, ?_⟩
      rcases memRead_effect x.off b with h | h
      · rw [h]
        exact .read _
      · rw [h]
        exact .readRefused _
    · exact ⟨_, rfl, .readRefused _⟩
  · split
    · unfold memWrite
      split
      · exact issueCommand_effect _ b
      · exact ⟨_, rfl, .store _ _ _ (memStore_effect _ _ b)⟩
    · exact ⟨_, rfl, .writeRefused _ _⟩

theorem sequencerStep_effect (b : State) : StepEffect b (sequencerStep b) := by
  unfold sequencerStep
  split
  · exact .completion (by assumption)
  · exact .idle (by assumption)

theorem inputStep_effect (x : Input) (b : State) : ∃ t, inputStep x b = .next t ∧ StepEffect b t := by
  cases x with
  | transaction t => exact busStep_effect t b
  | sequencerTurn => exact ⟨_, rfl, sequencerStep_effect b⟩
  | resetInput => exact ⟨_, rfl, .reset⟩

/-- A step answers a next state, and it is one of the effects from the state in which the step begins. -/
theorem step_effect (s : State) : ∃ t, step s = .next t ∧ StepEffect (s.begin s.inputs.tail) t := by
  unfold step nextStep
  split
  · rename_i h
    rw [h]
    exact ⟨_, rfl, sequencerStep_effect _⟩
  · rename_i i rest h
    rw [h]
    exact inputStep_effect i _

theorem effect_of_step {s t : State} (h : step s = .next t) : StepEffect (s.begin s.inputs.tail) t := by
  obtain ⟨t', h', e⟩ := step_effect s
  rw [h] at h'
  cases h'
  exact e

end Sys2Proof.Machine
end

