-- ==== Sys2Proof/Laws/Decode.lean ====
section
/-! SUPPORT. The fields of a command word as numbers, and the decoder's three answers (30_encoding.md R100 to R102). -/

namespace Sys2Proof

/-- The byte lanes of a word, put together, are the word (20_memory.md R81). -/
theorem wordOfBytes_lanes (v : Word) :
    wordOfBytes (byteLane v 0) (byteLane v 1) (byteLane v 2) (byteLane v 3) = v := by
  apply BitVec.eq_of_getLsbD_eq
  intro i hi
  simp only [wordOfBytes, byteLane, BitVec.getLsbD_append, BitVec.getLsbD_extractLsb']
  split
  · simp [*]
  · split
    · have h : 8 * 1 + (i - 8) = i := by omega
      simp [*]
    · split
      · have h : 8 * 2 + (i - 8 - 8) = i := by omega
        simp [*]
      · have h : 8 * 3 + (i - 8 - 8 - 8) = i := by omega
        have h4 : i - 8 - 8 - 8 < 8 := by omega
        rw [h]
        simp [h4]

theorem opcField_toNat (v : Word) : (opcField v).toNat = v.toNat % 16 := by
  simp [opcField, BitVec.extractLsb'_toNat]

theorem rsvField_toNat (v : Word) : (rsvField v).toNat = v.toNat / 16 := by
  have h := v.isLt
  simp only [rsvField, BitVec.extractLsb'_toNat, Nat.shiftRight_eq_div_pow]
  omega

/-- RSV is 0 exactly for the words below 16. -/
theorem rsvField_eq_zero_iff (v : Word) : rsvField v = 0#28 ↔ v.toNat < 16 := by
  rw [← BitVec.toNat_inj, rsvField_toNat]
  simp only [BitVec.toNat_ofNat]
  omega

theorem opcField_eq_iff (v : Word) (o : BitVec 4) : opcField v = o ↔ v.toNat % 16 = o.toNat := by
  rw [← BitVec.toNat_inj, opcField_toNat]

/-- What the decoder answers, by the word as a number. -/
theorem decode_spec (v : Word) :
    decode v = if 16 ≤ v.toNat then .error .reservedBits
      else if v.toNat = 0 then .ok .nop
      else if v.toNat = 1 then .ok .prepare
      else if v.toNat = 2 then .ok .release
      else if v.toNat = 3 then .ok .process
      else .error .reservedOpcode := by
  unfold decode decodeOpc
  simp only [rsvField_eq_zero_iff, opcField_eq_iff, BitVec.toNat_ofNat]
  by_cases h : v.toNat < 16
  · have e : v.toNat % 16 = v.toNat := Nat.mod_eq_of_lt h
    simp [h, e, not_le.2 h]
  · simp [h, not_lt.1 h]

/-- Four bytes that are a word's lanes decode as the word does. -/
theorem decodeBytes_lanes (v : Word) (rest : List Byte) :
    decodeBytes (byteLane v 0 :: byteLane v 1 :: byteLane v 2 :: byteLane v 3 :: rest) =
      match decode v with
      | .ok i => .ok (i, rest)
      | .error e => .error e :=
  congrArg (fun w => match decode w with
    | .ok i => Except.ok (i, rest)
    | .error e => .error e) (wordOfBytes_lanes v)

end Sys2Proof
end

