-- ==== Sys2Proof/Laws/Factory.lean ====
section
/-! SUPPORT. The factory's reference word is `rnd32` of the exact real value of the coefficient's formula, for every argument
(41_coefficient_factory.md R141). -/

namespace Sys2Proof.Machine

theorem settleWord_eq (a : CoefArgs) (ps : List ℕ) : settleWord a ps = rnd32Real (exactCoef a) := by
  induction ps with
  | nil => exact (searchWord a 8192).property
  | cons p ps ih =>
    unfold settleWord
    cases h : (coefFormula (enclOps p) a).settled p with
    | none => exact ih
    | some w => exact settled_eq_rnd32Real h

/-- The reference value of every coefficient is `rnd32(v)`. -/
theorem referenceWord_eq (a : CoefArgs) : referenceWord a = rnd32Real (exactCoef a) := settleWord_eq a _

/-- At tolerance 0 the factory is correctly rounded. -/
theorem coefWord_zero (a : CoefArgs) : coefWord 0 a = rnd32Real (exactCoef a) := referenceWord_eq a

end Sys2Proof.Machine
end

