-- ==== Sys2Proof/Laws/Fields.lean ====
section
/-! SUPPORT. The fields of the words the machine builds: the STATUS word (10_state.md R24) and binary32 words (00_scope.md R10). -/

namespace Sys2Proof.Machine

theorem statusWord_errs (s : State) : (statusWord s).extractLsb' 8 7 = s.errs := by
  apply BitVec.eq_of_getLsbD_eq
  intro i hi
  simp only [statusWord, BitVec.getLsbD_append, BitVec.getLsbD_extractLsb']
  interval_cases i <;> simp

theorem statusWord_done (s : State) : (statusWord s).getLsbD 2 = s.done := by
  simp only [statusWord, BitVec.getLsbD_append]
  simp

/-- A word below the sign bit, packed with a sign, has the exponent, fraction and sign it was packed from. -/
theorem f32Pack_fields (s : Bool) {m : ℕ} (hm : m < 2 ^ 31) :
    f32Exp (f32Pack s m) = m / 2 ^ 23 ∧ f32Frac (f32Pack s m) = m % 2 ^ 23 ∧ f32Sign (f32Pack s m) = s := by
  have h : (f32Pack s m).toNat = if s then 2 ^ 31 + m else m := by
    unfold f32Pack
    rw [BitVec.toNat_ofNat]
    split <;> omega
  refine ⟨?_, ?_, ?_⟩
  · unfold f32Exp
    rw [BitVec.extractLsb'_toNat, h, Nat.shiftRight_eq_div_pow]
    split <;> omega
  · unfold f32Frac
    rw [BitVec.extractLsb'_toNat, h, Nat.shiftRight_eq_div_pow]
    split <;> omega
  · unfold f32Sign
    rw [BitVec.msb_eq_decide, h]
    cases s <;> simp <;> omega

/-- A word as a number, from its sign, exponent and fraction (R10). -/
theorem f32_toNat (a : Word) : a.toNat = (f32Sign a).toNat * 2 ^ 31 + f32Exp a * 2 ^ 23 + f32Frac a := by
  unfold f32Sign f32Exp f32Frac
  have := a.isLt
  rw [BitVec.msb_eq_decide, BitVec.extractLsb'_toNat, BitVec.extractLsb'_toNat, Nat.shiftRight_eq_div_pow,
    Nat.shiftRight_eq_div_pow]
  by_cases h : 2 ^ (32 - 1) ≤ a.toNat
  · simp only [h, decide_true, Bool.toNat_true]; omega
  · simp only [h, decide_false, Bool.toNat_false]; omega

/-- Flushing subnormals neither makes nor changes a NaN (42_biquad_section.md R163). -/
theorem f32Flush_nan (ftz : Bool) (w : Word) :
    f32IsNaN (f32Flush ftz w) = f32IsNaN w ∧ (f32IsNaN w = true → f32Flush ftz w = w) := by
  unfold f32Flush
  by_cases h : (ftz && f32IsSubnormal w) = true
  · rw [if_pos h]
    simp only [Bool.and_eq_true, f32IsSubnormal, beq_iff_eq, bne_iff_ne] at h
    have h2 : f32IsNaN w = false := by simp [f32IsNaN, h.2.1]
    have h3 : f32Exp (w &&& 0x80000000#32) = 0 := by
      unfold f32Exp
      rw [BitVec.extractLsb'_and]
      simp
    refine ⟨?_, by simp [h2]⟩
    rw [h2]
    simp [f32IsNaN, h3]
  · rw [if_neg h]
    exact ⟨rfl, fun _ => rfl⟩

end Sys2Proof.Machine
end

