-- ==== Sys2Proof/Laws/Memory.lean ====
section
/-! SUPPORT. The laws of the buffers' memory (20_memory.md R79, R81, R82): every operation keeps the canonical form, a read after a
write gives the value written, and a write leaves every other byte alone. -/

namespace Sys2Proof.Machine

/-! ### One byte -/

theorem memGet_memSet_same (m : List Host.Cell) (a : ℕ) (v : Byte) : memGet (memSet m a v) a = some v := by
  induction m with
  | nil => simp [memSet, memGet]
  | cons c m ih =>
    obtain ⟨k, b⟩ := c
    unfold memSet
    split
    · simp [memGet]
    · split
      · simp [memGet]
      · rename_i h1 h2
        simp [memGet, h2, ih]

theorem memGet_memSet_other (m : List Host.Cell) {a x : ℕ} (v : Byte) (h : x ≠ a) :
    memGet (memSet m a v) x = memGet m x := by
  induction m with
  | nil => simp [memSet, memGet, h]
  | cons c m ih =>
    obtain ⟨k, b⟩ := c
    unfold memSet
    split
    · simp [memGet, h]
    · split
      · rename_i h1 h2
        subst h2
        simp [memGet, h]
      · simp only [memGet, ih]

theorem memByte_memSet (r : ℕ) (m : List Host.Cell) (a x : ℕ) (v : Byte) :
    memByte r (memSet m a v) x = if x = a then v else memByte r m x := by
  unfold memByte
  split
  · rename_i h
    subst h
    simp [memGet_memSet_same]
  · rename_i h
    rw [memGet_memSet_other m v h]

/-- Every address a write leaves in the memory is the written one or was there before. -/
theorem mem_memSet {m : List Host.Cell} {a : ℕ} {v : Byte} {c : Host.Cell} (h : c ∈ memSet m a v) :
    c.1 = a ∨ c ∈ m := by
  induction m with
  | nil => simp [memSet] at h; simp [h]
  | cons d m ih =>
    obtain ⟨k, b⟩ := d
    unfold memSet at h
    split at h
    · rcases List.mem_cons.1 h with rfl | h
      · exact .inl rfl
      · exact .inr h
    · split at h
      · rcases List.mem_cons.1 h with rfl | h
        · exact .inl rfl
        · exact .inr (List.mem_cons_of_mem _ h)
      · rcases List.mem_cons.1 h with rfl | h
        · exact .inr (List.mem_cons_self ..)
        · rcases ih h with h | h
          · exact .inl h
          · exact .inr (List.mem_cons_of_mem _ h)

theorem memSet_wf {m : List Host.Cell} (h : memWf m) (a : ℕ) (v : Byte) : memWf (memSet m a v) := by
  induction m with
  | nil => simp [memSet, memWf]
  | cons c m ih =>
    obtain ⟨k, b⟩ := c
    obtain ⟨h1, h2⟩ := List.pairwise_cons.1 h
    unfold memSet
    split
    · rename_i hlt
      refine List.pairwise_cons.2 ⟨fun d hd => ?_, h⟩
      rcases List.mem_cons.1 hd with rfl | hd
      · exact hlt
      · exact hlt.trans (h1 d hd)
    · split
      · rename_i hlt heq
        subst heq
        exact List.pairwise_cons.2 ⟨fun d hd => h1 d hd, h2⟩
      · rename_i hlt hne
        refine List.pairwise_cons.2 ⟨fun d hd => ?_, ih h2⟩
        rcases mem_memSet hd with hd | hd
        · rw [hd]; show k < a; omega
        · exact h1 d hd

/-! ### One word -/

/-- The four addresses of the word at `a`. -/
def inWord (a x : ℕ) : Prop := a ≤ x ∧ x < a + 4

theorem memSetWord_wf {m : List Host.Cell} (h : memWf m) (a : ℕ) (v : Word) : memWf (memSetWord m a v) :=
  memSet_wf (memSet_wf (memSet_wf (memSet_wf h _ _) _ _) _ _) _ _

theorem mem_memSetWord {m : List Host.Cell} {a : ℕ} {v : Word} {c : Host.Cell} (h : c ∈ memSetWord m a v) :
    inWord a c.1 ∨ c ∈ m := by
  unfold memSetWord at h
  rcases mem_memSet h with h | h
  · left; unfold inWord; omega
  rcases mem_memSet h with h | h
  · left; unfold inWord; omega
  rcases mem_memSet h with h | h
  · left; unfold inWord; omega
  rcases mem_memSet h with h | h
  · left; unfold inWord; omega
  exact .inr h

/-- A word write leaves every byte outside its four alone. -/
theorem memByte_memSetWord_other (r : ℕ) (m : List Host.Cell) {a x : ℕ} (v : Word) (h : ¬ inWord a x) :
    memByte r (memSetWord m a v) x = memByte r m x := by
  unfold inWord at h
  unfold memSetWord
  rw [memByte_memSet, if_neg (by omega), memByte_memSet, if_neg (by omega), memByte_memSet, if_neg (by omega),
    memByte_memSet, if_neg (by omega)]

theorem memWord_memSetWord_same (r : ℕ) (m : List Host.Cell) (a : ℕ) (v : Word) :
    memWord r (memSetWord m a v) a = v := by
  unfold memWord memSetWord
  simp only [memByte_memSet]
  simp [wordOfBytes_lanes]

/-- A word write leaves every word that shares no byte with it alone. -/
theorem memWord_memSetWord_other (r : ℕ) (m : List Host.Cell) {a x : ℕ} (v : Word) (h : a + 4 ≤ x ∨ x + 4 ≤ a) :
    memWord r (memSetWord m a v) x = memWord r m x := by
  have k : ∀ j < 4, memByte r (memSetWord m a v) (x + j) = memByte r m (x + j) := fun j hj =>
    memByte_memSetWord_other r m v (by unfold inWord; omega)
  have k0 := k 0 (by norm_num)
  rw [Nat.add_zero] at k0
  unfold memWord
  rw [k0, k 1 (by norm_num), k 2 (by norm_num), k 3 (by norm_num)]

/-! ### The sample buffers -/

theorem bufRead_bufWrite_same (r : ℕ) (m : List Host.Cell) (ch : Channel) (i : ℕ) (v : Word) :
    bufRead r (bufWrite m ch i v) ch i = v := memWord_memSetWord_same r m _ v

/-- Two different sample words share no byte, whichever their channels, while indices stay below 16384 (20_memory.md R79). -/
theorem bufAddr_apart {ch ch' : Channel} {i j : ℕ} (hi : i < 16384) (hj : j < 16384) (h : ch ≠ ch' ∨ i ≠ j) :
    bufAddr ch i + 4 ≤ bufAddr ch' j ∨ bufAddr ch' j + 4 ≤ bufAddr ch i := by
  cases ch <;> cases ch' <;> simp [bufAddr, Channel.bufBase] at h ⊢ <;> omega

theorem bufRead_bufWrite_other (r : ℕ) (m : List Host.Cell) {ch ch' : Channel} {i j : ℕ} (v : Word) (hi : i < 16384)
    (hj : j < 16384) (h : ch ≠ ch' ∨ i ≠ j) : bufRead r (bufWrite m ch i v) ch' j = bufRead r m ch' j :=
  memWord_memSetWord_other r m v (bufAddr_apart hi hj h)

theorem bufWrite_wf {m : List Host.Cell} (h : memWf m) (ch : Channel) (i : ℕ) (v : Word) : memWf (bufWrite m ch i v) :=
  memSetWord_wf h _ v

end Sys2Proof.Machine
end

