-- ==== Sys2Proof/Laws/Job.lean ====
section
/-! SUPPORT. What the block job does (44_processor.md R201 to R215), one lemma for each of its phases. -/

namespace Sys2Proof.Machine

/-! ### Cascades -/

theorem sampleThrough_append (ftz : Bool) (bank : CoefBank) (act : ℕ) (l l' : List (Fin 9)) (i : ℕ) (h : HistFile) (x : Word) :
    sampleThrough ftz bank act (l ++ l') i h x =
      sampleThrough ftz bank act l' (i + l.length) (sampleThrough ftz bank act l i h x).2
        (sampleThrough ftz bank act l i h x).1 := by
  induction l generalizing i h x with
  | nil => simp [sampleThrough]
  | cons s l ih =>
    simp only [List.cons_append, sampleThrough, List.length_cons]
    split <;> rw [ih] <;> simp only [Nat.add_assoc, Nat.add_comm 1]

/-- From the first index that is not below `act` on, every section is bypassed: the sample and the history pass unchanged. -/
theorem sampleThrough_bypassed (ftz : Bool) (bank : CoefBank) {act i : ℕ} (hi : act ≤ i) (l : List (Fin 9)) (h : HistFile)
    (x : Word) : sampleThrough ftz bank act l i h x = (x, h) := by
  induction l generalizing i with
  | nil => rfl
  | cons s l ih =>
    simp only [sampleThrough]
    rw [if_neg (by omega), ih (by omega)]

theorem processSample_get_other (ftz : Bool) (bank : CoefBank) {s s' : Fin 9} (hne : s ≠ s') (h : HistFile) (x : Word) :
    (processSample ftz bank s h x).2.get s' = h.get s' := by
  have : s.val ≠ s'.val := fun e => hne (Fin.ext e)
  simp [processSample, Vector.get_eq_getElem, Vector.getElem_set_ne _ _ this]

theorem processSample_get_same (ftz : Bool) (bank : CoefBank) (s : Fin 9) (h : HistFile) (x : Word) :
    (processSample ftz bank s h x).2.get s = (h.get s).push x (processSample ftz bank s h x).1 := by
  simp [processSample, Vector.get_eq_getElem]

/-- A section that is not among those of the list keeps its history. -/
theorem sampleThrough_get_other (ftz : Bool) (bank : CoefBank) (act : ℕ) {s : Fin 9} (l : List (Fin 9)) (hs : s ∉ l) (i : ℕ)
    (h : HistFile) (x : Word) : (sampleThrough ftz bank act l i h x).2.get s = h.get s := by
  induction l generalizing i h x with
  | nil => rfl
  | cons s' l ih =>
    obtain ⟨h1, h2⟩ := not_or.1 (List.mem_cons.not.1 hs)
    simp only [sampleThrough]
    split
    · rw [ih h2, processSample_get_other _ _ (Ne.symm h1)]
    · exact ih h2 ..

/-! ### Commit -/

theorem installSets_get_other {s : Fin 9} (l : List (Fin 9)) (hs : s ∉ l) (cs : List Coefs) (bank : CoefBank) :
    (installSets l cs bank).get s = bank.get s := by
  induction l generalizing cs bank with
  | nil => rfl
  | cons s' l ih =>
    obtain ⟨h1, h2⟩ := not_or.1 (List.mem_cons.not.1 hs)
    cases cs with
    | nil => rfl
    | cons c cs =>
      have : s'.val ≠ s.val := fun e => h1 (Fin.ext e.symm)
      rw [installSets, ih h2, Vector.get_eq_getElem, Vector.get_eq_getElem, Vector.getElem_set_ne _ _ this]

/-- Installing finite sets into a finite bank leaves it finite. -/
theorem installSets_finite (l : List (Fin 9)) (cs : List Coefs) (hc : cs.all Coefs.finite = true) {bank : CoefBank}
    (hb : ∀ i : Fin 9, (bank.get i).finite = true) (i : Fin 9) : ((installSets l cs bank).get i).finite = true := by
  induction l generalizing cs bank with
  | nil => exact hb i
  | cons s l ih =>
    cases cs with
    | nil => exact hb i
    | cons c cs =>
      obtain ⟨h1, h2⟩ := Bool.and_eq_true_iff.1 hc
      refine ih cs h2 fun j => ?_
      rw [Vector.get_eq_getElem, Vector.getElem_set]
      split
      · exact h1
      · rw [← Vector.get_eq_getElem]
        exact hb j

theorem commit_coefs (k : FactorySets) (s : State) :
    (commit k s).coefs = installSets Cascade.highCut.sections k.highCut
      (installSets Cascade.lowCut.sections k.lowCut (s.coefs.set 4 k.peak)) := rfl

/-! ### Streaming -/

/-- The addresses of frames n..n+count-1 of a channel's buffer. -/
def inFrames (ch : Channel) (n count x : ℕ) : Prop := bufAddr ch n ≤ x ∧ x < bufAddr ch (n + count)

theorem bufAddr_add (ch : Channel) (n k : ℕ) : bufAddr ch (n + k) = bufAddr ch n + 4 * k := by
  unfold bufAddr
  ring

/-- Streaming leaves every byte outside its frames alone. -/
theorem streamFrames_memByte_other (e : StreamEnv) (ch : Channel) (r : ℕ) (count n : ℕ) (mh : List Host.Cell × HistFile)
    {x : ℕ} (hx : ¬ inFrames ch n count x) : memByte r (streamFrames e ch count n mh).1 x = memByte r mh.1 x := by
  induction count generalizing n mh with
  | zero => rfl
  | succ count ih =>
    have h1 := bufAddr_add ch n (count + 1)
    have h2 := bufAddr_add ch n 1
    have h3 := bufAddr_add ch (n + 1) count
    unfold inFrames at hx
    rw [streamFrames, ih]
    · exact memByte_memSetWord_other r _ _ (by unfold inWord; omega)
    · unfold inFrames
      omega

theorem streamFrames_wf (e : StreamEnv) (ch : Channel) (count n : ℕ) (mh : List Host.Cell × HistFile)
    (h : memWf mh.1) : memWf (streamFrames e ch count n mh).1 := by
  induction count generalizing n mh with
  | zero => exact h
  | succ count ih => exact ih _ _ (bufWrite_wf h ch n _)

/-- Every address streaming leaves in the memory is of one of its frames or was there before. -/
theorem mem_streamFrames (e : StreamEnv) (ch : Channel) (count n : ℕ) (mh : List Host.Cell × HistFile) {c : Host.Cell}
    (h : c ∈ (streamFrames e ch count n mh).1) : inFrames ch n count c.1 ∨ c ∈ mh.1 := by
  induction count generalizing n mh with
  | zero => exact .inr h
  | succ count ih =>
    have h1 := bufAddr_add ch n (count + 1)
    have h2 := bufAddr_add ch n 1
    have h3 := bufAddr_add ch (n + 1) count
    unfold inFrames at ih ⊢
    rcases ih _ _ h with h | h
    · left; omega
    · rcases mem_memSetWord h with h | h
      · left; unfold inWord at h; omega
      · exact .inr h

/-- A run of m + n frames is a run of m frames and then a run of n from where it stopped. -/
theorem streamFrames_add (e : StreamEnv) (ch : Channel) (m k n : ℕ) (mh : List Host.Cell × HistFile) :
    streamFrames e ch (m + k) n mh = streamFrames e ch k (n + m) (streamFrames e ch m n mh) := by
  induction m generalizing n mh with
  | zero => simp [streamFrames]
  | succ m ih =>
    rw [show m + 1 + k = (m + k) + 1 by ring, streamFrames, streamFrames, ih]
    congr 1
    ring

/-! ### The job -/

/-- How a job ends. -/
inductive JobEffect (s : State) : State → Prop where
  | badParam (off : Word) (h : paramCheck s.snap s.fsL = some off) : JobEffect s (endJob (raise .param off s))
  | notFinite (h : paramCheck s.snap s.fsL = none) (hf : finiteCheck (factorySets s) = false) :
      JobEffect s (endJob (raise .num 0#32 s))
  | done (h : paramCheck s.snap s.fsL = none) (hf : finiteCheck (factorySets s) = true) :
      JobEffect s (endJob (streamBlock (commit (factorySets s) s)))

theorem job_effect (s : State) : JobEffect s (job s) := by
  unfold job
  split
  · exact .badParam _ (by assumption)
  · unfold jobWithSets
    split
    · exact .done (by assumption) (by assumption)
    · exact .notFinite (by assumption) (by simp_all)

theorem job_seq (s : State) : (job s).seq = .ready := by
  have h := job_effect s
  generalize job s = t at h
  cases h <;> rfl

theorem job_done (s : State) : (job s).done = true := by
  have h := job_effect s
  generalize job s = t at h
  cases h <;> rfl

end Sys2Proof.Machine
end

