-- ==== Sys2Proof/Laws/PerInstr.lean ====
section
/-! SUPPORT. The statements made of every command as syntax, one lemma per constructor. -/

/-- A command is well formed, and its word, the row's word of 30_encoding.md R101, decodes to it, as a word, as four bytes and
as a row of the opcode table. -/
def Sys2Proof.Laws.RoundTrip.Statement (i : Sys2Proof.Instr) : Prop :=
  i.wf = true ∧ Sys2Proof.commandWordWf (Sys2Proof.encode i) = true ∧
    Sys2Proof.decode (Sys2Proof.encode i) = .ok i ∧
    Sys2Proof.decodeBytes (Sys2Proof.encodeBytes i) = .ok (i, []) ∧
    Sys2Proof.decodeTableWord 32 (Sys2Proof.encode i).toNat = some i

theorem Sys2Proof.Laws.RoundTrip.nop : Sys2Proof.Laws.RoundTrip.Statement .nop := ⟨rfl, rfl, rfl, rfl, rfl⟩

theorem Sys2Proof.Laws.RoundTrip.prepare : Sys2Proof.Laws.RoundTrip.Statement .prepare := ⟨rfl, rfl, rfl, rfl, rfl⟩

theorem Sys2Proof.Laws.RoundTrip.release : Sys2Proof.Laws.RoundTrip.Statement .release := ⟨rfl, rfl, rfl, rfl, rfl⟩

theorem Sys2Proof.Laws.RoundTrip.process : Sys2Proof.Laws.RoundTrip.Statement .process := ⟨rfl, rfl, rfl, rfl, rfl⟩
end

