-- ==== Sys2Proof/Laws/Step.lean ====
section
/-! SUPPORT. What the next step is, by the entry that comes next in the order (20_memory.md R70 to R85, 44_processor.md R201), and a
run one step longer. -/

namespace Sys2Proof.Machine

/-- An offset is word-aligned exactly if its value is a multiple of 4 (20_memory.md R72). -/
theorem aligned_iff (off : Word) : (off.extractLsb' 0 2 == 0#2) = decide (off.toNat % 4 = 0) := by
  rw [Bool.eq_iff_iff, beq_iff_eq, decide_eq_true_iff, ← BitVec.toNat_inj]
  simp [BitVec.extractLsb'_toNat]

theorem Reg.offset_aligned (r : Reg) : r.offset.toNat % 4 = 0 := by cases r <;> decide

/-- A whole-word write comes next. -/
theorem step_of_write {s : State} {rest : List Input} {off v : Word}
    (h : s.inputs = .transaction { kind := .write, off := off, wdata := v, be := 0b1111#4 } :: rest) :
    step s = if off.toNat % 4 = 0 then memWrite off v (s.begin rest) else .next (raise .access off (s.begin rest)) := by
  simp only [step, nextStep, h, inputStep, busStep, Txn.legal, aligned_iff]
  simp

/-- A whole-word read comes next. -/
theorem step_of_read {s : State} {rest : List Input} {off w : Word}
    (h : s.inputs = .transaction { kind := .read, off := off, wdata := w, be := 0b1111#4 } :: rest) :
    step s = if off.toNat % 4 = 0 then
        .next { (memRead off (s.begin rest)).2 with rdata := some (memRead off (s.begin rest)).1 }
      else .next { raise .access off (s.begin rest) with rdata := some 0#32 } := by
  simp only [step, nextStep, h, inputStep, busStep, Txn.legal, aligned_iff]
  simp

/-- A read of a register comes next. -/
theorem step_of_read_register {s : State} {rest : List Input} {w : Word} (r : Reg)
    (h : s.inputs = .transaction { kind := .read, off := r.offset, wdata := w, be := 0b1111#4 } :: rest) :
    step s = .next { s.begin rest with rdata := some (regRead (s.begin rest) r) } := by
  rw [step_of_read h, if_pos r.offset_aligned]
  simp only [memRead, regionOf_register]

/-- A write to a register other than CMD comes next. -/
theorem step_of_write_register {s : State} {rest : List Input} {v : Word} {r : Reg} (hr : r ≠ .cmd)
    (h : s.inputs = .transaction { kind := .write, off := r.offset, wdata := v, be := 0b1111#4 } :: rest) :
    step s = .next (regWrite v (s.begin rest) r) := by
  have hne : r.offset ≠ Reg.cmd.offset := by cases r <;> first | exact absurd rfl hr | decide
  rw [step_of_write h, if_pos r.offset_aligned, memWrite, if_neg hne]
  simp only [memStore, regionOf_register]

/-- A command word comes next. -/
theorem step_of_command {s : State} {rest : List Input} {v : Word}
    (h : s.inputs = .transaction { kind := .write, off := 0x004#32, wdata := v, be := 0b1111#4 } :: rest) :
    step s = issueCommand v (s.begin rest) := by
  rw [step_of_write h, if_pos (by decide)]
  exact if_pos rfl

/-- The completion step of a pending job comes next: the sequencer's turn, or the end of the order. -/
theorem step_of_completion {s : State} (hb : s.seq = .busy)
    (hi : s.inputs = [] ∨ ∃ rest, s.inputs = .sequencerTurn :: rest) : step s = .next (job (s.begin s.inputs.tail)) := by
  rcases hi with hi | ⟨rest, hi⟩ <;> simp [step, nextStep, hi, inputStep, sequencerStep, hb]

/-- A run of k + 1 steps is a step and then a run of k. -/
theorem run_of_step {s t : State} (h : step s = .next t) (k : ℕ) :
    Host.Core.run core (k + 1) s = Host.Core.run core k t := by
  have h' : core.step s = .next t := h
  exact (Host.Core.run.eq_2 core s k).trans (by simp only [h'])

end Sys2Proof.Machine
end

