-- ==== Sys2Proof/Tests/Slice0.lean ====
section
/-! SUPPORT. Tests: ill-formed terms that each check refuses, words written out from the encoding, one-step tests whose expected
results are those of spec/95_test_vectors.md, and for every statement with hypotheses a concrete state and operands that meet
them. -/

set_option Elab.async false

namespace Sys2Proof.Tests

open Sys2Proof Sys2Proof.Machine

/-! ### Well-formedness: one ill-formed term for each check -/

theorem test_wf_rsv : commandRsvOk 0x00000010#32 = false ∧ commandRsvOk 0x80000003#32 = false := by decide

theorem test_wf_opc : commandOpcOk 0x00000004#32 = false ∧ commandOpcOk 0x0000000F#32 = false := by decide

theorem test_wf_word : commandWordWf 0x00000013#32 = false ∧ commandWordWf 0x00000003#32 = true := by decide

theorem test_wf_buf_frames : Params.wf { Params.reference with bufFrames := 0 } = false ∧
    Params.wf { Params.reference with bufFrames := 16385 } = false ∧
    Params.wf { Params.reference with bufFrames := 16384 } = true := by decide

theorem test_wf_base_addr : Params.wf { Params.reference with baseAddr := 0x20000#32 } = false ∧
    Params.wf { Params.reference with baseAddr := 0xFFFC0000#32 } = true := by decide

theorem test_wf_txn : Txn.legal { kind := .write, off := 0x10#32, wdata := 0#32, be := 0b0011#4 } = false ∧
    Txn.legal { kind := .read, off := 0x2#32, wdata := 0#32, be := 0b1111#4 } = false ∧
    Txn.legal { kind := .read, off := 0x4#32, wdata := 0#32, be := 0b1111#4 } = true := by decide

theorem test_wf_memory : ¬ memWf [(5, 1#8), (5, 2#8)] ∧ ¬ memWf [(6, 1#8), (5, 2#8)] ∧ memWf [(5, 1#8), (6, 2#8)] := by decide

/-! ### Decoding: words written out from 30_encoding.md R100 and R101, RSV in bits 31:4 and OPC in bits 3:0 -/

theorem test_decode_nop : decode 0b0000000000000000000000000000_0000#32 = .ok .nop := by decide
theorem test_decode_prepare : decode 0b0000000000000000000000000000_0001#32 = .ok .prepare := by decide
theorem test_decode_release : decode 0b0000000000000000000000000000_0010#32 = .ok .release := by decide
theorem test_decode_process : decode 0b0000000000000000000000000000_0011#32 = .ok .process := by decide

/-- The two other ends of the reserved opcodes, and each end of RSV. -/
theorem test_decode_illegal : decode 0b0000000000000000000000000000_0100#32 = .error .reservedOpcode ∧
    decode 0b0000000000000000000000000000_1111#32 = .error .reservedOpcode ∧
    decode 0b0000000000000000000000000001_0000#32 = .error .reservedBits ∧
    decode 0b1000000000000000000000000000_0011#32 = .error .reservedBits := by decide

/-- Byte lanes: lane 0 is the lowest byte (20_memory.md R81). -/
theorem test_decode_bytes : decodeBytes [0x03#8, 0x00#8, 0x00#8, 0x00#8, 0xFF#8] = .ok (.process, [0xFF#8]) ∧
    decodeBytes [0x00#8, 0x00#8, 0x00#8, 0x03#8] = .error .reservedBits ∧
    decodeBytes [0x03#8, 0x00#8, 0x00#8] = .error .truncated := by decide

/-! ### States -/

/-- After reset, with one entry in the order of steps. -/
def one (i : Input) (s : State) : State := { s with inputs := [i] }

/-- A write of `v` to `off` is next. -/
def wr (off v : Word) (s : State) : State := one (Claims.write off v) s

/-- A read of `off` is next. -/
def rd (off : Word) (s : State) : State := one (Claims.read off) s

/-- SAMPLE_RATE 48000 and MAX_BLOCK 4 written, as in program P1. -/
def configured : State := { State.reset with sampleRate := 0x473B8000#32, maxBlock := 4#32 }

/-- P1 after PREPARE, with BLOCK_LEN 1. -/
def ready : State :=
  { configured with seq := .ready, fsL := 0x473B8000#32, maxBlkL := 4#32, blockLen := 1#32 }

/-- A job of one frame pending, LBUF[0] and RBUF[0] both 1.0. -/
def busy : State :=
  { ready with
    seq := .busy
    lenL := 1#32
    mem := bufWrite (bufWrite [] .left 0 0x3F800000#32) .right 0 0x3F800000#32 }

/-- What a run of steps answered, if it is a next state. -/
def next (o : Host.Outcome State Fault Refusal) : Option State :=
  match o with
  | .next s => some s
  | .fault _ => none
  | .refused _ => none

/-! ### One step -/

/-- V-ENC-1 and V-ENC-11. -/
theorem test_nop : next (step (wr 4 0 busy)) = some { busy with inputs := [] } := by decide

/-- V-ENC-2: STATE, FS_L, MAXBLK_L, and the identity set of the last section. -/
theorem test_prepare : (next (step (wr 4 1 configured))).map (fun s => (s.seq, s.fsL, s.maxBlkL, (s.coefs.get 8).b0)) =
    some (.ready, 0x473B8000#32, 4#32, 0x3F800000#32) := by decide

/-- V-PRC-1, V-PRC-2 and V-PRC-3. -/
theorem test_prepare_refused :
    [{ configured with maxBlock := 0#32 }, { configured with sampleRate := 0xFF800000#32 },
      { configured with maxBlock := 1025#32 }].map
      (fun s => (next (step (wr 4 1 s))).map (fun t => (t.seq, regRead t .status, t.errInfo))) =
    List.replicate 3 (some (.unprepared, 0x00040800#32, 1#32)) := by decide

/-- V-ENC-3 and V-PRC-9. -/
theorem test_release : (next (step (wr 4 2 ready))).map (fun s => (s.seq, s.fsL, s.errs)) =
    some (.unprepared, 0x473B8000#32, 0#7) := by decide

/-- RELEASE in BUSY (44_processor.md R194). -/
theorem test_release_busy : (next (step (wr 4 2 busy))).map (fun s => (s.seq, regRead s .status, s.errInfo)) =
    some (.busy, 0x00020202#32, 2#32) := by decide

/-- V-ENC-4 and V-PRC-5: BLOCK_LEN = MAXBLK_L is accepted, SNAP and LEN_L latched, DONE kept. -/
theorem test_process :
    (next (step (wr 4 3 { ready with blockLen := 4#32, done := true, regs := { ParamSet.reset with peakQ := 7#32 } }))).map
      (fun s => (s.seq, s.lenL, s.snap.peakQ, s.done, s.errs)) = some (.busy, 4#32, 7#32, true, 0#7) := by decide

/-- V-ENC-12 and V-PRC-4: ERR_UNPREP comes before ERR_CFG. -/
theorem test_process_refused :
    (next (step (wr 4 3 { State.reset with blockLen := 5000#32 }))).map (fun s => (regRead s .status, s.errInfo)) =
      some (0x00030400#32, 3#32) ∧
    (next (step (wr 4 3 { ready with blockLen := 5#32 }))).map (fun s => (regRead s .status, s.errInfo)) =
      some (0x00040801#32, 3#32) := by decide

/-- V-ENC-8: an illegal word in BUSY raises ERR_CMD only. -/
theorem test_illegal_word : (next (step (wr 4 0x13 busy))).map (fun s => (regRead s .status, s.errInfo, s.faults)) =
    some (0x00010102#32, 0x13#32, [.cmd]) := by decide

/-- V-EXC-1 to V-EXC-4: the first error is kept, and W1C clears FIRST_ERR with the last ERR bit. -/
theorem test_errors :
    let a := raise .cmd 0x13 (raise .unprep 3 State.reset)
    regRead a .status = 0x00030500#32 ∧ regRead (statusWrite 0x400 a) .status = 0x00030100#32 ∧
      regRead (statusWrite 0x100 (statusWrite 0x400 a)) .status = 0#32 ∧
      (statusWrite 0x100 (statusWrite 0x400 a)).errInfo = 3#32 := by decide

/-- V-EXC-7 to V-EXC-11. -/
theorem test_irq :
    let d := { State.reset with done := true }
    let e := raise .access 0x1000 State.reset
    ({ d with intEn := 1#2 } : State).irq = true ∧ ({ d with intEn := 2#2 } : State).irq = false ∧
      ({ e with intEn := 1#2 } : State).irq = false ∧ ({ e with intEn := 2#2 } : State).irq = true ∧
      (statusWrite 4 { d with intEn := 1#2 }).irq = false := by decide

/-- V-MEM-1, 2, 3, 4, 9, 13 (no error) and 14, 16, 18 (ERR_ACCESS), in READY. -/
theorem test_reads :
    ([0x000, 0x004, 0x020, 0x038, 0x220, 0x600] : List Word).map
      (fun off => (next (step (rd off ready))).map (fun s => (s.rdata, s.errs))) =
      ([0x53455131, 0, 0x400, 0, 0, 0] : List Word).map (fun w => some (some w, 0#7)) ∧
    ([0x1000, 0x11000, 0x30000] : List Word).map
      (fun off => (next (step (rd off ready))).map (fun s => (s.rdata, s.errs, s.errInfo))) =
      ([0x1000, 0x11000, 0x30000] : List Word).map (fun off => some (some 0#32, 0x40#7, off)) := by decide

/-- V-MEM-19, 20, 21, 22. -/
theorem test_access_errors :
    (next (step (rd 2 ready))).map (fun s => (s.rdata, s.errInfo)) = some (some 0#32, 2#32) ∧
    (next (step (one (.transaction { kind := .write, off := 0x10#32, wdata := 1#32, be := 0b0011#4 }) ready))).map
      (fun s => (s.sampleRate, s.errInfo)) = some (0x473B8000#32, 0x10#32) ∧
    (next (step (rd 0x10000 busy))).map (fun s => (s.rdata, s.errs)) = some (some 0#32, 0x40#7) ∧
    (next (step (wr 0x100 0 busy))).map (fun s => (s.coefs.get 0, s.errs)) = some (Coefs.identity, 0x40#7) := by decide

/-- V-MEM-24 and 25, V-ENC-18: stored while BUSY with SNAP unchanged; INT_EN and a slope keep bits 1:0. -/
theorem test_writes :
    (next (step (wr 0x054 5 busy))).map (fun s => (s.regs.peakGainDb, s.snap.peakGainDb, s.errs)) = some (5#32, 0#32, 0#7) ∧
    (next (step (wr 0x00C 0xFFFFFFFF busy))).map (fun s => regRead s .intEn) = some 3#32 ∧
    (next (step (wr 0x044 0xFFFFFFFF ready))).map (fun s => regRead s .lowCutSlope) = some 3#32 ∧
    (next (step (wr 0x034 5 ready))).map (fun s => (s.errInfo, s.errs)) = some (0#32, 0#7) := by decide

/-- V-MEM-15: the last word of LBUF holds what is written to it. -/
theorem test_buffer_word : (next (step (wr 0x10FFC 0x12345678 ready))).map
    (fun s => (s.buf .left 1023, s.mem)) = some (0x12345678#32, [(0x10FFC, 0x78#8), (0x10FFD, 0x56#8), (0x10FFE, 0x34#8),
      (0x10FFF, 0x12#8)]) := by decide

/-- V-RST-1: what the registers and windows read right after reset. -/
theorem test_reset : Reg.all.map (regRead State.reset) =
    [0x53455131#32, 0, 0, 0, 0, 0, 0, 0, 0x400#32, 0, 0, 0, 0, 0,
      0x41A00000#32, 0, 0x469C4000#32, 0, 0x443B8000#32, 0, 0x3F800000#32,
      0x41A00000#32, 0, 0x469C4000#32, 0, 0x443B8000#32, 0, 0x3F800000#32] ∧
    coefWindowRead State.reset 0x200 = 0x3F800000#32 ∧ coefWindowRead State.reset 0x210 = 0#32 ∧
    histWindowRead State.reset 0x558 = 0#32 := by decide

/-! ### Parameter checks (V-PAR-1 to V-PAR-25) -/

theorem test_freq_ok : ([0x41A00000, 0x419FFFFF, 0x469C4000, 0x469C4001, 0x7FC00000, 0x7F800000] : List Word).map freqOk =
    [true, false, true, false, false, false] := by decide +kernel

theorem test_below_nyquist : belowNyquist 0x472C4400 0x469C4000 = true ∧ belowNyquist 0x471C4000 0x469C4000 = false ∧
    belowNyquist 0x46FA0000 0x467A0000 = false ∧ belowNyquist 0x46FA0000 0x4679FFFF = true := by decide +kernel

theorem test_gain_and_q :
    ([0x41C00000, 0x41C00001, 0xC1C00000, 0xC1C00001, 0x80000000] : List Word).map gainOk =
      [true, false, true, false, true] ∧
    ([0x3DCCCCCD, 0x3DCCCCCC, 0x41200000, 0x41200001, 0x00000000, 0xBF800000] : List Word).map qOk =
      [true, false, true, false, false, false] := by decide +kernel

theorem test_param_check : paramCheck ParamSet.reset 0x473B8000 = none ∧ paramCheck ParamSet.reset 0x46FA0000 = some 0x048 ∧
    paramCheck { ParamSet.reset with lowCutFreq := 0x7FC00000, peakQ := 0 } 0x473B8000 = some 0x040 ∧
    paramCheck { ParamSet.reset with peakGainDb := 0x41F00000 } 0x473B8000 = some 0x054 := by decide +kernel

/-! ### Sections and cascades -/

/-- The set with every word zero but b0. -/
def gain (b0 : Word) : Coefs := { Coefs.identity with b0 := b0 }

/-- V-SEC-1, with the new history. -/
theorem test_section :
    let c : Coefs := { b0 := 0x3F000000, b1 := 0x3E800000, b2 := 0x3E000000, a1 := 0xBF000000, a2 := 0x3E800000 }
    let h : Hist := { x1 := 0x40000000, x2 := 0x40800000, y1 := 0x3F800000, y2 := 0x40000000 }
    let y := sectionOutput false c h 0x3F800000
    y = 0x3FC00000 ∧ h.push 0x3F800000 y =
      { x1 := 0x3F800000, x2 := 0x40000000, y1 := 0x3FC00000, y2 := 0x3F800000 } := by decide +kernel

/-- V-SEC-2 to V-SEC-4: -0, infinity and a NaN through the coefficients of V-FAC-9. -/
theorem test_section_special :
    let c : Coefs := { b0 := 0x3F7F86CB, b1 := 0xBFFF86CB, b2 := 0x3F7F86CB, a1 := 0xBFFF86AE, a2 := 0x3F7F0DCF }
    ([0x80000000, 0x7F800000, 0x7FC00001] : List Word).map (sectionOutput false c Hist.zero) =
      [0x00000000, 0x7F800000, 0x7FC00000] := by decide +kernel

/-- V-SEC-5 to V-SEC-11, and V-SEC-7 and V-SEC-8 with FTZ. -/
theorem test_section_rounding :
    sectionOutput false (gain 0x3F800000) Hist.zero 0x7F7FFFFF = 0x7F7FFFFF ∧
    sectionOutput false (gain 0x40000000) Hist.zero 0x7F7FFFFF = 0x7F800000 ∧
    sectionOutput false (gain 0x3F000000) Hist.zero 0x00000001 = 0x00000000 ∧
    sectionOutput false (gain 0x3F000000) Hist.zero 0x00000003 = 0x00000002 ∧
    sectionOutput false { Coefs.identity with b1 := 0x3F800000 } { Hist.zero with x1 := 0x7F7FFFFF } 0x7F7FFFFF = 0x7F800000 ∧
    sectionOutput false { Coefs.identity with a1 := 0x3F800000 } { Hist.zero with y1 := 0x7F800000 } 0x7F800000 = 0x7FC00000 ∧
    sectionOutput false (gain 0) Hist.zero 0x7F800000 = 0x7FC00000 ∧
    sectionOutput true (gain 0x3F000000) Hist.zero 0x00000001 = 0 ∧
    sectionOutput true (gain 0x3F000000) Hist.zero 0x00000003 = 0 := by decide +kernel

/-- V-CAS-1 and V-CAS-3. -/
theorem test_cascade :
    processCascade false CoefBank.identity 0 .lowCut HistFile.zero 0x7FC00001 = (0x7FC00001, HistFile.zero) ∧
    processCascade false (CoefBank.identity.set 0 (gain 0x3F000000)) 1 .lowCut HistFile.zero 0x3F800000 =
      (0x3F000000, HistFile.zero.set 0 { Hist.zero with x1 := 0x3F800000, y1 := 0x3F000000 }) := by decide +kernel

/-! ### The factory and the job -/

/-- V-FAC-1. -/
theorem test_peak : makePeak 0 0x473B8000 0x447A0000 0x40A00000 0x40C00000 =
    { b0 := 0x3F812A9A, b1 := 0xBFFB7C6C, b2 := 0x3F78FAB6, a1 := 0xBFFB7C6C, a2 := 0x3F7B4FEA } := by decide +kernel

/-- V-FAC-12. -/
theorem test_lowpass : makeLowpassCascade 0 0x447A0000 0x473B8000 1 =
    [{ b0 := 0x3B8052DA, b1 := 0x3C0052DA, b2 := 0x3B8052DA, a1 := 0xBFE85D19, a2 := 0x3F54BCC8 }] := by decide +kernel

/-- V-FAC-15. -/
theorem test_highpass : makeHighpassCascade 0 0x447A0000 0x473B8000 2 =
    [{ b0 := 0x3F637949, b1 := 0xBFE37949, b2 := 0x3F637949, a1 := 0xBFE27F1E, a2 := 0x3F48E6E8 },
      { b0 := 0x3F72C733, b1 := 0xBFF2C733, b2 := 0x3F72C733, a1 := 0xBFF1BC34, a2 := 0x3F67A465 }] := by decide +kernel

/-- Program P1's first frame: the completion step's first output word, STATUS, ACTIVE, BLOCK_COUNT and a coefficient word. -/
theorem test_completion : (next (step busy)).map
    (fun s => (s.buf .left 0, regRead s .status, regRead s .active, s.blockCount, (s.coefs.get 5).b0)) =
    some (0x3F3022D2, 0x00000005, 0x00001111, 1, 0x3F30765E) := by decide +kernel

/-- V-PRC-8: an abort leaves the buffers, C, the counts and BLOCK_COUNT, and sets DONE. -/
theorem test_abort : (next (step { busy with snap := { ParamSet.reset with peakGainDb := 0x41F00000 } })).map
    (fun s => (regRead s .status, s.errInfo, s.buf .left 0, s.blockCount, s.lcActive, s.coefs.get 4)) =
    some (0x00051005, 0x054, 0x3F800000, 0, 0, Coefs.identity) := by decide +kernel

/-! ### Witnesses: for every statement with hypotheses, terms that meet them, one for each clause at the ends of its range -/

/-- `real(w)` from the word's units. -/
theorem real_eq {w : Word} (z : ℤ) (h : f32Units w = z * 2 ^ 149) : Claims.real w = z := by
  unfold Claims.real
  rw [h, Int.cast_mul, Int.cast_pow, Int.cast_ofNat, mul_div_assoc, div_self (by positivity), mul_one]

theorem real_pos {w : Word} (h : 0 < f32Units w) : 0 < Claims.real w := div_pos (by exact_mod_cast h) (by positivity)

theorem real_not_pos {w : Word} (h : f32Units w ≤ 0) : ¬ 0 < Claims.real w :=
  not_lt.2 (div_nonpos_of_nonpos_of_nonneg (by exact_mod_cast h) (by positivity))

theorem real_lt {v w : Word} (h : f32Units v < f32Units w) : Claims.real v < Claims.real w :=
  div_lt_div_of_pos_right (by exact_mod_cast h) (by positivity)

theorem real_48000 : Claims.real 0x473B8000#32 = 48000 := by
  rw [real_eq 48000 (by decide +kernel)]; norm_num

theorem real_20 : Claims.real 0x41A00000#32 = 20 := by rw [real_eq 20 (by decide +kernel)]; norm_num

theorem real_20000 : Claims.real 0x469C4000#32 = 20000 := by rw [real_eq 20000 (by decide +kernel)]; norm_num

theorem real_750 : Claims.real 0x443B8000#32 = 750 := by rw [real_eq 750 (by decide +kernel)]; norm_num

theorem real_1 : Claims.real 0x3F800000#32 = 1 := by rw [real_eq 1 (by decide +kernel)]; norm_num

theorem real_0 : Claims.real 0x00000000#32 = 0 := by rw [real_eq 0 (by decide +kernel)]; norm_num

theorem wit_DecodeInvertsEncode : ∀ i ∈ [Instr.nop, .prepare, .release, .process], i.wf = true := by decide +kernel

theorem wit_StepRunsDecodedCommand : ([0, 1, 2, 3] : List Word).Forall fun v =>
    (wr 4 v ready).inputs = Claims.write 0x004#32 v :: [] ∧ ∃ i ∈ [Instr.nop, .prepare, .release, .process], decode v = .ok i := by
  decide +kernel

/-- The ends of the reserved opcodes and of RSV, in BUSY. -/
theorem wit_IllegalCommandWordRaises : ([0x4, 0xF, 0x10, 0x13, 0xFFFFFFFF] : List Word).Forall fun v =>
    (wr 4 v busy).inputs = Claims.write 0x004#32 v :: [] ∧ (v >>> 4 ≠ 0#32 ∨ 4 ≤ (v &&& 0xF#32).toNat) := by decide +kernel

theorem wit_RaiseRecordsFirstError : State.reset.errs = 0#7 ∧ (raise .cmd 4 State.reset).errs ≠ 0#7 := by decide +kernel

theorem wit_StatusReadLayout : (rd 8 busy).inputs = Claims.read 0x008#32 :: [] := by decide +kernel

/-- A write that leaves an ERR bit, and one that leaves none. -/
theorem wit_StatusWriteOneToClear :
    let s := raise .cmd 4 (raise .unprep 3 State.reset)
    (wr 8 0x400 s).inputs = Claims.write 0x008#32 0x400#32 :: [] ∧ (statusWrite 0x400 s).errs ≠ 0#7 ∧
      (wr 8 0x7F04 s).inputs = Claims.write 0x008#32 0x7F04#32 :: [] ∧ (statusWrite 0x7F04 s).errs = 0#7 := by decide +kernel

/-- A step that sets an ERR bit. -/
theorem wit_FaultRecordOnlyGrows : step (wr 4 4 ready) = .next (raise .cmd 4 ready) ∧
    (raise .cmd 4 ready).errs &&& ErrCause.cmd.bit ≠ 0#7 ∧ (wr 4 4 ready).errs &&& ErrCause.cmd.bit = 0#7 := by
  refine ⟨rfl, ?_⟩
  decide +kernel

/-- Every RW register. -/
theorem wit_ReadWriteRegisterHoldsWrite : ∀ r ∈ [Reg.intEn, .sampleRate, .maxBlock, .blockLen, .lowCutFreq, .lowCutSlope,
    .highCutFreq, .highCutSlope, .peakFreq, .peakGainDb, .peakQ],
    r.access = .rw ∧ (wr r.offset 0xFFFFFFFF busy).inputs = Claims.write r.offset 0xFFFFFFFF#32 :: [] := by decide +kernel

/-- A reserved offset next to the registers, and the last of the control window. -/
theorem reserved_of {off : Word} (h1 : off.toNat < 0x1000) (h2 : Reg.ofOffset off = none)
    (h3 : ¬(0x100 ≤ off.toNat ∧ off.toNat < 0x220)) (h4 : ¬(0x400 ≤ off.toNat ∧ off.toNat < 0x600)) : Claims.reserved off := by
  refine ⟨h1, fun r hr => ?_, h3, h4⟩
  rw [hr, Reg.ofOffset_offset] at h2
  cases h2

theorem reserved_038 : Claims.reserved 0x038#32 := reserved_of (by decide) (by decide) (by decide) (by decide)

theorem reserved_FFC : Claims.reserved 0xFFC#32 := reserved_of (by decide) (by decide) (by decide) (by decide)

theorem wit_ReadOnlyAndReserved :
    (([0x000, 0x078, 0x038, 0xFFC, 0x100, 0x21C, 0x400, 0x5FC] : List Word).Forall fun off => off.toNat % 4 = 0 ∧
      (wr off 1 ready).inputs = Claims.write off 1#32 :: [] ∧ (rd off ready).inputs = Claims.read off :: []) ∧
    Reg.access .id = .ro ∧ Reg.offset .id = 0x000#32 ∧ Reg.access .snapPeakQ = .ro ∧ Reg.offset .snapPeakQ = 0x078#32 ∧
    Claims.reserved 0x038#32 ∧ Claims.reserved 0xFFC#32 ∧ ready.seq ≠ .busy ∧
    (([0x100, 0x21C] : List Word).Forall fun off => 0x100 ≤ off.toNat ∧ off.toNat < 0x220) ∧
    ([0x400, 0x5FC] : List Word).Forall fun off => 0x400 ≤ off.toNat ∧ off.toNat < 0x600 :=
  ⟨by decide +kernel, rfl, rfl, rfl, rfl, reserved_038, reserved_FFC, by decide +kernel, by decide +kernel, by decide +kernel⟩

/-- Every register, in BUSY and READY; the value is what the register's clause gives. -/
theorem wit_ReadOnlyRegisterValues : ∀ r ∈ Reg.all, (rd r.offset busy).inputs = Claims.read r.offset :: [] ∧
    (rd r.offset ready).inputs = Claims.read r.offset :: [] := by decide +kernel

theorem wit_IllegalAccessRaises :
    (∀ k ∈ [TxnKind.read, .write], ([0b0000, 0b0111, 0b1110] : List (BitVec 4)).Forall fun be => be ≠ 0b1111#4 ∧
      (one (.transaction { kind := k, off := 0x10, wdata := 1, be := be }) ready).inputs =
        [.transaction { kind := k, off := 0x10, wdata := 1, be := be }]) ∧
    ∀ k ∈ [TxnKind.read, .write], ([0x1, 0x2, 0x3, 0xFFFFFFFF] : List Word).Forall fun off => ¬ off.toNat % 4 = 0 ∧
      (one (.transaction { kind := k, off := off, wdata := 1, be := 0b1111 }) ready).inputs =
        [.transaction { kind := k, off := off, wdata := 1, be := 0b1111 }] := by decide +kernel

/-- The ends of each unmapped range: below LBUF, past BUF_FRAMES in each buffer, and above RBUF. -/
theorem wit_UnmappedAccessRaises : ([0x1000, 0xFFFC, 0x11000, 0x1FFFC, 0x21000, 0x2FFFC, 0x30000, 0xFFFFFFFC] : List Word).Forall fun off =>
    off.toNat % 4 = 0 ∧ ((0x1000 ≤ off.toNat ∧ off.toNat < 0x10000) ∨ 0x30000 ≤ off.toNat ∨
      (0x10000 ≤ off.toNat ∧ off.toNat < 0x30000 ∧ ready.params.bufFrames ≤ off.toNat % 0x10000 / 4)) ∧
    (rd off ready).inputs = Claims.read off :: [] ∧ (wr off 1 ready).inputs = Claims.write off 1#32 :: [] := by decide +kernel

/-- The ends of the windows and buffers, in BUSY, and two control registers. -/
theorem wit_BusyWindowAccessRaises : busy.seq = .busy ∧
    (([0x100, 0x21C, 0x400, 0x5FC, 0x10000, 0x10FFC, 0x20000, 0x20FFC] : List Word).Forall fun off => off.toNat % 4 = 0 ∧
      ((0x100 ≤ off.toNat ∧ off.toNat < 0x220) ∨ (0x400 ≤ off.toNat ∧ off.toNat < 0x600) ∨
        (0x10000 ≤ off.toNat ∧ off.toNat < 0x30000 ∧ off.toNat % 0x10000 / 4 < busy.params.bufFrames)) ∧
      (rd off busy).inputs = Claims.read off :: [] ∧ (wr off 1 busy).inputs = Claims.write off 1#32 :: []) ∧
    ∀ r ∈ [Reg.id, .cmd, .snapPeakQ], (rd r.offset busy).inputs = Claims.read r.offset :: [] ∧
      (wr r.offset 1 busy).inputs = Claims.write r.offset 1#32 :: [] := by decide +kernel

/-- A read of any offset, and a write to the ends of each window. -/
theorem wit_WindowReads : ready.seq ≠ .busy ∧ (∀ off : Word, (rd off ready).inputs = Claims.read off :: []) ∧
    ([0x100, 0x21C, 0x400, 0x5FC] : List Word).Forall fun off => off.toNat % 4 = 0 ∧
      ((0x100 ≤ off.toNat ∧ off.toNat < 0x220) ∨ (0x400 ≤ off.toNat ∧ off.toNat < 0x600)) ∧
      (wr off 1 ready).inputs = Claims.write off 1#32 :: [] :=
  ⟨by decide, fun _ => rfl, by decide +kernel⟩

theorem wit_ReadsHaveNoSideEffect : (rd 0 ready).inputs = Claims.read 0 :: [] ∧ (rd 0x1000 ready).inputs = Claims.read 0x1000 :: [] := by
  decide +kernel

/-- The first and last sample word of each buffer; another word and a byte outside. -/
theorem wit_BufferWordHoldsWrite : ready.seq ≠ .busy ∧ ready.params.wf = true ∧
    (∀ i ∈ [0, 1023], i < ready.params.bufFrames ∧ ∀ ch ∈ [Channel.left, .right],
      ({ ready with inputs := [Claims.write (BitVec.ofNat 32 (bufAddr ch i)) 7,
        Claims.read (BitVec.ofNat 32 (bufAddr ch i))] } : State).inputs =
        Claims.write (BitVec.ofNat 32 (bufAddr ch i)) 7 :: Claims.read (BitVec.ofNat 32 (bufAddr ch i)) :: []) ∧
    (1 < ready.params.bufFrames ∧ (Channel.left ≠ .left ∨ 1 ≠ 0)) ∧
    ¬(bufAddr .left 0 ≤ 0x10004 ∧ 0x10004 < bufAddr .left 0 + 4) := by decide +kernel

/-- The first and last routed address of the highest base, and the addresses next to them. -/
theorem wit_PlatformRoutesBaseWindow :
    let p := { Params.reference with baseAddr := 0xFFF80000#32 }
    p.wf = true ∧ (routeTxn p .read 0xFFF80000 0 15).isSome = true ∧ (routeTxn p .read 0xFFFBFFFF 0 15).isSome = true ∧
      (routeTxn p .read 0xFFF7FFFF 0 15).isSome = false ∧ (routeTxn p .read 0xFFFC0000 0 15).isSome = false := by decide +kernel

theorem wit_NopChangesNothing : (0x10#32 : Word) &&& 0xF#32 = 0#32 ∧ (0x10#32 : Word) ≠ 0#32 := by decide +kernel

theorem good_configured {m : Word} (h1 : 1 ≤ m.toNat) (h2 : m.toNat ≤ 1024) : Claims.goodConfig { configured with maxBlock := m } :=
  ⟨by show f32IsFinite 0x473B8000#32 = true; decide, by show 0 < Claims.real 0x473B8000#32; rw [real_48000]; norm_num, h1, h2⟩

/-- UNPREPARED and READY, MAX_BLOCK at both ends. -/
theorem wit_PrepareStartsStream : configured.seq ≠ .busy ∧ ready.seq ≠ .busy ∧
    Claims.goodConfig { configured with maxBlock := 1#32 } ∧ Claims.goodConfig { configured with maxBlock := 1024#32 } :=
  ⟨by decide +kernel, by decide +kernel, good_configured (by decide) (by decide), good_configured (by decide) (by decide)⟩

/-- Each way an operand of PREPARE can be bad: infinite, zero, negative, and MAX_BLOCK below and above its range. -/
theorem wit_PrepareRefusesBadConfig : configured.seq ≠ .busy ∧
    ¬ Claims.goodConfig { configured with sampleRate := 0x7F800000#32 } ∧
    ¬ Claims.goodConfig { configured with sampleRate := 0x80000000#32 } ∧
    ¬ Claims.goodConfig { configured with sampleRate := 0xC73B8000#32 } ∧
    ¬ Claims.goodConfig { configured with maxBlock := 0#32 } ∧ ¬ Claims.goodConfig { configured with maxBlock := 1025#32 } ∧
    Claims.goodConfig { configured with maxBlock := 1024#32 } :=
  ⟨by decide +kernel, fun h => absurd h.1 (by decide +kernel), fun h => real_not_pos (by decide +kernel) h.2.1,
    fun h => real_not_pos (by decide +kernel) h.2.1, fun h => absurd h.2.2.1 (by decide +kernel), fun h => absurd h.2.2.2 (by decide +kernel),
    good_configured (by decide) (by decide)⟩

theorem wit_ReleaseUnprepares : ready.seq ≠ .busy ∧ State.reset.seq ≠ .busy := by decide +kernel

theorem wit_ProcessLatchesAndStartsJob : ([0, 4] : List Word).Forall fun l => ({ ready with blockLen := l } : State).seq = .ready ∧
    ({ ready with blockLen := l } : State).blockLen.toNat ≤ ready.maxBlkL.toNat := by decide +kernel

theorem wit_ProcessRefusals : State.reset.seq = .unprepared ∧ ready.seq = .ready ∧
    ready.maxBlkL.toNat < ({ ready with blockLen := 5#32 } : State).blockLen.toNat := by decide +kernel

theorem wit_BusyRefusesCommands : busy.seq = .busy := rfl

/-- Each clause: an illegal word, NOP, a command in BUSY, PROCESS in UNPREPARED and in READY, PREPARE, RELEASE. -/
theorem wit_FirstFailingCheckDecides :
    (∀ s ∈ [busy, ready, State.reset, configured], ([0, 1, 2, 3, 4] : List Word).Forall fun v =>
      (wr 4 v s).inputs = Claims.write 0x004#32 v :: [] ∧ (next (step (wr 4 v s))).isSome = true) ∧
    Claims.illegalWord 4#32 ∧ busy.seq = .busy ∧ State.reset.seq = .unprepared ∧ ready.seq = .ready ∧
    ready.blockLen.toNat ≤ ready.maxBlkL.toNat ∧ ready.maxBlkL.toNat < (5#32).toNat ∧ Claims.goodConfig configured ∧
    ¬ Claims.goodConfig { configured with maxBlock := 0#32 } :=
  ⟨by decide +kernel, .inr (by decide +kernel), rfl, rfl, rfl, by decide +kernel, by decide +kernel, good_configured (m := 4#32) (by decide) (by decide),
    wit_PrepareRefusesBadConfig.2.2.2.2.1⟩

/-- Each command with an effect: accepted PREPARE, RELEASE and PROCESS. -/
theorem wit_CommandFrame : exec .nop ready = .next ready ∧ (next (exec .prepare configured)).isSome = true ∧
    (next (exec .release ready)).isSome = true ∧ (next (exec .process ready)).isSome = true := ⟨rfl, rfl, rfl, rfl⟩

theorem wit_RealValueOfWord : ([0x00000001, 0x80000000, 0x007FFFFF, 0x00800000, 0x7F7FFFFF] : List Word).Forall fun w => f32IsFinite w = true := by
  decide +kernel

/-- 1/3, a tie (2^24 + 1 lies halfway between two words), and the least value above zero that rounds to a word above it. -/
theorem wit_RoundingIsNearestEven : f32IsFinite (rnd32 1 3) = true ∧ f32IsFinite (rnd32 (2 ^ 24 + 1) 1) = true ∧
    f32IsFinite (rnd32 (-(2 ^ 127)) 1) = true ∧ f32IsFinite 0x4B800000#32 = true ∧ f32IsFinite 0x80000001#32 = true := by decide +kernel

/-- Both sides of each bound. -/
theorem wit_RoundingOverflow : ((2 ^ 25 - 1) * 2 ^ 103 : ℝ) ≤ (((2 ^ 25 - 1) * 2 ^ 103 : ℤ) : ℝ) / ((1 : ℕ) : ℝ) ∧
    (((-((2 ^ 25 - 1) * 2 ^ 103) : ℤ) : ℝ) / ((1 : ℕ) : ℝ) ≤ (-((2 ^ 25 - 1) * 2 ^ 103) : ℝ)) ∧
    |(((2 ^ 25 - 1) * 2 ^ 103 - 1 : ℤ) : ℝ) / ((1 : ℕ) : ℝ)| < ((2 ^ 25 - 1) * 2 ^ 103 : ℝ) := by norm_num

/-- A word for each hypothesis of the arithmetic cases. -/
theorem wit_AdditionCases : f32IsNaN 0x7FC00001#32 = true ∧ f32IsInf 0x7F800000#32 = true ∧ f32IsInf 0xFF800000#32 = true ∧
    (0x7F800000#32 : Word) ≠ 0xFF800000#32 ∧ f32IsNaN 0x3F800000#32 = false ∧ f32IsInf 0x3F800000#32 = false ∧
    f32IsFinite 0x80000000#32 = true ∧ Claims.real 0x00000000#32 + Claims.real 0x00000000#32 = 0 ∧
    f32IsFinite 0x3F800000#32 = true ∧ Claims.real 0x3F800000#32 + Claims.real 0x3F800000#32 ≠ 0 := by
  rw [real_1, real_0]
  refine ⟨by decide +kernel, by decide +kernel, by decide +kernel, by decide +kernel, by decide +kernel, by decide +kernel, by decide +kernel, by norm_num, by decide +kernel, by norm_num⟩

theorem wit_MultiplicationCases : f32IsNaN 0xFFC00000#32 = true ∧ f32IsZero 0x80000000#32 = true ∧ f32IsInf 0xFF800000#32 = true ∧
    f32IsNaN 0x00000001#32 = false ∧ f32IsZero 0x00000001#32 = false ∧ f32IsFinite 0x00000001#32 = true ∧
    f32IsFinite 0x80000000#32 = true ∧ f32IsNaN 0xFF800000#32 = false ∧ f32IsZero 0xFF800000#32 = false := by decide +kernel

/-- A NaN result, and a subnormal that FTZ flushes. -/
theorem wit_NaNResultsAreCanonical : f32IsNaN (f32Add false 0x7F800000 0xFF800000) = true ∧
    f32IsNaN (f32Mul true 0x00000001 0x7F800000) = true ∧ f32IsSubnormal (f32Mul false 0x00800000 0x3F000000) = true := by decide +kernel

theorem wit_NaNPoisonsSection : f32IsNaN 0x7FC00001#32 = true ∧
    f32IsNaN ((HistFile.zero.set 0 { Hist.zero with y2 := 0xFFFFFFFF#32 }).get 0).y2 = true ∧
    f32IsNaN ((CoefBank.identity.set 0 { Coefs.identity with a2 := 0x7F800001#32 }).get 0).a2 = true := by decide +kernel

theorem wit_CascadeRunsEnabledPrefix : (1 : Fin 9) ∉ Cascade.lowCut.sections.take 1 ∧ (8 : Fin 9) ∉ Cascade.highCut.sections.take 3 ∧
    (4 : Fin 9) ∉ Cascade.highCut.sections.take 4 := by decide +kernel

/-- The only section of a cascade of one, and the last of four. -/
theorem wit_CutFactoryRoundsExactly : 0 < 1 ∧ 3 < 4 := by decide

/-- The first low-cut section of the reset operating point at 48000 Hz. -/
theorem wit_FactoryWithinTolerance : f32IsFinite (rnd32Real (exactCoef
    (.lowpass (f32Units 0x473B8000) (f32Units 0x41A00000) 1 0 .b0))) = true := by
  rw [← referenceWord_eq]
  decide +kernel

theorem wit_UnityGainPeakIsTransparent : Claims.real 0x00000000#32 = 0 ∧ 0 < Claims.real 0x3F800000#32 ∧
    0 < Claims.real 0x443B8000#32 ∧ 2 * Claims.real 0x443B8000#32 < Claims.real 0x473B8000#32 := by
  rw [real_0, real_1, real_750, real_48000]
  exact ⟨rfl, by norm_num, by norm_num, by norm_num⟩

theorem freq_20 : Claims.freqGood 0x473B8000#32 0x41A00000#32 := ⟨by decide +kernel, by rw [real_20], by rw [real_20]; norm_num,
  by rw [real_20, real_48000]; norm_num⟩

theorem freq_20000 : Claims.freqGood 0x473B8000#32 0x469C4000#32 := ⟨by decide +kernel, by rw [real_20000]; norm_num, by rw [real_20000],
  by rw [real_20000, real_48000]; norm_num⟩

theorem freq_750 : Claims.freqGood 0x473B8000#32 0x443B8000#32 := ⟨by decide +kernel, by rw [real_750]; norm_num, by rw [real_750]; norm_num,
  by rw [real_750, real_48000]; norm_num⟩

/-- Just outside FreqOK at each end, not finite, at the Nyquist frequency; just outside GainOK and QOK. -/
theorem wit_ParamCheckOverReals : f32IsFinite 0x473B8000#32 = true ∧
    Claims.freqGood 0x473B8000#32 ParamSet.reset.lowCutFreq ∧ Claims.freqGood 0x473B8000#32 ParamSet.reset.highCutFreq ∧
    Claims.freqGood 0x473B8000#32 ParamSet.reset.peakFreq ∧ Claims.gainGood ParamSet.reset.peakGainDb ∧
    Claims.qGood ParamSet.reset.peakQ ∧ ¬ Claims.freqGood 0x473B8000#32 0x419FFFFF#32 ∧ ¬ Claims.freqGood 0x473B8000#32 0x469C4001#32 ∧
    ¬ Claims.freqGood 0x473B8000#32 0x7FC00000#32 ∧ ¬ Claims.freqGood 0x461C4000#32 0x459C4000#32 ∧
    ¬ Claims.gainGood 0x7F800000#32 ∧ ¬ Claims.qGood 0x00000000#32 := by
  refine ⟨by decide +kernel, freq_20, freq_20000, freq_750, ⟨by decide +kernel, ?_, ?_⟩, ⟨by decide +kernel, ?_, ?_⟩, ?_, ?_, fun h => absurd h.1 (by decide +kernel), ?_,
    fun h => absurd h.1 (by decide +kernel), ?_⟩
  · show -24 ≤ Claims.real 0#32; rw [real_0]; norm_num
  · show Claims.real 0#32 ≤ 24; rw [real_0]; norm_num
  · show 1 / 10 ≤ Claims.real 0x3F800000#32; rw [real_1]; norm_num
  · show Claims.real 0x3F800000#32 ≤ 10; rw [real_1]; norm_num
  · intro h
    have := real_lt (v := 0x419FFFFF#32) (w := 0x41A00000#32) (by decide +kernel)
    rw [real_20] at this
    exact absurd h.2.1 (not_le.2 this)
  · intro h
    have := real_lt (v := 0x469C4000#32) (w := 0x469C4001#32) (by decide +kernel)
    rw [real_20000] at this
    exact absurd h.2.2.1 (not_le.2 this)
  · rintro ⟨-, -, -, h⟩
    rw [real_eq (w := 0x461C4000#32) 10000 (by decide +kernel), real_eq (w := 0x459C4000#32) 5000 (by decide +kernel)] at h
    norm_num at h
  · intro h
    have := h.2.1
    rw [real_0] at this
    norm_num at this

/-- The completion step comes next at the end of the order and at a sequencer's turn. -/
theorem next_completion : Claims.completionNext busy ∧ Claims.completionNext (one .sequencerTurn busy) :=
  ⟨⟨rfl, .inl rfl⟩, ⟨rfl, .inr ⟨[], rfl⟩⟩⟩

theorem wit_JobAborts : Claims.completionNext { busy with snap := { ParamSet.reset with peakQ := 0 } } ∧
    paramCheck ({ busy with snap := { ParamSet.reset with peakQ := 0 } } : State).snap busy.fsL = some 0x058#32 ∧
    Claims.notFinite { Coefs.identity with a2 := 0x7F800000#32 } :=
  ⟨⟨rfl, .inl rfl⟩, by decide +kernel, .inr (.inr (.inr (.inr (by decide +kernel))))⟩

/-- All four sections of both cascades, a block of one frame, a byte past it in each buffer, and an empty block. -/
theorem wit_JobCommits : Claims.completionNext busy ∧ paramCheck busy.snap busy.fsL = none ∧ finiteCheck (factorySets busy) = true ∧
    finiteCheck (factorySets { busy with snap := { ParamSet.reset with lowCutSlope := 3#2, highCutSlope := 3#2 } }) = true ∧
    busy.lenL.toNat ≤ 16384 ∧
    (∀ a ∈ [0x10004, 0x20004], ∀ c ∈ [Channel.left, .right], ¬(bufAddr c 0 ≤ a ∧ a < bufAddr c busy.lenL.toNat)) ∧
    (∀ c ∈ [Channel.left, .right], ¬(bufAddr c 0 ≤ 0x10000 ∧ 0x10000 < bufAddr c ({ busy with lenL := 0#32 } : State).lenL.toNat)) :=
  ⟨next_completion.1, by decide +kernel, by decide +kernel, by decide +kernel, by decide +kernel, by decide +kernel, by decide +kernel⟩

/-- A job of two frames pending, the first that of `busy`. -/
def whole : State :=
  { busy with
    lenL := 2#32
    mem := bufWrite (bufWrite busy.mem .left 1 0x40000000#32) .right 1 0xBF800000#32 }

/-- A job pending on the second frame of `whole`, with the coefficients, counts and histories that the job of `busy` leaves. -/
def rest : State :=
  { busy with
    mem := bufWrite (bufWrite [] .left 0 0x40000000#32) .right 0 0xBF800000#32
    coefs := (job busy).coefs
    lcActive := (job busy).lcActive
    hcActive := (job busy).hcActive
    histLeft := (job busy).histLeft
    histRight := (job busy).histRight }

/-- A job on two frames of each channel, and two jobs on one frame each, the second from what the first left. -/
theorem wit_RepeatedCommitAndBlockSplit : ∃ s u v s' u' v' : State,
    Claims.completionNext s ∧ Claims.completionNext u ∧ Claims.completionNext v ∧
    step s = .next s' ∧ step u = .next u' ∧ step v = .next v' ∧ Claims.sameSetup s u ∧ Claims.sameSetup s v ∧
    u.coefs = s.coefs ∧ v.coefs = u'.coefs ∧ v.lcActive = u'.lcActive ∧ v.hcActive = u'.hcActive ∧
    s.lenL.toNat = u.lenL.toNat + v.lenL.toNat ∧ s.lenL.toNat ≤ 16384 ∧
    (∀ ch, u.hist ch = s.hist ch) ∧ (∀ ch, v.hist ch = u'.hist ch) ∧
    (∀ ch, Claims.block s ch s.lenL.toNat = Claims.block u ch u.lenL.toNat ++ Claims.block v ch v.lenL.toNat) := by
  refine ⟨whole, busy, rest, _, job busy, _, ⟨rfl, .inl rfl⟩, ⟨rfl, .inl rfl⟩, ⟨rfl, .inl rfl⟩,
    step_of_completion rfl (.inl rfl), step_of_completion (s := busy) rfl (.inl rfl), step_of_completion rfl (.inl rfl),
    ⟨rfl, rfl, rfl⟩, ⟨rfl, rfl, rfl⟩, rfl, by simp only [rest], by simp only [rest], by simp only [rest], rfl, ?_,
    fun ch => by cases ch <;> rfl, fun ch => by cases ch <;> simp only [State.hist, rest], fun ch => ?_⟩
  · show (2#32).toNat ≤ 16384
    decide
  · cases ch <;> decide +kernel

theorem wit_StreamingRefinesPureChain : ({ busy with lenL := 0#32 } : State).lenL.toNat ≤ 16384 ∧
    ({ busy with lenL := 16384#32 } : State).lenL.toNat ≤ 16384 ∧
    (∀ c ∈ [Channel.left, .right], ¬(bufAddr c 0 ≤ 0x10004 ∧ 0x10004 < bufAddr c busy.lenL.toNat)) := by decide +kernel

/-- Equal histories and equal blocks of one frame, and the step's answer. -/
theorem wit_StereoLinkage : Claims.completionNext busy ∧ busy.lenL.toNat ≤ 16384 ∧
    (∀ n : Fin 9, (busy.hist .left).get n = (busy.hist .right).get n) ∧
    (∀ n < busy.lenL.toNat, busy.buf .left n = busy.buf .right n) ∧ ∃ t, step busy = .next t :=
  ⟨next_completion.1, by decide +kernel, by decide +kernel, by decide +kernel, _, rfl⟩

/-- A command, a register write and a refused access in BUSY. -/
theorem wit_TransactionsDoNotDisturbJob : busy.seq = .busy ∧
    ([0x004, 0x054, 0x10000] : List Word).Forall fun off =>
      (next (busStep { kind := .write, off := off, wdata := 1#32, be := 0b1111#4 } busy)).isSome = true := by decide +kernel

theorem wit_PendingJobCompletes : busy.seq = .busy ∧ .resetInput ∉ busy.inputs ∧
    .resetInput ∉ ({ busy with inputs := [Claims.write 4 3, .sequencerTurn] } : State).inputs := by decide +kernel

theorem wit_ResetStepValues : (one .resetInput busy).inputs = .resetInput :: [] := rfl

theorem wit_ResetDiscardsPendingJob : busy.seq = .busy ∧
    ({ busy with inputs := [.resetInput, .sequencerTurn] } : State).inputs = .resetInput :: .sequencerTurn :: [] := ⟨rfl, rfl⟩

theorem wit_InvariantAtReset : Params.reference.wf = true ∧
    Params.wf { Params.reference with bufFrames := 16384, coefTolUlp := 3, ftz := true, baseAddr := 0xFFFC0000#32 } = true := by decide +kernel

/-- The state in which a job is pending meets the invariant, and its completion step answers. -/
theorem wit_InvariantKeptByStep : busy.Inv ∧ ∃ t, step busy = .next t := by
  refine ⟨⟨by decide +kernel, by decide +kernel, ?_, by decide +kernel, by decide +kernel, ?_, by decide +kernel, by decide +kernel, by decide +kernel, by decide +kernel, ?_, ?_⟩, _, rfl⟩
  · have key : ∀ c ∈ busy.mem, (0x10000 ≤ c.1 ∧ c.1 < 0x10000 + 4 * busy.params.bufFrames) ∨
        (0x20000 ≤ c.1 ∧ c.1 < 0x20000 + 4 * busy.params.bufFrames) := by decide +kernel
    exact key
  · intro c h
    cases c <;> exact absurd rfl h
  · exact fun _ => ⟨by decide +kernel, by decide +kernel, by decide +kernel, by decide +kernel⟩
  · exact fun _ => by decide +kernel

/-- STATE leaves READY by RELEASE, BUSY by the completion step, and any state by a reset. -/
theorem wit_WhatChangesState :
    (step (wr 4 2 ready) = .next { ready with seq := .unprepared } ∧ ready.seq = .ready ∧ Claims.commandNext (wr 4 2 ready) 2#32) ∧
    ((next (step (one .resetInput ready))).map State.seq = some .unprepared ∧ Claims.resetNext (one .resetInput ready)) ∧
    (step busy = .next (job (busy.begin busy.inputs.tail)) ∧ (job (busy.begin busy.inputs.tail)).seq = .ready ∧
      Claims.completionNext busy) :=
  ⟨⟨rfl, rfl, [], rfl⟩, ⟨by decide, [], rfl⟩, ⟨step_of_completion rfl (.inl rfl), job_seq _, next_completion.1⟩⟩

/-- A PREPARE, a completion step and a reset each change what the statement speaks of. -/
theorem wit_WhatChangesTheStream :
    (next (step (wr 4 1 { configured with blockCount := 3#32 }))).map State.blockCount = some 0#32 ∧
    (next (step busy)).map (fun s => (s.blockCount, s.lcActive)) = some (1#32, 1#3) ∧ busy.lcActive = 0#3 ∧
    (next (step (one .resetInput { ready with hcActive := 1#3 }))).map State.hcActive = some 0#3 :=
  ⟨by decide +kernel, by decide +kernel, rfl, by decide +kernel⟩

end Sys2Proof.Tests
end

section
/-! Binary32 words as real numbers and rounding to nearest, ties to even (00_scope.md R10): the value of a word by its fields, the
grid that finite values lie on, and what `rnd32` of a real is on that grid. -/

namespace Sys2Proof.Machine

/-! ### The value of a word -/

theorem f32Frac_lt (w : Word) : f32Frac w < 2 ^ 23 := (w.extractLsb' 0 23).isLt

theorem real_eq_sign_mul_mag (w : Word) : Claims.real w = (if w.msb then -1 else 1) * ((f32Mag w : ℝ) / 2 ^ 149) := by
  unfold Claims.real f32Units f32Sign
  split <;> push_cast <;> ring

theorem abs_real (w : Word) : |Claims.real w| = (f32Mag w : ℝ) / 2 ^ 149 := by
  rw [real_eq_sign_mul_mag, abs_mul, abs_of_nonneg (a := (f32Mag w : ℝ) / 2 ^ 149) (by positivity)]
  split <;> simp

/-- Settles O33: the two cases of `f32Mag`, its powers of two brought together with 2^-149. -/
theorem realValueOfWord : Obligations.RealValueOfWord := by
  intro w _
  rw [real_eq_sign_mul_mag]
  congr 1
  change (f32Mag w : ℝ) / 2 ^ 149 =
    if f32Exp w = 0 then (f32Frac w : ℝ) * 2 ^ (-149 : ℤ) else (2 ^ 23 + f32Frac w) * 2 ^ (f32Exp w - 150 : ℤ)
  unfold f32Mag
  by_cases h : f32Exp w = 0
  · rw [if_pos h, if_pos h, zpow_neg, ← div_eq_mul_inv]
    norm_cast
  · obtain ⟨k, hk⟩ := Nat.exists_eq_succ_of_ne_zero h
    have hpow : (2 : ℝ) ^ ((k + 1 : ℕ) - 150 : ℤ) = 2 ^ k / 2 ^ 149 := by
      rw [show ((k + 1 : ℕ) - 150 : ℤ) = (k : ℤ) - (149 : ℕ) by push_cast; ring, zpow_sub₀ two_ne_zero, zpow_natCast,
        zpow_natCast]
    rw [if_neg h, if_neg h, hk, hpow, Nat.succ_sub_one]
    push_cast
    ring

/-- From 2^23 steps of 2^e units on, every magnitude of a word is a whole number of steps; one that is not lies at least half a
step below 2^23 of them. -/
theorem dvd_f32Mag_or_le (w : Word) (e : ℕ) : 2 ^ e ∣ f32Mag w ∨ 0 < e ∧ 2 * f32Mag w + 2 ^ e ≤ 2 ^ 24 * 2 ^ e := by
  have hf := f32Frac_lt w
  have hone := Nat.one_le_two_pow (n := e)
  unfold f32Mag
  split
  · rcases Nat.eq_zero_or_pos e with rfl | he
    · exact .inl (one_dvd _)
    · exact .inr ⟨he, by omega⟩
  · rcases le_or_gt e (f32Exp w - 1) with he | he
    · exact .inl ((pow_dvd_pow 2 he).mul_left _)
    · refine .inr ⟨by omega, ?_⟩
      calc 2 * ((2 ^ 23 + f32Frac w) * 2 ^ (f32Exp w - 1)) + 2 ^ e
          = (2 ^ 23 + f32Frac w) * 2 ^ (f32Exp w - 1 + 1) + 2 ^ e := by ring
        _ ≤ (2 ^ 24 - 1) * 2 ^ e + 2 ^ e := by
          gcongr
          · omega
          · exact one_le_two
          · exact he
        _ = 2 ^ 24 * 2 ^ e := by ring

/-- A significand `m` of at most 2^24 units 2^e, normal where e is above 0, packs as `e * 2^23 + m`, subnormal, normal and carried
alike. -/
theorem f32Mag_pack (s : Bool) {e m : ℕ} (hm : m ≤ 2 ^ 24) (he : e = 0 ∨ 2 ^ 23 ≤ m) (hb : e * 2 ^ 23 + m < 2 ^ 31) :
    f32Mag (f32Pack s (e * 2 ^ 23 + m)) = m * 2 ^ e := by
  obtain ⟨hexp, hfrac, -⟩ := f32Pack_fields s hb
  unfold f32Mag
  rw [hexp, hfrac]
  rcases lt_or_ge m (2 ^ 23) with hsub | hnorm
  · obtain rfl : e = 0 := by omega
    rw [if_pos (by omega), pow_zero]
    omega
  rw [if_neg (by omega)]
  rcases hm.lt_or_eq with hlt | rfl
  · rw [show (e * 2 ^ 23 + m) / 2 ^ 23 - 1 = e by omega, show 2 ^ 23 + (e * 2 ^ 23 + m) % 2 ^ 23 = m by omega]
  · rw [show (e * 2 ^ 23 + 2 ^ 24) / 2 ^ 23 - 1 = e + 1 by omega, show (e * 2 ^ 23 + 2 ^ 24) % 2 ^ 23 = 0 by omega]
    ring

theorem f32IsFinite_pack (s : Bool) {m : ℕ} (hm : m ≤ f32InfBits) : f32IsFinite (f32Pack s m) = true ↔ m < f32InfBits := by
  unfold f32InfBits at *
  unfold f32IsFinite
  rw [(f32Pack_fields s (by omega)).1, bne_iff_ne]
  omega

/-! ### To the nearest whole number -/

theorem abs_sub_roundHalfEvenReal_le_half {y : ℝ} (hy : 0 ≤ y) : |y - roundHalfEvenReal y| ≤ 1 / 2 := by
  have h1 := Nat.floor_le hy
  have h2 := Nat.lt_floor_add_one y
  unfold roundHalfEvenReal
  split
  · next h =>
    have : 1 / 2 ≤ y - ⌊y⌋₊ := h.elim le_of_lt fun h => h.1.ge
    push_cast
    exact abs_le.2 ⟨by linarith, by linarith⟩
  · next h =>
    have : y - ⌊y⌋₊ ≤ 1 / 2 := not_lt.1 fun hlt => h (.inl hlt)
    exact abs_le.2 ⟨by linarith, this⟩

/-- Halfway between two whole numbers the even one is taken. -/
theorem roundHalfEvenReal_even {y : ℝ} (hy : 0 ≤ y) (h : |y - roundHalfEvenReal y| = 1 / 2) :
    roundHalfEvenReal y % 2 = 0 := by
  have h1 := Nat.floor_le hy
  have h2 := Nat.lt_floor_add_one y
  unfold roundHalfEvenReal at h ⊢
  split at h
  · next hup =>
    rw [if_pos hup]
    push_cast at h
    have : y - ⌊y⌋₊ = 1 / 2 := by
      rw [abs_of_neg (by linarith)] at h
      linarith
    obtain hlt | ⟨-, hodd⟩ := hup
    · exact absurd this hlt.ne'
    · omega
  · next hdown =>
    rw [if_neg hdown]
    rw [abs_of_nonneg (sub_nonneg.2 h1)] at h
    by_contra hodd
    exact hdown (.inr ⟨h, by omega⟩)

/-- Every whole number but the one rounded to is at least a half away. -/
theorem half_le_abs_sub {y : ℝ} (hy : 0 ≤ y) {k : ℕ} (hk : k ≠ roundHalfEvenReal y) : 1 / 2 ≤ |y - k| := by
  have h := abs_sub_roundHalfEvenReal_le_half hy
  have hone : (1 : ℝ) ≤ |(roundHalfEvenReal y : ℝ) - k| := by
    have : (1 : ℤ) ≤ |(roundHalfEvenReal y : ℤ) - k| := Int.one_le_abs (by omega)
    exact_mod_cast this
  have := abs_sub_le (roundHalfEvenReal y : ℝ) y k
  rw [abs_sub_comm _ y] at this
  linarith

/-! ### To the nearest value of the grid -/

/-- The exponent of the unit in the last place of a nonnegative real, in units of 2^-149. -/
noncomputable def realUlpExp (v : ℝ) : ℕ := ulpExponent ⌊v * 2 ^ 149⌋₊

/-- A nonnegative real as a number of its units in the last place. -/
noncomputable def realInUlps (v : ℝ) : ℝ := v * 2 ^ 149 / 2 ^ realUlpExp v

/-- The significand a nonnegative real is rounded to: a whole number of its units in the last place. -/
noncomputable def realSignificand (v : ℝ) : ℕ := roundHalfEvenReal (realInUlps v)

theorem roundBitsReal_eq (v : ℝ) : roundBitsReal v = min (realUlpExp v * 2 ^ 23 + realSignificand v) f32InfBits := rfl

theorem realInUlps_nonneg {v : ℝ} (hv : 0 ≤ v) : 0 ≤ realInUlps v := by
  unfold realInUlps
  positivity

theorem realInUlps_lt (v : ℝ) : realInUlps v < 2 ^ 24 := scaled_lt v

theorem le_realInUlps {v : ℝ} (hv : 0 ≤ v) (he : 0 < realUlpExp v) : 2 ^ 23 ≤ realInUlps v := le_scaled hv he

theorem realSignificand_le {v : ℝ} (hv : 0 ≤ v) : realSignificand v ≤ 2 ^ 24 := by
  have : ⌊realInUlps v⌋₊ < 2 ^ 24 := (Nat.floor_lt (realInUlps_nonneg hv)).2 (by exact_mod_cast realInUlps_lt v)
  exact (roundHalfEvenReal_le _).trans this

theorem le_realSignificand {v : ℝ} (hv : 0 ≤ v) : realUlpExp v = 0 ∨ 2 ^ 23 ≤ realSignificand v := by
  rcases Nat.eq_zero_or_pos (realUlpExp v) with he | he
  · exact .inl he
  · exact .inr ((Nat.le_floor (by exact_mod_cast le_realInUlps hv he)).trans (floor_le_roundHalfEvenReal _))

theorem realSignificand_zero : realSignificand 0 = 0 := by simp [realSignificand, realInUlps, roundHalfEvenReal]

theorem abs_sub_realSignificand_le {v : ℝ} (hv : 0 ≤ v) : |realInUlps v - realSignificand v| ≤ 1 / 2 :=
  abs_sub_roundHalfEvenReal_le_half (realInUlps_nonneg hv)

/-- A distance from a real, measured in its units in the last place. -/
theorem abs_sub_eq_ulps (v x : ℝ) :
    |v - x / 2 ^ 149| = |realInUlps v - x / 2 ^ realUlpExp v| * (2 ^ realUlpExp v / 2 ^ 149) := by
  rw [← abs_of_pos (a := (2 : ℝ) ^ realUlpExp v / 2 ^ 149) (by positivity), ← abs_mul]
  unfold realInUlps
  congr 1
  field_simp

/-- Every value of a word but the one rounded to is at least half a unit in the last place away. -/
theorem half_ulp_le_abs_sub_mag {v : ℝ} (hv : 0 ≤ v) (u : Word) (hu : f32Mag u ≠ realSignificand v * 2 ^ realUlpExp v) :
    1 / 2 ≤ |realInUlps v - f32Mag u / 2 ^ realUlpExp v| := by
  rcases dvd_f32Mag_or_le u (realUlpExp v) with ⟨k, hk⟩ | ⟨he, hlow⟩
  · have hne : k ≠ realSignificand v := fun h => hu (by rw [hk, h, mul_comm])
    have hval : (f32Mag u : ℝ) / 2 ^ realUlpExp v = k := by
      rw [hk, div_eq_iff (by positivity)]
      push_cast
      ring
    rw [hval]
    exact half_le_abs_sub (realInUlps_nonneg hv) hne
  · have hy := le_realInUlps hv he
    have hmag : (f32Mag u : ℝ) / 2 ^ realUlpExp v ≤ 2 ^ 23 - 1 / 2 := by
      rw [div_le_iff₀ (by positivity)]
      have : (2 : ℝ) * f32Mag u + 2 ^ realUlpExp v ≤ 2 ^ 24 * 2 ^ realUlpExp v := by exact_mod_cast hlow
      linarith
    exact le_trans (by linarith) (le_abs_self _)

/-- No word's value is nearer to a nonnegative real than its significand, and one as near leaves the significand even. -/
theorem significand_nearest {v : ℝ} (hv : 0 ≤ v) (u : Word) :
    |v - (realSignificand v * 2 ^ realUlpExp v : ℕ) / 2 ^ 149| ≤ |v - f32Mag u / 2 ^ 149| ∧
    (|v - (realSignificand v * 2 ^ realUlpExp v : ℕ) / 2 ^ 149| = |v - f32Mag u / 2 ^ 149| →
      f32Mag u ≠ realSignificand v * 2 ^ realUlpExp v → realSignificand v % 2 = 0) := by
  by_cases hu : f32Mag u = realSignificand v * 2 ^ realUlpExp v
  · rw [hu]
    exact ⟨le_rfl, fun _ h => absurd rfl h⟩
  have hpos : (0 : ℝ) < 2 ^ realUlpExp v / 2 ^ 149 := by positivity
  have hm : ((realSignificand v * 2 ^ realUlpExp v : ℕ) : ℝ) / 2 ^ realUlpExp v = realSignificand v := by
    push_cast
    exact mul_div_cancel_right₀ _ (by positivity)
  have hnear := abs_sub_realSignificand_le hv
  have hfar := half_ulp_le_abs_sub_mag hv u hu
  rw [abs_sub_eq_ulps, abs_sub_eq_ulps, hm]
  refine ⟨mul_le_mul_of_nonneg_right (hnear.trans hfar) hpos.le, fun htie _ => ?_⟩
  have := mul_right_cancel₀ hpos.ne' htie
  exact roundHalfEvenReal_even (realInUlps_nonneg hv) (hnear.antisymm (by rwa [this]))

/-! ### `rnd32` of a real -/

theorem rnd32Real_isFinite (v : ℝ) :
    f32IsFinite (rnd32Real v) = true ↔ realUlpExp |v| * 2 ^ 23 + realSignificand |v| < f32InfBits := by
  unfold rnd32Real
  rw [f32IsFinite_pack _ (roundBitsReal_le _), roundBitsReal_eq, min_lt_iff, or_iff_left (lt_irrefl _)]

/-- A finite `rnd32` is the real's significand, as a value and in the parity of its fraction. -/
theorem rnd32Real_of_isFinite {v : ℝ} (h : f32IsFinite (rnd32Real v) = true) :
    f32Mag (rnd32Real v) = realSignificand |v| * 2 ^ realUlpExp |v| ∧
    f32Frac (rnd32Real v) % 2 = realSignificand |v| % 2 := by
  rw [rnd32Real_isFinite] at h
  have hb : realUlpExp |v| * 2 ^ 23 + realSignificand |v| < 2 ^ 31 := h.trans (by decide)
  unfold rnd32Real
  rw [roundBitsReal_eq, min_eq_left h.le]
  refine ⟨f32Mag_pack _ (realSignificand_le (abs_nonneg v)) (le_realSignificand (abs_nonneg v)) hb, ?_⟩
  rw [(f32Pack_fields _ hb).2.1]
  omega

theorem rnd32Real_msb (v : ℝ) : (rnd32Real v).msb = (decide (v < 0) && roundBitsReal |v| != 0) :=
  (f32Pack_fields _ ((roundBitsReal_le _).trans_lt (by decide))).2.2

/-- `rnd32` keeps the side of zero, so its error is the error of the magnitudes. -/
theorem abs_sub_real_rnd32Real {v : ℝ} (h : f32IsFinite (rnd32Real v) = true) :
    |v - Claims.real (rnd32Real v)| = |(|v|) - (realSignificand |v| * 2 ^ realUlpExp |v| : ℕ) / 2 ^ 149| := by
  rw [real_eq_sign_mul_mag, (rnd32Real_of_isFinite h).1, rnd32Real_msb]
  rcases le_or_gt 0 v with hv | hv
  · simp [not_lt.2 hv, abs_of_nonneg hv]
  · by_cases hm : realSignificand |v| = 0
    · simp [hm]
    · have hbits : roundBitsReal |v| ≠ 0 := by
        rw [roundBitsReal_eq, min_eq_left ((rnd32Real_isFinite v).1 h).le]
        omega
      rw [decide_eq_true hv, bne_iff_ne.2 hbits, Bool.and_self, if_pos rfl, abs_of_neg hv, neg_one_mul, sub_neg_eq_add,
        ← abs_neg, neg_add']

/-- `rnd32` of a real is nearest: the error is the magnitudes', and a word's distance is at least its magnitude's. A tie with the
word of the other sign would be a tie about zero. -/
theorem rnd32Real_nearest {v : ℝ} (u : Word) (h : f32IsFinite (rnd32Real v) = true) :
    |v - Claims.real (rnd32Real v)| ≤ |v - Claims.real u| ∧
    (|v - Claims.real (rnd32Real v)| = |v - Claims.real u| → Claims.real u ≠ Claims.real (rnd32Real v) →
      f32Frac (rnd32Real v) % 2 = 0) := by
  obtain ⟨hmag, hfrac⟩ := rnd32Real_of_isFinite h
  obtain ⟨hnear, heven⟩ := significand_nearest (abs_nonneg v) u
  have herr := abs_sub_real_rnd32Real h
  have hmags : |(|v|) - (f32Mag u : ℝ) / 2 ^ 149| ≤ |v - Claims.real u| := abs_real u ▸ abs_abs_sub_abs_le v _
  rw [← herr] at hnear heven
  refine ⟨hnear.trans hmags, fun htie hne => ?_⟩
  rw [hfrac]
  refine heven (hnear.antisymm (htie ▸ hmags)) fun hu => hne ?_
  have habs : |Claims.real u| = |Claims.real (rnd32Real v)| := by rw [abs_real, abs_real, hu, hmag]
  obtain heq | hopp := abs_eq_abs.1 habs
  · exact heq
  · rw [hopp, sub_neg_eq_add] at htie
    have hzero : Claims.real (rnd32Real v) = 0 := by
      obtain hr | hv := abs_eq_abs.1 htie
      · linarith
      · obtain rfl : v = 0 := by linarith
        rw [← abs_eq_zero, abs_real, hmag, abs_zero, realSignificand_zero]
        simp
    rw [hopp, hzero, neg_zero]

/-- Settles O34: `rnd32` of a rational is `rnd32` of the real it is, which is nearest among all words. -/
theorem roundingIsNearestEven : Obligations.RoundingIsNearestEven := by
  intro n d u hd hfin _
  rw [rnd32_eq_real n hd] at hfin ⊢
  exact rnd32Real_nearest u hfin

/-- A real that rounds past the greatest finite significand is at least the halfway point: its unit in the last place is 2^254
units of 2^-149 or more, or is 2^253 of them and the real is within half of it of 2^24 times it. -/
theorem rnd32Real_isFinite_of_lt {v : ℝ} (h : |v| < (2 ^ 25 - 1) * 2 ^ 103) : f32IsFinite (rnd32Real v) = true := by
  have hv := abs_nonneg v
  have hm := realSignificand_le hv
  rw [rnd32Real_isFinite]
  by_contra hinf
  refine absurd h (not_lt.2 ?_)
  unfold f32InfBits at hinf
  have hunits : |v| * 2 ^ 149 = realInUlps |v| * 2 ^ realUlpExp |v| := (div_mul_cancel₀ _ (by positivity)).symm
  refine le_of_mul_le_mul_right (hunits ▸ ?_) (show (0 : ℝ) < 2 ^ 149 by positivity)
  rcases le_or_gt 254 (realUlpExp |v|) with he | he
  · calc ((2 : ℝ) ^ 25 - 1) * 2 ^ 103 * 2 ^ 149 ≤ 2 ^ 23 * 2 ^ 254 := by norm_num
      _ ≤ realInUlps |v| * 2 ^ realUlpExp |v| :=
        mul_le_mul (le_realInUlps hv (by omega)) (pow_le_pow_right₀ one_le_two he) (by positivity) (realInUlps_nonneg hv)
  · obtain ⟨he', hm'⟩ : realUlpExp |v| = 253 ∧ realSignificand |v| = 2 ^ 24 := by omega
    have hnear := (abs_le.1 (abs_sub_realSignificand_le hv)).1
    rw [hm'] at hnear
    push_cast at hnear
    rw [he']
    calc ((2 : ℝ) ^ 25 - 1) * 2 ^ 103 * 2 ^ 149 = (2 ^ 24 - 1 / 2) * 2 ^ 253 := by norm_num
      _ ≤ realInUlps |v| * 2 ^ 253 := mul_le_mul_of_nonneg_right (by linarith) (by positivity)

/-- Rounding is monotone, and the halfway point itself rounds to infinity. -/
theorem roundBitsReal_of_le {v : ℝ} (h : (2 ^ 25 - 1) * 2 ^ 103 ≤ v) : roundBitsReal v = f32InfBits := by
  have hbits : roundBitsReal ((2 ^ 25 - 1) * 2 ^ 103) = f32InfBits := by
    rw [← show roundBits ((2 ^ 25 - 1) * 2 ^ 103) 1 = f32InfBits by decide +kernel, roundBits_eq_real _ one_pos]
    norm_num
  exact (roundBitsReal_le v).antisymm (hbits ▸ roundBitsReal_mono (by norm_num) h)

/-- Settles O35: from the halfway point on the bits are infinity's, and the sign is the value's; below it the significand fits. -/
theorem roundingOverflow : Obligations.RoundingOverflow := by
  intro n d hd
  rw [rnd32_eq_real n hd]
  refine ⟨fun h => ?_, fun h => ?_, rnd32Real_isFinite_of_lt⟩
  · have hv : (0 : ℝ) ≤ (n : ℝ) / d := le_trans (by norm_num) h
    unfold rnd32Real
    rw [abs_of_nonneg hv, roundBitsReal_of_le h, decide_eq_false (not_lt.2 hv)]
    rfl
  · have hv : (n : ℝ) / d < 0 := lt_of_le_of_lt h (by norm_num)
    unfold rnd32Real
    rw [abs_of_neg hv, roundBitsReal_of_le (le_neg_of_le_neg h), decide_eq_true hv]
    rfl

end Sys2Proof.Machine
end

section
/-! The invariant of the state (10_state.md R24, R28): what each effect of a step leaves meets `State.Inv` if the state before it does.
One lemma for each operation of the model, put together along the effects of commands, stores and steps. -/

namespace Sys2Proof.Machine

/-! ### Error causes -/

theorem ErrCause.code_ne_zero (c : ErrCause) : c.code ≠ 0#4 := by cases c <;> decide

theorem ErrCause.code_le (c : ErrCause) : c.code.toNat ≤ 7 := by cases c <;> decide

theorem ErrCause.bit_ne_zero (c : ErrCause) : c.bit ≠ 0#7 := by cases c <;> decide

/-- Different causes have different ERR bits (60_exceptions.md R230). -/
theorem ErrCause.eq_of_bit_and_bit {c c' : ErrCause} : c.bit &&& c'.bit ≠ 0#7 → c = c' := by
  cases c <;> cases c' <;> decide

/-- The ERR bits a raise leaves: those that were set, and its own. -/
theorem errs_or_bit_and_bit {errs : BitVec 7} {c c' : ErrCause} (h : (errs ||| c.bit) &&& c'.bit ≠ 0#7) :
    errs &&& c'.bit ≠ 0#7 ∨ c = c' := by
  rw [BitVec.and_or_distrib_right, ne_eq, BitVec.or_eq_zero_iff, not_and_or] at h
  exact h.imp_right ErrCause.eq_of_bit_and_bit

/-- An ERR bit that is set after some were cleared was set before. -/
theorem and_bit_ne_zero_of_and {errs m b : BitVec 7} (h : errs &&& m &&& b ≠ 0#7) : errs &&& b ≠ 0#7 := by
  intro h0
  rw [BitVec.and_assoc, BitVec.and_comm m, ← BitVec.and_assoc, h0, BitVec.zero_and] at h
  exact h rfl

/-! ### Errors, STATUS and registers -/

section Keeps

variable {s t : State}

theorem inv_begin (h : s.Inv) (rest : List Input) : (s.begin rest).Inv := { h with }

theorem inv_rdata (h : s.Inv) (d : Option Word) : { s with rdata := d }.Inv := { h with }

theorem inv_raise (h : s.Inv) (c : ErrCause) (info : Word) : (raise c info s).Inv :=
  { h with
    firstErr := by
      have hne : s.errs ||| c.bit ≠ 0#7 := fun h0 => c.bit_ne_zero (BitVec.or_eq_zero_iff.1 h0).2
      rw [raise_firstErr, raise_errs]
      split
      · exact iff_of_false c.code_ne_zero hne
      · next he => exact iff_of_false (h.firstErr.not.2 he) hne
    firstErrCode := by
      rw [raise_firstErr]
      split
      · exact c.code_le
      · exact h.firstErrCode
    recorded := fun c' hc => by
      rw [raise_faults, List.mem_append, List.mem_singleton]
      exact (errs_or_bit_and_bit hc).imp (h.recorded c') Eq.symm }

theorem inv_statusWrite (h : s.Inv) (v : Word) : (statusWrite v s).Inv :=
  { h with
    firstErr := by
      rw [statusWrite_firstErr, statusWrite_errs]
      split
      · next he => exact iff_of_true rfl he
      · next he =>
        refine iff_of_false (h.firstErr.not.2 fun h0 => he ?_) he
        rw [h0, BitVec.zero_and]
    firstErrCode := by
      rw [statusWrite_firstErr]
      split
      · exact Nat.zero_le 7
      · exact h.firstErrCode
    recorded := fun c hc => h.recorded c (and_bit_ne_zero_of_and hc) }

theorem inv_regWrite (h : s.Inv) (v : Word) (r : Reg) : (regWrite v s r).Inv := by
  cases r with
  | status => exact inv_statusWrite h v
  | _ => exact { h with }

/-! ### The buffers' memory -/

/-- A byte of one of the first `n` sample words of a channel is a byte of the buffers. -/
theorem inBuffers_of_lt {ch : Channel} {n a : ℕ} (h1 : bufAddr ch 0 ≤ a) (h2 : a < bufAddr ch n) : inBuffers n a := by
  unfold inBuffers
  cases ch
  · left; simp only [bufAddr, Channel.bufBase] at h1 h2; omega
  · right; simp only [bufAddr, Channel.bufBase] at h1 h2; omega

theorem bufAddr_mono (ch : Channel) {m n : ℕ} (h : m ≤ n) : bufAddr ch m ≤ bufAddr ch n := by
  unfold bufAddr; omega

/-- Only sample words are stored by a buffer write (20_memory.md R79). -/
theorem inv_bufWrite (h : s.Inv) (ch : Channel) {i : ℕ} (hi : i < s.params.bufFrames) (v : Word) :
    { s with mem := bufWrite s.mem ch i v }.Inv :=
  { h with
    memory := bufWrite_wf h.memory ch i v
    stored := fun c hc => by
      rcases mem_memSetWord hc with ⟨h1, h2⟩ | hc
      · exact inBuffers_of_lt ((bufAddr_mono ch i.zero_le).trans h1)
          (h2.trans_le (bufAddr_add ch i 1 ▸ bufAddr_mono ch hi))
      · exact h.stored c hc }

theorem inv_of_storeEffect {off v : Word} (h : s.Inv) (e : StoreEffect off v s t) : t.Inv := by
  cases e with
  | none => exact h
  | refused => exact inv_raise h _ _
  | register r _ => exact inv_regWrite h v r
  | buffer ch i hi _ => exact inv_bufWrite h ch hi v

/-! ### Reset and commands -/

theorem CoefBank.identity_finite (i : Fin 9) : (CoefBank.identity.get i).finite = true := by
  rw [CoefBank.identity, Vector.get_replicate]
  decide

/-- The fault record survives a reset (60_exceptions.md R246), and no ERR bit is set after one. -/
theorem inv_resetStep (h : s.Inv) : (resetStep s).Inv where
  params := h.params
  memory := .nil
  stored := nofun
  firstErr := iff_of_true rfl rfl
  firstErrCode := Nat.zero_le 7
  recorded := fun _ hc => absurd BitVec.zero_and hc
  lcCount := Nat.zero_le 4
  hcCount := Nat.zero_le 4
  counts := Iff.rfl
  bank := CoefBank.identity_finite
  prepared := fun hs => absurd rfl hs
  pending := nofun

theorem prepareOk_iff : prepareOk s = true ↔
    f32IsFinite s.sampleRate = true ∧ 0 < f32Units s.sampleRate ∧
      1 ≤ s.maxBlock.toNat ∧ s.maxBlock.toNat ≤ s.params.bufFrames := by
  simp only [prepareOk, Bool.and_eq_true, decide_eq_true_iff, and_assoc]

theorem inv_prepareStream (h : s.Inv) (ho : prepareOk s = true) : (prepareStream s).Inv :=
  { h with
    lcCount := Nat.zero_le 4
    hcCount := Nat.zero_le 4
    counts := Iff.rfl
    bank := CoefBank.identity_finite
    prepared := fun _ => prepareOk_iff.1 ho
    pending := nofun }

theorem inv_releaseBody (h : s.Inv) : (releaseBody s).Inv :=
  { h with
    prepared := fun hs => absurd rfl hs
    pending := nofun }

theorem inv_processAccepted (h : s.Inv) (hr : s.seq = .ready) (hl : processLenOk s = true) : (processAccepted s).Inv :=
  { h with
    prepared := fun _ => h.prepared (by rw [hr]; decide)
    pending := fun _ => of_decide_eq_true hl }

theorem inv_of_commandEffect {i : Instr} (h : s.Inv) (e : CommandEffect i s t) : t.Inv := by
  cases e with
  | none _ => exact h
  | refused c info _ => exact inv_raise h c info
  | prepared _ _ ho => exact inv_prepareStream h ho
  | released _ _ => exact inv_releaseBody h
  | accepted _ hr hl => exact inv_processAccepted h hr hl

/-! ### The job -/

/-- The section count of a slope, in its 3-bit field (30_encoding.md R104). -/
theorem slopeSections_toNat (c : BitVec 2) : (BitVec.ofNat 3 (slopeSections c)).toNat = c.toNat + 1 := by
  have := c.isLt
  rw [BitVec.toNat_ofNat, slopeSections, Nat.mod_eq_of_lt (by omega)]

theorem slopeSections_le (c : BitVec 2) : (BitVec.ofNat 3 (slopeSections c)).toNat ≤ 4 := by
  rw [slopeSections_toNat]
  exact c.isLt

theorem slopeSections_ne_zero (c : BitVec 2) : BitVec.ofNat 3 (slopeSections c) ≠ 0#3 := by
  intro h
  have := congrArg BitVec.toNat h
  rw [slopeSections_toNat] at this
  exact Nat.succ_ne_zero _ this

theorem set_get_finite {bank : CoefBank} {c : Coefs} (hb : ∀ i : Fin 9, (bank.get i).finite = true) (hc : c.finite = true)
    (i : Fin 9) : ((bank.set 4 c).get i).finite = true := by
  rw [Vector.get_eq_getElem, Vector.getElem_set]
  split
  · exact hc
  · exact hb i

/-- A commit installs words that passed FiniteCheck and two counts in 1..4 (R205). -/
theorem inv_commit {k : FactorySets} (h : s.Inv) (hf : finiteCheck k = true) : (commit k s).Inv := by
  simp only [finiteCheck, Bool.and_eq_true] at hf
  obtain ⟨⟨hpeak, hlow⟩, hhigh⟩ := hf
  exact { h with
    lcCount := slopeSections_le _
    hcCount := slopeSections_le _
    counts := iff_of_false (slopeSections_ne_zero _) (slopeSections_ne_zero _)
    bank := installSets_finite _ _ hhigh (installSets_finite _ _ hlow (set_get_finite h.bank hpeak)) }

/-- The block's frames are sample words, since its length is at most BUF_FRAMES (20_memory.md R88). -/
theorem inBuffers_of_inFrames {ch : Channel} {n count a : ℕ} (hn : count ≤ n) (h : inFrames ch 0 count a) : inBuffers n a := by
  rw [inFrames, Nat.zero_add] at h
  exact inBuffers_of_lt h.1 (h.2.trans_le (bufAddr_mono ch hn))

theorem inv_streamBlock (h : s.Inv) (hlen : s.lenL.toNat ≤ s.params.bufFrames) : (streamBlock s).Inv :=
  { h with
    memory := streamFrames_wf _ _ _ _ _ (streamFrames_wf _ _ _ _ _ h.memory)
    stored := fun c hc => by
      rcases mem_streamFrames _ _ _ _ _ hc with hc | hc
      · exact inBuffers_of_inFrames hlen hc
      · rcases mem_streamFrames _ _ _ _ _ hc with hc | hc
        · exact inBuffers_of_inFrames hlen hc
        · exact h.stored c hc }

theorem inv_endJob (h : s.Inv) (hs : s.seq ≠ .unprepared) : (endJob s).Inv :=
  { h with
    prepared := fun _ => h.prepared hs
    pending := nofun }

theorem inv_job (h : s.Inv) (hb : s.seq = .busy) : (job s).Inv := by
  have hs : s.seq ≠ .unprepared := by rw [hb]; decide
  have e := job_effect s
  generalize job s = t at e
  cases e with
  | badParam off _ => exact inv_endJob (inv_raise h _ _) hs
  | notFinite _ _ => exact inv_endJob (inv_raise h _ _) hs
  | done _ hf =>
    obtain ⟨-, -, -, hmax⟩ := h.prepared hs
    exact inv_endJob (inv_streamBlock (inv_commit h hf) ((h.pending hb).trans hmax)) hs

/-! ### Every step -/

theorem inv_of_stepEffect (h : s.Inv) (e : StepEffect s t) : t.Inv := by
  cases e with
  | read d => exact inv_rdata h _
  | readRefused off => exact inv_rdata (inv_raise h _ _) _
  | writeRefused c info => exact inv_raise h c info
  | store off v t e => exact inv_of_storeEffect h e
  | command i t e => exact inv_of_commandEffect h e
  | completion hb => exact inv_job h hb
  | idle _ => exact h
  | reset => exact inv_resetStep h

end Keeps

/-- Settles O57: each effect of a step keeps the invariant from the state in which the step begins. -/
theorem invariantKeptByStep : Obligations.InvariantKeptByStep :=
  fun _ _ h hstep => inv_of_stepEffect (inv_begin h _) (effect_of_step hstep)

end Sys2Proof.Machine
end

section
/-! The words of STATUS and ACTIVE as the bus reads them, STATUS's write-one-to-clear write, the interrupt output (10_state.md R24, R28,
R38), and the offsets that ignore a write (20_memory.md R74, R75). -/

namespace Sys2Proof.Machine

/-! ### Words built of fields -/

/-- A word of two fields as a number. -/
theorem toNat_append_eq {m n : ℕ} (x : BitVec m) (y : BitVec n) : (x ++ y).toNat = x.toNat * 2 ^ n + y.toNat := by
  rw [BitVec.toNat_append, ← Nat.shiftLeft_add_eq_or_of_lt y.isLt, Nat.shiftLeft_eq]

/-- The STATUS word as a number (R24). -/
theorem statusWord_toNat (s : State) : (statusWord s).toNat =
    s.seq.code.toNat + 4 * s.done.toNat + 256 * s.errs.toNat + 65536 * s.firstErr.toNat := by
  simp only [statusWord, toNat_append_eq, BitVec.toNat_ofBool, BitVec.toNat_ofNat]
  omega

/-- Bit i of an enable pattern (R28). -/
theorem enableMask_getLsbD (act : BitVec 3) {i : ℕ} (hi : i < 4) : (enableMask act).getLsbD i = decide (i < act.toNat) := by
  simp only [enableMask, BitVec.getLsbD_append, BitVec.getLsbD_ofBool]
  interval_cases i <;> simp

/-- The ACTIVE word as a number (R28). -/
theorem activeWord_toNat (s : State) : (activeWord s).toNat =
    s.lcActive.toNat + 16 * s.hcActive.toNat + 256 * (enableMask s.lcActive).toNat + 4096 * (enableMask s.hcActive).toNat := by
  simp only [activeWord, toNat_append_eq, BitVec.toNat_ofNat]
  omega

theorem activeWord_getLsbD_lcEnable (s : State) {i : ℕ} (hi : i < 4) :
    (activeWord s).getLsbD (8 + i) = decide (i < s.lcActive.toNat) := by
  rw [← enableMask_getLsbD _ hi]
  simp only [activeWord, BitVec.getLsbD_append]
  interval_cases i <;> simp

theorem activeWord_getLsbD_hcEnable (s : State) {i : ℕ} (hi : i < 4) :
    (activeWord s).getLsbD (12 + i) = decide (i < s.hcActive.toNat) := by
  rw [← enableMask_getLsbD _ hi]
  simp only [activeWord, BitVec.getLsbD_append]
  interval_cases i <;> simp

/-! ### STATUS, ACTIVE and irq -/

/-- Settles O9: the read is a register read, and the word is the sum of its fields. -/
theorem statusReadLayout : Obligations.StatusReadLayout := by
  intro s rest h
  refine ⟨statusWord s, step_of_read_register .status h, ?_⟩
  rw [statusWord_toNat]
  cases s.seq <;> rfl

/-- Settles O10: the step is `statusWrite`. -/
theorem statusWriteOneToClear : Obligations.StatusWriteOneToClear := by
  intro s rest v h
  refine ⟨_, step_of_write_register (r := .status) (by decide) h, rfl, fun k hk => ?_, fun he => if_pos he,
    fun he => if_neg he, rfl⟩
  change (s.errs &&& ~~~(v.extractLsb' 8 7)).getLsbD k = _
  simp [hk]

/-- Settles O11: the fields of the STATUS word are the state's, and INT_EN reads as it is. -/
theorem irqIsFunctionOfStatus : Obligations.IrqIsFunctionOfStatus := by
  refine ⟨fun s => ?_, rfl⟩
  simp only [regRead, statusWord_errs, statusWord_done, State.irq]
  simp

/-- Settles O16: the enable patterns bit by bit, the counts and the high half from the word as a number. -/
theorem activeReadLayout : Obligations.ActiveReadLayout := by
  intro s
  have hword : (regRead s .active).toNat = _ := activeWord_toNat s
  have hlc := s.lcActive.isLt
  have hhc := s.hcActive.isLt
  have hlcEn := (enableMask s.lcActive).isLt
  have hhcEn := (enableMask s.hcActive).isLt
  refine ⟨fun i hi => ⟨activeWord_getLsbD_lcEnable s hi, activeWord_getLsbD_hcEnable s hi⟩, ?_, ?_⟩ <;> omega

/-! ### Offsets that ignore a write -/

/-- A write to an RO register has no effect (R39). -/
theorem regWrite_of_readOnly {r : Reg} (h : r.access = .ro) (v : Word) (s : State) : regWrite v s r = s := by
  cases r <;> simp [Reg.access, regWrite] at h ⊢

theorem Reg.ofOffset_eq_none {off : Word} : Reg.ofOffset off = none ↔ ∀ r : Reg, off ≠ r.offset := by
  simp only [Option.eq_none_iff_forall_ne_some, ne_eq, Reg.ofOffset_eq_some]

theorem regionOf_of_reserved {off : Word} (n : ℕ) (h : Claims.reserved off) : regionOf n off = .reserved := by
  obtain ⟨hlt, hreg, hcoef, hhist⟩ := h
  unfold regionOf
  rw [Reg.ofOffset_eq_none.2 hreg]
  simp only [if_neg hcoef, if_neg hhist, if_pos hlt]

/-- A write to a reserved offset has no effect (R75). -/
theorem memWrite_of_reserved {off : Word} (h : Claims.reserved off) (v : Word) (s : State) : memWrite off v s = .next s := by
  have ⟨_, hreg, _⟩ := h
  rw [memWrite, if_neg (hreg .cmd), memStore, regionOf_of_reserved _ h]

/-- A reserved offset reads 0 (R75). -/
theorem memRead_of_reserved {off : Word} (h : Claims.reserved off) (s : State) : memRead off s = (0#32, s) := by
  rw [memRead, regionOf_of_reserved _ h]

/-- Settles O14: RO registers and reserved offsets by their place in the map. -/
theorem readOnlyAndReserved : Obligations.ReadOnlyAndReserved := by
  intro s rest off v hal
  refine ⟨fun hw hoff => ?_, fun hr hoff => ?_⟩
  · obtain ⟨r, hro, rfl⟩ | hres := hoff
    · rw [step_of_write_register (by rintro rfl; cases hro) hw, regWrite_of_readOnly hro]
      rfl
    · rw [step_of_write hw, if_pos (show off.toNat % 4 = 0 from hal), memWrite_of_reserved hres]
      rfl
  · rw [step_of_read hr, if_pos (show off.toNat % 4 = 0 from hal), memRead_of_reserved hoff]
    rfl

end Sys2Proof.Machine
end

section
/-! What brings each step about (20_memory.md R85), and so what can change the coefficient bank, the counts, the histories and BLOCK_COUNT
(10_state.md R26, R27, R28, R32). -/

namespace Sys2Proof

/-- Only its own encoding decodes to a command (30_encoding.md R101). -/
theorem eq_encode_of_decode {v : Word} {i : Instr} (h : decode v = .ok i) : v = encode i := by
  rw [decode_spec] at h
  split_ifs at h <;> cases h <;> exact BitVec.eq_of_toNat_eq ‹_›

end Sys2Proof

namespace Sys2Proof.Machine

/-! ### Transactions and steps -/

/-- What a transaction leaves that issues no command. -/
inductive AccessEffect (b : State) : State → Prop where
  | read (d : Word) : AccessEffect b { b with rdata := some d }
  | readRefused (off : Word) : AccessEffect b { raise .access off b with rdata := some 0#32 }
  | writeRefused (c : ErrCause) (info : Word) : AccessEffect b (raise c info b)
  | store (off v : Word) (t : State) (h : StoreEffect off v b t) : AccessEffect b t

theorem Txn.legal_iff (x : Txn) : x.legal = true ↔ x.be = 0b1111#4 ∧ x.off.toNat % 4 = 0 := by
  rw [Txn.legal, aligned_iff, Bool.and_eq_true, beq_iff_eq, decide_eq_true_iff]

theorem issueCommand_cases {v : Word} {b t : State} (h : issueCommand v b = .next t) :
    (∃ i, v = encode i ∧ CommandEffect i b t) ∨ AccessEffect b t := by
  unfold issueCommand at h
  split at h
  · next i hi => exact .inl ⟨i, eq_encode_of_decode hi, effect_of_exec h⟩
  · cases h
    exact .inr (.writeRefused _ _)

/-- A transaction is the legal CMD write of a command's word, or one that issues no command. -/
theorem busStep_cases {x : Txn} {b t : State} (h : busStep x b = .next t) :
    (∃ i, x = commandTxn (encode i) ∧ CommandEffect i b t) ∨ AccessEffect b t := by
  obtain ⟨kind, off, v, be⟩ := x
  cases kind with
  | read =>
    simp only [busStep] at h
    split at h
    · cases h
      obtain hr | hr := memRead_effect off b
      · rw [hr]; exact .inr (.read _)
      · rw [hr]; exact .inr (.readRefused _)
    · cases h
      exact .inr (.readRefused _)
  | write =>
    simp only [busStep] at h
    split at h
    · next hlegal =>
      obtain ⟨rfl, -⟩ := (Txn.legal_iff _).1 hlegal
      unfold memWrite at h
      split at h
      · next hcmd =>
        subst hcmd
        refine (issueCommand_cases h).imp_left ?_
        rintro ⟨i, rfl, e⟩
        exact ⟨i, rfl, e⟩
      · cases h
        exact .inr (.store _ _ _ (memStore_effect _ _ b))
    · cases h
      exact .inr (.writeRefused _ _)

/-- What one step leaves, with the entry of the order that brings it about. -/
inductive StepSource (s : State) : State → Prop where
  | access (t : State) (h : AccessEffect (s.begin s.inputs.tail) t) : StepSource s t
  | command (i : Instr) (t : State) (hn : Claims.commandNext s (encode i))
      (h : CommandEffect i (s.begin s.inputs.tail) t) : StepSource s t
  | completion (hn : Claims.completionNext s) : StepSource s (job (s.begin s.inputs.tail))
  /-- A sequencer turn with no job pending. -/
  | idle (h : s.seq ≠ .busy) : StepSource s (s.begin s.inputs.tail)
  | reset (hn : Claims.resetNext s) : StepSource s (resetStep (s.begin s.inputs.tail))

theorem sequencerStep_source {s : State} (hi : s.inputs = [] ∨ ∃ rest, s.inputs = .sequencerTurn :: rest) :
    StepSource s (sequencerStep (s.begin s.inputs.tail)) := by
  unfold sequencerStep
  split
  · next hb => exact .completion ⟨hb, hi⟩
  · next hb => exact .idle hb

theorem source_of_step {s t : State} (h : step s = .next t) : StepSource s t := by
  rcases hi : s.inputs with _ | ⟨x, rest⟩
  · have hx : step s = .next (sequencerStep (s.begin s.inputs.tail)) := by
      rw [step, nextStep, hi]
      rfl
    cases hx.symm.trans h
    exact sequencerStep_source (.inl hi)
  · have hx : inputStep x (s.begin s.inputs.tail) = .next t := by
      rw [hi, ← h, step, nextStep, hi]
      rfl
    cases x with
    | transaction x =>
      obtain ⟨i, rfl, e⟩ | e := busStep_cases hx
      · exact .command i t ⟨rest, hi⟩ e
      · exact .access t e
    | sequencerTurn =>
      cases hx
      exact sequencerStep_source (.inr ⟨rest, hi⟩)
    | resetInput =>
      cases hx
      exact .reset ⟨rest, hi⟩

/-! ### The stream -/

/-- The coefficient bank, the counts, the histories and BLOCK_COUNT are as before. -/
structure StreamKept (s t : State) : Prop where
  coefs : t.coefs = s.coefs
  lcActive : t.lcActive = s.lcActive
  hcActive : t.hcActive = s.hcActive
  histLeft : t.histLeft = s.histLeft
  histRight : t.histRight = s.histRight
  blockCount : t.blockCount = s.blockCount

theorem regWrite_streamKept (v : Word) (s : State) (r : Reg) : StreamKept s (regWrite v s r) := by
  cases r <;> exact ⟨rfl, rfl, rfl, rfl, rfl, rfl⟩

theorem StoreEffect.streamKept {off v : Word} {s t : State} (e : StoreEffect off v s t) : StreamKept s t := by
  cases e with
  | register r _ => exact regWrite_streamKept v s r
  | _ => exact ⟨rfl, rfl, rfl, rfl, rfl, rfl⟩

theorem AccessEffect.streamKept {s t : State} (e : AccessEffect s t) : StreamKept s t := by
  cases e with
  | store off v t e => exact e.streamKept
  | _ => exact ⟨rfl, rfl, rfl, rfl, rfl, rfl⟩

/-- Of the commands only an accepted PREPARE writes the stream (44_processor.md R196). -/
theorem CommandEffect.streamKept_or_prepared {i : Instr} {s t : State} (e : CommandEffect i s t) :
    StreamKept s t ∨ (i = .prepare ∧ t = prepareStream s) := by
  cases e with
  | prepared hi _ _ => exact .inr ⟨hi, rfl⟩
  | _ => exact .inl ⟨rfl, rfl, rfl, rfl, rfl, rfl⟩

/-- A job counts its block if it commits, and does not if it aborts (44_processor.md R205, R215). -/
theorem job_blockCount (s : State) : (job s).blockCount = s.blockCount ∨ (job s).blockCount = s.blockCount + 1#32 := by
  have e := job_effect s
  generalize job s = t at e
  cases e with
  | badParam _ _ => exact .inl rfl
  | notFinite _ _ => exact .inl rfl
  | done _ _ => exact .inr rfl

/-- A step keeps the stream, or is a PREPARE, a completion step or a reset, each with what it does to BLOCK_COUNT. -/
theorem stream_of_step {s t : State} (h : step s = .next t) :
    StreamKept s t ∨
      (Claims.commandNext s 1#32 ∧ t.blockCount = 0#32) ∨
      (Claims.completionNext s ∧ (t.blockCount = s.blockCount ∨ t.blockCount = s.blockCount + 1#32)) ∨
      (Claims.resetNext s ∧ t.blockCount = 0#32) := by
  cases source_of_step h with
  | access t e => exact .inl { e.streamKept with }
  | command i t hn e =>
    obtain k | ⟨rfl, rfl⟩ := e.streamKept_or_prepared
    · exact .inl { k with }
    · exact .inr (.inl ⟨hn, rfl⟩)
  | completion hn => exact .inr (.inr (.inl ⟨hn, job_blockCount _⟩))
  | idle _ => exact .inl ⟨rfl, rfl, rfl, rfl, rfl, rfl⟩
  | reset hn => exact .inr (.inr (.inr ⟨hn, rfl⟩))

/-- Settles O59: where the stream is kept nothing has changed, and each other source is one that the statement names. -/
theorem whatChangesTheStream : Obligations.WhatChangesTheStream := by
  intro s t hstep
  obtain k | ⟨hprep, hzero⟩ | ⟨hdone, hcount⟩ | ⟨hreset, hzero⟩ := stream_of_step hstep
  · refine ⟨fun h => ?_, fun h => absurd k.blockCount h⟩
    simp [k.coefs, k.lcActive, k.hcActive, k.histLeft, k.histRight] at h
  · exact ⟨fun _ => .inr (.inl hprep), fun _ => .inr ⟨.inr hprep, hzero⟩⟩
  · exact ⟨fun _ => .inr (.inr hdone), fun h => .inl ⟨hdone, hcount.resolve_left h⟩⟩
  · exact ⟨fun _ => .inl hreset, fun _ => .inr ⟨.inl hreset, hzero⟩⟩

end Sys2Proof.Machine
end

section
/-! What a pending job reads and what it leaves (44_processor.md R201 to R209): it depends on the data of the job alone, and in BUSY no
transaction touches that data (20_memory.md R78, 44_processor.md R194, 70_reset_and_hazards.md R267, R268, R270). -/

namespace Sys2Proof.Machine

/-- STATE, all that a job reads, and all that a job leaves but DONE and the errors, are as before. -/
structure JobDataKept (s t : State) : Prop extends StreamKept s t where
  seq : t.seq = s.seq
  mem : t.mem = s.mem
  snap : t.snap = s.snap
  lenL : t.lenL = s.lenL
  fsL : t.fsL = s.fsL
  maxBlkL : t.maxBlkL = s.maxBlkL
  params : t.params = s.params
  resets : t.resets = s.resets

namespace JobDataKept

variable {s t : State}

theorem refl (s : State) : JobDataKept s s :=
  ⟨⟨rfl, rfl, rfl, rfl, rfl, rfl⟩, rfl, rfl, rfl, rfl, rfl, rfl, rfl, rfl⟩

/-! ### The phases of a job -/

theorem raise_raise (k : JobDataKept s t) (c : ErrCause) (info : Word) : JobDataKept (raise c info s) (raise c info t) :=
  { k with }

theorem endJob_endJob (k : JobDataKept s t) : JobDataKept (endJob s) (endJob t) :=
  { k with seq := rfl }

theorem commit_commit (k : JobDataKept s t) (sets : FactorySets) : JobDataKept (commit sets s) (commit sets t) :=
  { k with
    coefs := by rw [commit_coefs, commit_coefs, k.coefs]
    lcActive := by rw [commit_lcActive, commit_lcActive, k.snap]
    hcActive := by rw [commit_hcActive, commit_hcActive, k.snap]
    blockCount := by rw [commit_blockCount, commit_blockCount, k.blockCount] }

theorem streamEnv_eq (k : JobDataKept s t) : t.streamEnv = s.streamEnv := by
  simp only [State.streamEnv, k.params, k.coefs, k.lcActive, k.hcActive, k.resets]

theorem streamBlock_streamBlock (k : JobDataKept s t) : JobDataKept (streamBlock s) (streamBlock t) :=
  { k with
    mem := by simp only [streamBlock, k.streamEnv_eq, k.lenL, k.mem, k.histLeft, k.histRight]
    histLeft := by simp only [streamBlock, k.streamEnv_eq, k.lenL, k.mem, k.histLeft]
    histRight := by simp only [streamBlock, k.streamEnv_eq, k.lenL, k.mem, k.histLeft, k.histRight] }

theorem factorySets_eq (k : JobDataKept s t) : factorySets t = factorySets s := by
  simp only [factorySets, k.params, k.fsL, k.snap]

/-- A job depends on nothing but its data. -/
theorem job_job (k : JobDataKept s t) : JobDataKept (job s) (job t) := by
  unfold job jobWithSets
  rw [k.snap, k.fsL, k.factorySets_eq]
  split
  · exact (k.raise_raise ..).endJob_endJob
  · split
    · exact (k.commit_commit _).streamBlock_streamBlock.endJob_endJob
    · exact (k.raise_raise ..).endJob_endJob

end JobDataKept

/-! ### Transactions in BUSY -/

theorem raise_jobDataKept (c : ErrCause) (info : Word) (s : State) : JobDataKept s (raise c info s) := { JobDataKept.refl s with }

theorem regWrite_jobDataKept (v : Word) (s : State) (r : Reg) : JobDataKept s (regWrite v s r) := by
  cases r <;> exact { JobDataKept.refl s with }

section Busy

variable {b t : State} (hb : b.seq = .busy)
include hb

/-- A pending job owns the buffers: no store reaches them (20_memory.md R78). -/
theorem StoreEffect.jobDataKept {off v : Word} (e : StoreEffect off v b t) : JobDataKept b t := by
  cases e with
  | none => exact .refl b
  | refused => exact raise_jobDataKept ..
  | register r _ => exact regWrite_jobDataKept v b r
  | buffer _ _ _ hnb => exact absurd hb hnb

/-- While a job is pending every command but NOP is refused (44_processor.md R194). -/
theorem CommandEffect.jobDataKept {i : Instr} (e : CommandEffect i b t) : JobDataKept b t := by
  cases e with
  | none _ => exact .refl b
  | refused c info _ => exact raise_jobDataKept c info b
  | prepared _ hnb _ => exact absurd hb hnb
  | released _ hnb => exact absurd hb hnb
  | accepted _ hr _ => exact absurd (hb.symm.trans hr) (by decide)

theorem AccessEffect.jobDataKept (e : AccessEffect b t) : JobDataKept b t := by
  cases e with
  | read _ => exact { JobDataKept.refl b with }
  | readRefused off => exact { raise_jobDataKept .access off b with }
  | writeRefused c info => exact raise_jobDataKept c info b
  | store _ _ _ e => exact e.jobDataKept hb

theorem busStep_jobDataKept {x : Txn} (h : busStep x b = .next t) : JobDataKept b t := by
  obtain ⟨_, _, e⟩ | e := busStep_cases h
  · exact e.jobDataKept hb
  · exact e.jobDataKept hb

end Busy

/-- Settles O52: in BUSY a transaction keeps the data of the job, and a job depends on nothing else. -/
theorem transactionsDoNotDisturbJob : Obligations.TransactionsDoNotDisturbJob := by
  intro s t x hb hx
  have k := busStep_jobDataKept hb hx
  have j := k.job_job
  exact ⟨k.seq.trans hb, j.coefs, j.lcActive, j.hcActive, j.histLeft, j.histRight, j.mem, j.blockCount, j.snap, j.lenL, j.fsL,
    j.maxBlkL⟩

end Sys2Proof.Machine
end

section
/-! The address map as accesses see it (20_memory.md R72 to R80): which accesses are refused with ERR_ACCESS, what a read may change, and
what the registers, the windows and the sample words hold. -/

namespace Sys2Proof.Machine

/-! ### One transaction -/

theorem step_of_transaction {s : State} {rest : List Input} {x : Txn} (h : s.inputs = .transaction x :: rest) :
    step s = busStep x (s.begin rest) := by
  rw [step, nextStep, h]
  rfl

theorem busStep_of_read {x : Txn} (hx : x.kind = .read) (b : State) :
    busStep x b = if x.legal then .next { (memRead x.off b).2 with rdata := some (memRead x.off b).1 }
      else .next { raise .access x.off b with rdata := some 0#32 } := by
  rw [busStep, hx]

theorem busStep_of_write {x : Txn} (hx : x.kind = .write) (b : State) :
    busStep x b = if x.legal then memWrite x.off x.wdata b else .next (raise .access x.off b) := by
  rw [busStep, hx]

/-- Settles O21: an illegal read is refused, and `memRead_effect` says what a legal one does. -/
theorem readsHaveNoSideEffect : Obligations.ReadsHaveNoSideEffect := by
  intro s rest x h hx
  rw [step_of_transaction h, busStep_of_read hx]
  split
  · obtain hr | hr := memRead_effect x.off (s.begin rest)
    · rw [hr]
      exact .inl ⟨_, rfl⟩
    · rw [hr]
      exact .inr rfl
  · exact .inr rfl

/-! ### Refused accesses -/

/-- Every access to `off` is refused with ERR_ACCESS: a read gives 0, a write is dropped (20_memory.md R73, R74). -/
def RefusesAt (off : Word) (b : State) : Prop :=
  memRead off b = (0#32, raise .access off b) ∧ ∀ v, memWrite off v b = .next (raise .access off b)

/-- A transaction that is illegal, or at an offset that refuses every access, raises ERR_ACCESS and does nothing else. -/
theorem step_of_refused {s : State} {rest : List Input} {x : Txn} (h : s.inputs = .transaction x :: rest)
    (hr : x.legal = true → RefusesAt x.off (s.begin rest)) :
    (x.kind = .read → step s = .next { raise .access x.off (Claims.begun s rest) with rdata := some 0#32 }) ∧
    (x.kind = .write → step s = .next (raise .access x.off (Claims.begun s rest))) := by
  refine ⟨fun hk => ?_, fun hk => ?_⟩
  · rw [step_of_transaction h, busStep_of_read hk]
    split
    · next hl => rw [(hr hl).1]; rfl
    · rfl
  · rw [step_of_transaction h, busStep_of_write hk]
    split
    · next hl => exact (hr hl).2 _
    · rfl

/-- Settles O17: such a transaction is not legal. -/
theorem illegalAccessRaises : Obligations.IllegalAccessRaises := by
  intro s rest x h hx
  refine step_of_refused h fun hl => ?_
  obtain ⟨hbe, hal⟩ := x.legal_iff.1 hl
  exact (hx.elim (fun h => h hbe) (fun h => h hal)).elim

/-- A write above the control registers is not one to CMD. -/
theorem memWrite_of_ge {off : Word} (h : 0x100 ≤ off.toNat) (v : Word) (b : State) :
    memWrite off v b = .next (memStore off v b) := by
  refine if_neg ?_
  rintro rfl
  exact absurd h (by decide)

theorem regionOf_of_unmapped {n : ℕ} {off : Word} (h : Claims.unmapped n off) : regionOf n off = .unmapped := by
  unfold Claims.unmapped at h
  rw [regionOf_of_ge n (by omega), if_neg (by omega), if_neg (by omega), if_neg (by omega)]
  split
  · exact if_neg (by omega)
  · rfl

theorem refusesAt_of_unmapped {off : Word} {b : State} (h : Claims.unmapped b.params.bufFrames off) : RefusesAt off b := by
  have hr := regionOf_of_unmapped h
  unfold Claims.unmapped at h
  refine ⟨by rw [memRead, hr], fun v => ?_⟩
  rw [memWrite_of_ge (by omega), memStore, hr]

/-- Settles O18: an unmapped offset refuses every access. -/
theorem unmappedAccessRaises : Obligations.UnmappedAccessRaises :=
  fun _ _ _ h hx => step_of_refused h fun _ => refusesAt_of_unmapped hx

theorem regionOf_of_coefWindow {off : Word} (n : ℕ) (h : 0x100 ≤ off.toNat ∧ off.toNat < 0x220) :
    regionOf n off = .coefWindow := by
  rw [regionOf_of_ge n h.1, if_pos h.2]

theorem regionOf_of_histWindow {off : Word} (n : ℕ) (h : 0x400 ≤ off.toNat ∧ off.toNat < 0x600) :
    regionOf n off = .histWindow := by
  rw [regionOf_of_ge n (by omega), if_neg (by omega), if_pos h]

theorem regionOf_of_bufferWord {n : ℕ} {off : Word} (h : 0x10000 ≤ off.toNat ∧ off.toNat < 0x30000)
    (hi : off.toNat % 0x10000 / 4 < n) : ∃ ch i, regionOf n off = .buffer ch i := by
  rw [regionOf_of_ge n (by omega), if_neg (by omega), if_neg (by omega), if_neg (by omega), if_pos h]
  exact ⟨_, _, if_pos hi⟩

/-- While a job is pending its windows refuse every access (20_memory.md R78). -/
theorem refusesAt_of_jobOwned {off : Word} {b : State} (hb : b.seq = .busy) (h : Claims.jobOwned b.params.bufFrames off) :
    RefusesAt off b := by
  have hge : 0x100 ≤ off.toNat := by unfold Claims.jobOwned at h; omega
  unfold RefusesAt
  simp only [memWrite_of_ge hge]
  obtain hcoef | hhist | ⟨hlo, hhi, hlen⟩ := h
  · simp [memRead, memStore, regionOf_of_coefWindow _ hcoef, hb]
  · simp [memRead, memStore, regionOf_of_histWindow _ hhist, hb]
  · obtain ⟨ch, i, hr⟩ := regionOf_of_bufferWord ⟨hlo, hhi⟩ hlen
    simp [memRead, memStore, hr, hb]

/-! ### Registers -/

/-- No register's value depends on the order of steps or on the last read's answer. -/
theorem regRead_begin (s : State) (rest : List Input) (r : Reg) : regRead (s.begin rest) r = regRead s r := by
  cases r <;> rfl

/-- Settles O19: the job's windows refuse every access, and an access to a register does not look at STATE. -/
theorem busyWindowAccessRaises : Obligations.BusyWindowAccessRaises := by
  intro s rest x hb h
  refine ⟨fun ho => step_of_refused h fun _ => refusesAt_of_jobOwned hb ho, ?_⟩
  obtain ⟨kind, off, v, be⟩ := x
  rintro r rfl rfl
  refine ⟨?_, ?_⟩
  · rintro rfl
    rw [step_of_read_register r h, regRead_begin]
    rfl
  · rintro rfl
    split
    · next hr =>
      subst hr
      exact step_of_command h
    · next hr => exact step_of_write_register hr h

/-- Settles O15: the step is a register read, and each value is the field that the register views. -/
theorem readOnlyRegisterValues : Obligations.ReadOnlyRegisterValues := by
  intro s rest r h
  refine ⟨?_, fun w hw => ?_⟩
  · rw [step_of_read_register r h, regRead_begin]
    rfl
  · casesm* _ ∨ _
    all_goals
      obtain ⟨rfl, rfl⟩ := hw
      rfl

/-- The low two bits of a word, read back from a two-bit field (10_state.md R25, R36). -/
theorem setWidth_setWidth_two (v : Word) : (v.setWidth 2).setWidth 32 = v &&& 3#32 := by
  apply BitVec.eq_of_toNat_eq
  have hmask : v.toNat &&& 3 = v.toNat % 4 := Nat.and_two_pow_sub_one_eq_mod v.toNat 2
  have hlt : v.toNat % 4 < 4294967296 := by omega
  simp [hmask, hlt]

theorem regRead_regWrite_same {r : Reg} (hr : r.access = .rw) (v : Word) (s : State) :
    regRead (regWrite v s r) r = Claims.kept r v := by
  cases r with
  | intEn | lowCutSlope | highCutSlope => exact setWidth_setWidth_two v
  | sampleRate | maxBlock | blockLen | lowCutFreq | highCutFreq | peakFreq | peakGainDb | peakQ => rfl
  | _ => exact absurd hr (by decide)

/-- A write to an RW register changes no other register. -/
theorem regRead_regWrite_other {r r' : Reg} (hr : r.access = .rw) (hne : r' ≠ r) (v : Word) (s : State) :
    regRead (regWrite v s r) r' = regRead s r' := by
  cases r with
  | intEn | sampleRate | maxBlock | blockLen | lowCutFreq | lowCutSlope | highCutFreq | highCutSlope | peakFreq | peakGainDb
  | peakQ =>
    -- The one register that does not read as before is `r` itself.
    cases r' <;> try rfl
    exact absurd rfl hne
  | _ => exact absurd hr (by decide)

/-- A write to an RW register changes only what the RW registers hold. -/
theorem regWrite_frame {r : Reg} (hr : r.access = .rw) (v : Word) (s : State) :
    regWrite v s r = { s with
      intEn := (regWrite v s r).intEn
      sampleRate := (regWrite v s r).sampleRate
      maxBlock := (regWrite v s r).maxBlock
      blockLen := (regWrite v s r).blockLen
      regs := (regWrite v s r).regs } := by
  cases r with
  | status => exact absurd hr (by decide)
  | _ => rfl

/-- Settles O13: the step is `regWrite`. -/
theorem readWriteRegisterHoldsWrite : Obligations.ReadWriteRegisterHoldsWrite := by
  intro s rest r v hr h
  refine ⟨_, step_of_write_register (by rintro rfl; cases hr) h, regRead_regWrite_same hr v _, fun r' hne => ?_,
    regWrite_frame hr v _⟩
  rw [regRead_regWrite_other hr hne, regRead_begin]

/-! ### The COEF and HIST windows -/

theorem Coefs.windowWord_eq (c : Coefs) (w : Fin 8) :
    c.windowWord w = [c.b0, c.b1, c.b2, c.a1, c.a2, 0#32, 0#32, 0#32].getD w.val 0#32 := by
  fin_cases w <;> rfl

theorem Hist.windowWord_eq (h : Hist) (w : Fin 4) : h.windowWord w = [h.x1, h.x2, h.y1, h.y2].getD w.val 0#32 := by
  fin_cases w <;> rfl

/-- Word `w` of section `n` of the COEF window (R76). -/
theorem coefWindowRead_section (s : State) (n : Fin 9) (w : Fin 8) :
    coefWindowRead s (0x100 + 0x20 * n.val + 4 * w.val) = (s.coefs.get n).windowWord w := by
  have hn : (0x100 + 0x20 * n.val + 4 * w.val - 0x100) / 32 = n := by omega
  have hw : (0x100 + 0x20 * n.val + 4 * w.val) / 4 % 8 = w := by omega
  rw [coefWindowRead, hn, hw, Vector.getElem?_eq_getElem n.isLt]
  rfl

theorem histOffset_left (n w : ℕ) : Claims.histOffset .left n w = 0x400 + 0x10 * n + 4 * w := rfl

theorem histOffset_right (n w : ℕ) : Claims.histOffset .right n w = 0x500 + 0x10 * n + 4 * w := rfl

/-- Word `w` of section `n` of a channel in the HIST window (R77). -/
theorem histWindowRead_section (s : State) (ch : Channel) (n : Fin 16) (w : Fin 4) :
    histWindowRead s (Claims.histOffset ch n w) =
      if h : n.val < 9 then ((s.hist ch).get ⟨n.val, h⟩).windowWord w else 0#32 := by
  have hch : (if (Claims.histOffset ch n w - 0x400) / 256 = 0 then Channel.left else .right) = ch := by
    cases ch
    · exact if_pos (by rw [histOffset_left]; omega)
    · exact if_neg (by rw [histOffset_right]; omega)
  have hn : (Claims.histOffset ch n w - 0x400) / 16 % 16 = n := by
    cases ch <;> simp only [histOffset_left, histOffset_right] <;> omega
  have hw : Claims.histOffset ch n w / 4 % 4 = w := by
    cases ch <;> simp only [histOffset_left, histOffset_right] <;> omega
  rw [histWindowRead, hch, hn, hw]
  by_cases h : n.val < 9
  · rw [dif_pos h, Vector.getElem?_eq_getElem h]
    rfl
  · rw [dif_neg h, Vector.getElem?_eq_none (Nat.le_of_not_lt h)]

section NotBusy

variable {off : Word} {b : State} (hb : b.seq ≠ .busy)
include hb

theorem memRead_of_coefWindow (h : 0x100 ≤ off.toNat ∧ off.toNat < 0x220) :
    memRead off b = (coefWindowRead b off.toNat, b) := by
  simp [memRead, regionOf_of_coefWindow _ h, hb]

theorem memRead_of_histWindow (h : 0x400 ≤ off.toNat ∧ off.toNat < 0x600) :
    memRead off b = (histWindowRead b off.toNat, b) := by
  simp [memRead, regionOf_of_histWindow _ h, hb]

/-- Both windows ignore writes (20_memory.md R74). -/
theorem memWrite_of_window (h : (0x100 ≤ off.toNat ∧ off.toNat < 0x220) ∨ (0x400 ≤ off.toNat ∧ off.toNat < 0x600)) (v : Word) :
    memWrite off v b = .next b := by
  rw [memWrite_of_ge (by omega)]
  obtain h | h := h
  · simp [memStore, regionOf_of_coefWindow _ h, hb]
  · simp [memStore, regionOf_of_histWindow _ h, hb]

end NotBusy

/-- A read that raises nothing comes next. -/
theorem step_of_plain_read {s : State} {rest : List Input} {off d : Word} (h : s.inputs = Claims.read off :: rest)
    (hal : off.toNat % 4 = 0) (hd : memRead off (s.begin rest) = (d, s.begin rest)) :
    step s = .next { Claims.begun s rest with rdata := some d } := by
  rw [step_of_read h, if_pos hal, hd]
  rfl

/-- Settles O20: by the section and the word that an offset of each window names. -/
theorem windowReads : Obligations.WindowReads := by
  refine ⟨fun s rest n w hb h => ?_, fun s rest ch n w hb h => ?_, fun s rest off v hb hal hoff h => ?_⟩
  · have hoff : (BitVec.ofNat 32 (0x100 + 0x20 * n.val + 4 * w.val)).toNat = 0x100 + 0x20 * n.val + 4 * w.val :=
      Nat.mod_eq_of_lt (by omega)
    refine step_of_plain_read h (by omega) ?_
    rw [memRead_of_coefWindow (b := s.begin rest) hb (by omega), hoff, coefWindowRead_section, Coefs.windowWord_eq]
    rfl
  · have hlt : 0x400 ≤ Claims.histOffset ch n w ∧ Claims.histOffset ch n w < 0x600 ∧ Claims.histOffset ch n w % 4 = 0 := by
      cases ch <;> simp only [histOffset_left, histOffset_right] <;> omega
    have hoff : (BitVec.ofNat 32 (Claims.histOffset ch n w)).toNat = Claims.histOffset ch n w :=
      Nat.mod_eq_of_lt (by omega)
    refine step_of_plain_read h (by omega) ?_
    rw [memRead_of_histWindow (b := s.begin rest) hb (by omega), hoff, histWindowRead_section]
    simp only [Hist.windowWord_eq]
    cases ch <;> rfl
  · rw [step_of_write h, if_pos (show off.toNat % 4 = 0 from hal), memWrite_of_window (b := s.begin rest) hb hoff]
    rfl

/-! ### Sample words -/

theorem Params.wf_iff {p : Params} : p.wf = true ↔ 1 ≤ p.bufFrames ∧ p.bufFrames ≤ 16384 ∧ p.baseAddr.toNat % 0x40000 = 0 := by
  have hmask : p.baseAddr.toNat &&& 0x3FFFF = p.baseAddr.toNat % 0x40000 := Nat.and_two_pow_sub_one_eq_mod _ 18
  simp [Params.wf, and_assoc, ← BitVec.toNat_inj, hmask]

/-- The offset of a sample word as a number, and that it is aligned (20_memory.md R79). -/
theorem bufAddr_toNat (ch : Channel) {i : ℕ} (hi : i < 16384) :
    (BitVec.ofNat 32 (bufAddr ch i)).toNat = bufAddr ch i ∧ bufAddr ch i % 4 = 0 := by
  obtain ⟨-, hlt⟩ := bufAddr_lt (ch := ch) hi
  refine ⟨Nat.mod_eq_of_lt (by omega), ?_⟩
  cases ch <;> simp only [bufAddr, Channel.bufBase] <;> omega

/-- The state with `v` stored in sample word `i` of a channel. -/
def State.storeSample (s : State) (ch : Channel) (i : ℕ) (v : Word) : State := { s with mem := bufWrite s.mem ch i v }

@[simp] theorem storeSample_buf (s : State) (ch : Channel) (i : ℕ) (v : Word) : (s.storeSample ch i v).buf ch i = v :=
  bufRead_bufWrite_same ..

section SampleWord

variable {s : State} {rest : List Input} {ch : Channel} {i : ℕ}
variable (hb : s.seq ≠ .busy) (hmax : s.params.bufFrames ≤ 16384) (hi : i < s.params.bufFrames)
include hb hmax hi

/-- A write to a sample word comes next, with no job pending. -/
theorem step_of_write_buffer {v : Word} (h : s.inputs = Claims.write (BitVec.ofNat 32 (bufAddr ch i)) v :: rest) :
    step s = .next ((s.begin rest).storeSample ch i v) := by
  obtain ⟨hoff, hal⟩ := bufAddr_toNat ch (hi.trans_le hmax)
  obtain ⟨hlo, -⟩ := bufAddr_lt (ch := ch) (hi.trans_le hmax)
  rw [step_of_write h, hoff, if_pos hal, memWrite_of_ge (by omega)]
  simp [memStore, regionOf_buffer ch hi hmax, hb, State.storeSample]

/-- A read of a sample word comes next, with no job pending. -/
theorem step_of_read_buffer (h : s.inputs = Claims.read (BitVec.ofNat 32 (bufAddr ch i)) :: rest) :
    step s = .next { s.begin rest with rdata := some (s.buf ch i) } := by
  obtain ⟨hoff, hal⟩ := bufAddr_toNat ch (hi.trans_le hmax)
  refine step_of_plain_read h (by omega) ?_
  simp [memRead, regionOf_buffer ch hi hmax, hb, State.buf]

end SampleWord

/-- Settles O22: the laws of the buffers' memory, at the one word that the offset names. -/
theorem bufferWordHoldsWrite : Obligations.BufferWordHoldsWrite := by
  intro s rest ch i v hb hwf hi h
  obtain ⟨-, hmax, -⟩ := Params.wf_iff.1 hwf
  refine ⟨(s.begin _).storeSample ch i v, step_of_write_buffer hb hmax hi h, ?_, fun ch' j hj hne => ?_,
    fun a ha => memByte_memSetWord_other _ _ v ha, rfl⟩
  · rw [step_of_read_buffer (s := (s.begin _).storeSample ch i v) hb hmax hi rfl, storeSample_buf]
    rfl
  · exact bufRead_bufWrite_other _ _ v (hi.trans_le hmax) (hj.trans_le hmax) (hne.imp Ne.symm Ne.symm)

/-! ### The platform -/

/-- Settles O23: an aligned window of 0x40000 bytes does not wrap. -/
theorem platformRoutesBaseWindow : Obligations.PlatformRoutesBaseWindow := by
  intro p kind addr wdata be hwf
  obtain ⟨-, -, hal⟩ := Params.wf_iff.1 hwf
  have hsub : (addr - p.baseAddr).toNat < 0x40000 ↔
      p.baseAddr.toNat ≤ addr.toNat ∧ addr.toNat < p.baseAddr.toNat + 0x40000 := by
    rw [BitVec.toNat_sub]; omega
  unfold routeTxn
  split
  · next h =>
    refine ⟨iff_of_true ⟨_, rfl⟩ (hsub.1 h), ?_⟩
    rintro x ⟨⟩
    refine ⟨?_, rfl, rfl, rfl⟩
    exact BitVec.toNat_sub_of_le (BitVec.le_def.2 (hsub.1 h).1)
  · next h =>
    refine ⟨iff_of_false ?_ (hsub.not.1 h), ?_⟩
    · rintro ⟨x, ⟨⟩⟩
    · rintro x ⟨⟩

end Sys2Proof.Machine
end

section
/-! The encoding of commands (30_encoding.md R100 to R102, R107) and the host lines (R108 to R110): decoding inverts encoding, every
other word is refused by the check that it fails, and the pseudo-instructions stand for their transactions. -/

namespace Sys2Proof

/-! ### Commands and their words -/

/-- The round trip of every command, from its lemma for each constructor. -/
theorem roundTrip : ∀ i : Instr, Laws.RoundTrip.Statement i
  | .nop => Laws.RoundTrip.nop
  | .prepare => Laws.RoundTrip.prepare
  | .release => Laws.RoundTrip.release
  | .process => Laws.RoundTrip.process

@[simp] theorem decode_encode (i : Instr) : decode (encode i) = .ok i := by
  obtain ⟨-, -, hdec, -, -⟩ := roundTrip i
  exact hdec

theorem decodeTableWord_encode (i : Instr) : decodeTableWord 32 (encode i).toNat = some i := by
  obtain ⟨-, -, -, -, hrow⟩ := roundTrip i
  exact hrow

theorem decode_eq_ok_iff {v : Word} {i : Instr} : decode v = .ok i ↔ v = encode i :=
  ⟨eq_encode_of_decode, fun h => h ▸ decode_encode i⟩

@[simp] theorem decodeBytes_encodeBytes (i : Instr) (rest : List Byte) :
    decodeBytes (encodeBytes i ++ rest) = .ok (i, rest) := by
  rw [encodeBytes, List.cons_append, List.cons_append, List.cons_append, List.cons_append, List.nil_append,
    decodeBytes_lanes, decode_encode]

/-- Settles O1: only its own encoding decodes to a command, and the lanes of a word decode as the word does. -/
theorem decodeInvertsEncode : Obligations.DecodeInvertsEncode :=
  fun i _ rest _ => ⟨decode_eq_ok_iff, decodeBytes_encodeBytes i rest⟩

/-! ### Illegal words -/

theorem decode_of_reservedBits {v : Word} (h : 16 ≤ v.toNat) : decode v = .error .reservedBits := by
  rw [decode_spec, if_pos h]

theorem decode_of_reservedOpcode {v : Word} (h4 : 4 ≤ v.toNat) (h16 : v.toNat < 16) :
    decode v = .error .reservedOpcode := by
  rw [decode_spec, if_neg (by omega), if_neg (by omega), if_neg (by omega), if_neg (by omega), if_neg (by omega)]

/-- The words of the opcode map's four rows are the numbers below 4. -/
theorem exists_eq_encode_of_lt {v : Word} (h : v.toNat < 4) : ∃ i, v = encode i := by
  obtain h0 | h1 | h2 | h3 : v.toNat = 0 ∨ v.toNat = 1 ∨ v.toNat = 2 ∨ v.toNat = 3 := by omega
  · exact ⟨.nop, BitVec.eq_of_toNat_eq h0⟩
  · exact ⟨.prepare, BitVec.eq_of_toNat_eq h1⟩
  · exact ⟨.release, BitVec.eq_of_toNat_eq h2⟩
  · exact ⟨.process, BitVec.eq_of_toNat_eq h3⟩

theorem exists_decode_eq_error_iff {v : Word} : (∃ e, decode v = .error e) ↔ 4 ≤ v.toNat := by
  constructor
  · rintro ⟨e, he⟩
    by_contra hlt
    obtain ⟨i, rfl⟩ := exists_eq_encode_of_lt (not_le.1 hlt)
    rw [decode_encode] at he
    cases he
  · intro h4
    obtain h16 | h16 := lt_or_ge v.toNat 16
    · exact ⟨_, decode_of_reservedOpcode h4 h16⟩
    · exact ⟨_, decode_of_reservedBits h16⟩

/-- RSV is not 0 from 16 on, and below 16 the word is its OPC (30_encoding.md R102). -/
theorem illegalWord_iff {v : Word} : Claims.illegalWord v ↔ 4 ≤ v.toNat := by
  have hrsv : v >>> 4 = 0#32 ↔ v.toNat / 16 = 0 := by
    rw [← BitVec.toNat_inj, BitVec.toNat_ushiftRight, Nat.shiftRight_eq_div_pow]; rfl
  have hopc : (v &&& 0xF#32).toNat = v.toNat % 16 := Nat.and_two_pow_sub_one_eq_mod v.toNat 4
  rw [Claims.illegalWord, Ne, hrsv, hopc]
  omega

/-- Settles O2: each row is its command's encoding, and the decoder and the statement both refuse the words from 4 on. -/
theorem opcodeMapOfEveryWord : Obligations.OpcodeMapOfEveryWord :=
  fun _ => ⟨decode_eq_ok_iff, decode_eq_ok_iff, decode_eq_ok_iff, decode_eq_ok_iff,
    exists_decode_eq_error_iff.trans illegalWord_iff.symm⟩

/-- Settles O3: the rows are the four encodings, and the other words lie in the two refused ranges. -/
theorem listedWordsDecode : Obligations.ListedWordsDecode :=
  ⟨decodeTableWord_encode .nop, decodeTableWord_encode .prepare, decodeTableWord_encode .release,
    decodeTableWord_encode .process, decode_of_reservedOpcode (by decide) (by decide),
    decode_of_reservedOpcode (by decide) (by decide), decode_of_reservedBits (by decide),
    decode_of_reservedBits (by decide)⟩

end Sys2Proof

namespace Sys2Proof.Machine

/-! ### Pseudo-instructions -/

@[simp] theorem HostLine.txns_wr (polls : ℕ) (t : Target) (v : Word) :
    HostLine.txns polls (.wr t v) = [writeTxn t.off v] := rfl

@[simp] theorem HostLine.txns_poll (polls : ℕ) (t : Target) (mask expect : Word) :
    HostLine.txns polls (.poll t mask expect) = List.replicate polls (readTxn t.off) := rfl

/-- The worked example of 30_encoding.md R110. -/
theorem f32Value_48000 : f32Value 48000 1 = 0x473B8000#32 := by decide +kernel

/-- Settles O60: a write is one transaction, and the poll that ends a program is its reads. -/
theorem pseudoInstructionsExpand : Obligations.PseudoInstructionsExpand := by
  intro polls fs n
  refine ⟨rfl, rfl, rfl, rfl, rfl, ?waitReady, ?waitDone, rfl, ?runBlock, f32Value_48000⟩
  case waitReady | waitDone | runBlock => simp [Pseudo.txns, Pseudo.expand, Target.off, Reg.offset]

end Sys2Proof.Machine
end

section
/-! ParamCheck over exact reals (40_parameters.md R124 to R129): the model's comparisons in units of 2^-149 are comparisons of the
reals, so each check it makes is the range that the spec states. -/

namespace Sys2Proof.Machine

variable {w fs : Word}

/-! ### Comparisons in units of 2^-149 -/

theorem intCast_le_real {k : ℤ} : (k : ℝ) ≤ Claims.real w ↔ k * 2 ^ 149 ≤ f32Units w := by
  rw [Claims.real, le_div_iff₀ (by positivity)]
  norm_cast

theorem real_le_intCast {k : ℤ} : Claims.real w ≤ k ↔ f32Units w ≤ k * 2 ^ 149 := by
  rw [Claims.real, div_le_iff₀ (by positivity)]
  norm_cast

theorem tenth_le_real : 1 / 10 ≤ Claims.real w ↔ 2 ^ 149 ≤ 10 * f32Units w := by
  rw [Claims.real, div_le_div_iff₀ (by positivity) (by positivity), one_mul, mul_comm]
  norm_cast

theorem two_mul_real_lt_real : 2 * Claims.real w < Claims.real fs ↔ 2 * f32Units w < f32Units fs := by
  rw [Claims.real, Claims.real, ← mul_div_assoc, div_lt_div_iff_of_pos_right (by positivity)]
  norm_cast

/-! ### The checks of one field -/

theorem freqOk_iff : freqOk w = true ↔ f32IsFinite w = true ∧ 20 ≤ Claims.real w ∧ Claims.real w ≤ 20000 := by
  simp only [freqOk, Bool.and_eq_true, decide_eq_true_iff, and_assoc]
  exact and_congr_right' (and_congr intCast_le_real.symm real_le_intCast.symm)

theorem belowNyquist_iff (hfs : f32IsFinite fs = true) :
    belowNyquist fs w = true ↔ f32IsFinite w = true ∧ 2 * Claims.real w < Claims.real fs := by
  simp only [belowNyquist, hfs, Bool.and_true, Bool.and_eq_true, decide_eq_true_iff, two_mul_real_lt_real]

theorem gainOk_iff : gainOk w = true ↔ Claims.gainGood w := by
  have hlow : -24 ≤ Claims.real w ↔ -24 * 2 ^ 149 ≤ f32Units w := by exact_mod_cast intCast_le_real (k := -24)
  simp only [gainOk, Bool.and_eq_true, decide_eq_true_iff, and_assoc]
  exact and_congr_right' (and_congr hlow.symm real_le_intCast.symm)

theorem qOk_iff : qOk w = true ↔ Claims.qGood w := by
  simp only [qOk, Bool.and_eq_true, decide_eq_true_iff, and_assoc]
  exact and_congr_right' (and_congr tenth_le_real.symm real_le_intCast.symm)

/-- The two checks of a frequency ask for a finite word once each. -/
theorem freqOk_and_belowNyquist_iff (hfs : f32IsFinite fs = true) :
    (freqOk w && belowNyquist fs w) = true ↔ Claims.freqGood fs w := by
  rw [Bool.and_eq_true, freqOk_iff, belowNyquist_iff hfs, Claims.freqGood]
  tauto

/-! ### The order of the fields -/

/-- Settles O46: each check is its range over the reals, and the first one that fails answers. -/
theorem paramCheckOverReals : Obligations.ParamCheckOverReals := by
  intro p fs hfs
  simp only [← freqOk_and_belowNyquist_iff hfs, ← gainOk_iff, ← qOk_iff, Bool.not_eq_true]
  refine ⟨?lowCut, ?highCut, ?peakFreq, ?gain, ?q, ?pass⟩
  case lowCut => intro hl; simp [paramCheck, hl]
  case highCut => intro hl hh; simp [paramCheck, hl, hh]
  case peakFreq => intro hl hh hp; simp [paramCheck, hl, hh, hp]
  case gain => intro hl hh hp hg; simp [paramCheck, hl, hh, hp, hg]
  case q => intro hl hh hp hg hq; simp [paramCheck, hl, hh, hp, hg, hq]
  case pass => intro hl hh hp hg hq; simp [paramCheck, hl, hh, hp, hg, hq]

end Sys2Proof.Machine
end

section
/-! The coefficient factory (41_coefficient_factory.md R141 to R150): the formulas read over the reals, with the factory's arguments
as the real values of their words, and the words of a coefficient set at tolerance 0 and above. -/

namespace Sys2Proof.Machine

/-! ### The factory's operations over the reals -/

@[simp] theorem realOps_ofRat (n : ℤ) (d : ℕ) : realOps.ofRat n d = (n : ℝ) / d := rfl
@[simp] theorem realOps_pi : realOps.pi = Real.pi := rfl
@[simp] theorem realOps_add (x y : ℝ) : realOps.add x y = x + y := rfl
@[simp] theorem realOps_sub (x y : ℝ) : realOps.sub x y = x - y := rfl
@[simp] theorem realOps_mul (x y : ℝ) : realOps.mul x y = x * y := rfl
@[simp] theorem realOps_div (x y : ℝ) : realOps.div x y = x / y := rfl
@[simp] theorem realOps_sin (x : ℝ) : realOps.sin x = Real.sin x := rfl
@[simp] theorem realOps_cos (x : ℝ) : realOps.cos x = Real.cos x := rfl
@[simp] theorem realOps_tan (x : ℝ) : realOps.tan x = Real.tan x := rfl
@[simp] theorem realOps_pow10 (x : ℝ) : realOps.pow10 x = (10 : ℝ) ^ x := rfl

/-- A factory argument read over the reals is its word's value. -/
@[simp] theorem ofUnits_realOps (w : Word) : ofUnits realOps (f32Units w) = Claims.real w := by
  rw [ofUnits, realOps_ofRat, Claims.real, Nat.cast_pow, Nat.cast_ofNat]

@[simp] theorem prewarp_realOps (fs f : ℝ) : prewarp realOps fs f = Real.tan (Real.pi * f / fs) := rfl

@[simp] theorem butterworthQ_realOps (S k : ℕ) :
    butterworthQ realOps S k = 1 / (2 * Real.cos ((2 * k + 1) * Real.pi / (4 * S))) := by
  simp [butterworthQ]

@[simp] theorem cutDenominator_realOps (K Q : ℝ) : cutDenominator realOps K Q = 1 + K / Q + K * K := by
  simp [cutDenominator]

@[simp] theorem cutA1_realOps (K Q : ℝ) : cutA1 realOps K Q = 2 * (K * K - 1) / (1 + K / Q + K * K) := by
  simp [cutA1]

@[simp] theorem cutA2_realOps (K Q : ℝ) : cutA2 realOps K Q = (1 - K / Q + K * K) / (1 + K / Q + K * K) := by
  simp [cutA2]

/-! ### The words of a set -/

/-- At tolerance 0 the five words of a section are its formulas' exact reals, rounded. -/
theorem coefSet_zero (a : CoefName → CoefArgs) :
    coefSet 0 a =
      { b0 := rnd32Real (exactCoef (a .b0))
        b1 := rnd32Real (exactCoef (a .b1))
        b2 := rnd32Real (exactCoef (a .b2))
        a1 := rnd32Real (exactCoef (a .a1))
        a2 := rnd32Real (exactCoef (a .a2)) } := by
  simp only [coefSet, coefWord_zero]

theorem getElem?_makeHighpassCascade (tol : ℕ) (f fs : Word) {S k : ℕ} (hk : k < S) :
    (makeHighpassCascade tol f fs S)[k]? = some (coefSet tol (.highpass (f32Units fs) (f32Units f) S k)) := by
  simp [makeHighpassCascade, hk]

theorem getElem?_makeLowpassCascade (tol : ℕ) (f fs : Word) {S k : ℕ} (hk : k < S) :
    (makeLowpassCascade tol f fs S)[k]? = some (coefSet tol (.lowpass (f32Units fs) (f32Units f) S k)) := by
  simp [makeLowpassCascade, hk]

theorem conforms_iff {tol : ℕ} {c ref : Word} :
    conforms tol c ref = true ↔ f32IsFinite c = true ∧ |f32Ord c - f32Ord ref| ≤ tol := by
  rw [conforms, Bool.and_eq_true, decide_eq_true_iff, Int.abs_eq_natAbs, Nat.cast_le]

/-- A finite reference word conforms to itself, at every tolerance. -/
theorem conforms_self (tol : ℕ) {w : Word} (h : f32IsFinite w = true) : conforms tol w w = true :=
  conforms_iff.2 ⟨h, by simp⟩

/-- The word the factory gives conforms to a finite reference word: it is that word, or one that was found to conform. -/
theorem coefWord_conforms (tol : ℕ) {a : CoefArgs} (h : f32IsFinite (referenceWord a) = true) :
    conforms tol (coefWord tol a) (referenceWord a) = true := by
  unfold coefWord
  split_ifs with h0 hc
  · exact conforms_self tol h
  · exact hc
  · exact conforms_self tol h

/-! ### The statements -/

/-- Settles O42: each word is its formula's exact real, rounded, and the formula over the reals is R142's. -/
theorem peakFactoryRoundsExactly : Obligations.PeakFactoryRoundsExactly := by
  intro fs f q g A w0 alpha a0
  rw [makePeak, coefSet_zero]
  simp [exactCoef, coefFormula, peakFormula, A, w0, alpha, a0]

/-- Settles O43: section k is the coefficient set of the formulas of R146 or R147 over the reals, rounded. -/
theorem cutFactoryRoundsExactly : Obligations.CutFactoryRoundsExactly := by
  intro fs f S
  refine ⟨by simp [makeHighpassCascade], by simp [makeLowpassCascade], ?_⟩
  intro k hk K Q d
  rw [getElem?_makeHighpassCascade 0 f fs hk, getElem?_makeLowpassCascade 0 f fs hk, coefSet_zero, coefSet_zero]
  constructor
  · simp [exactCoef, coefFormula, highpassFormula, K, Q, d]
  · simp [exactCoef, coefFormula, lowpassFormula, K, Q, d]

/-- Settles O44: the reference word is the rounded exact real, and every factory word conforms to it. -/
theorem factoryWithinTolerance : Obligations.FactoryWithinTolerance := by
  intro tol a
  refine ⟨referenceWord_eq a, coefWord_zero a, fun h => ?_⟩
  rw [← referenceWord_eq] at h ⊢
  exact conforms_iff.1 (coefWord_conforms tol h)

/-- The word of the value 1. -/
theorem rnd32Real_one : rnd32Real 1 = 0x3F800000#32 := by
  have h : rnd32Real 1 = rnd32 1 1 := by rw [rnd32_eq_real 1 one_pos]; simp
  rw [h]
  decide

/-- The bandwidth term of a peak is positive for a positive Q and a frequency between 0 and Nyquist (R142). -/
theorem peakAlpha_pos {fs f q : ℝ} (hq : 0 < q) (hf : 0 < f) (hfs : 2 * f < fs) :
    0 < Real.sin (2 * Real.pi * f / fs) / (2 * q) := by
  have hfs0 : 0 < fs := by linarith
  have hw : 2 * Real.pi * f / fs < Real.pi := by
    rw [div_lt_iff₀ hfs0]
    calc 2 * Real.pi * f = Real.pi * (2 * f) := by ring
      _ < Real.pi * fs := mul_lt_mul_of_pos_left hfs Real.pi_pos
  have hsin := Real.sin_pos_of_pos_of_lt_pi (by positivity) hw
  positivity

/-- Settles O45: at gain 0, A = 1, so b0 is a0 / a0 of a positive a0, and b2 and a2 have one formula. -/
theorem unityGainPeakIsTransparent : Obligations.UnityGainPeakIsTransparent := by
  intro fs f q g hg hq hf hfs
  have hA : (10 : ℝ) ^ (Claims.real g / 40) = 1 := by rw [hg, zero_div, Real.rpow_zero]
  have ha0 := (add_pos one_pos (peakAlpha_pos hq hf hfs)).ne'
  rw [peakFactoryRoundsExactly]
  simp only [hA, mul_one, div_one, div_self ha0, rnd32Real_one, and_self]

end Sys2Proof.Machine
end

section
/-! The arithmetic of a biquad section (42_biquad_section.md R160 to R164): the three operations case by case over the reals, what
NaN and FTZ make of any operation, and the difference equation put together from them. -/

namespace Sys2Proof.Machine

variable {a b w : Word}

/-! ### Classes of words -/

/-- A word is its sign, exponent and fraction. -/
theorem f32_ext (hs : f32Sign a = f32Sign b) (he : f32Exp a = f32Exp b) (hf : f32Frac a = f32Frac b) : a = b :=
  BitVec.eq_of_toNat_eq (by rw [f32_toNat a, f32_toNat b, hs, he, hf])

theorem f32IsNaN_of_isInf (h : f32IsInf w = true) : f32IsNaN w = false := by
  simp_all [f32IsInf, f32IsNaN]

theorem f32IsZero_of_isInf (h : f32IsInf w = true) : f32IsZero w = false := by
  simp_all [f32IsInf, f32IsZero]

theorem f32IsNaN_of_isFinite (h : f32IsFinite w = true) : f32IsNaN w = false := by
  simp_all [f32IsFinite, f32IsNaN]

theorem f32IsInf_of_isFinite (h : f32IsFinite w = true) : f32IsInf w = false := by
  simp_all [f32IsFinite, f32IsInf]

/-- There is one infinity of each sign. -/
theorem eq_iff_sign_eq_of_isInf (ha : f32IsInf a = true) (hb : f32IsInf b = true) : a = b ↔ f32Sign a = f32Sign b := by
  simp only [f32IsInf, Bool.and_eq_true, beq_iff_eq] at ha hb
  exact ⟨congrArg f32Sign, fun hs => f32_ext hs (ha.1.trans hb.1.symm) (ha.2.trans hb.2.symm)⟩

theorem f32Mag_eq_zero_iff : f32Mag w = 0 ↔ f32IsZero w = true := by
  unfold f32Mag f32IsZero
  split_ifs with he <;> simp [he]

theorem eq_negZero_iff : w = 0x80000000#32 ↔ f32Sign w = true ∧ f32Mag w = 0 := by
  rw [f32Mag_eq_zero_iff, f32IsZero, Bool.and_eq_true, beq_iff_eq, beq_iff_eq]
  refine ⟨?_, fun ⟨hs, he, hf⟩ => f32_ext hs he hf⟩
  rintro rfl
  decide

/-! ### Packed words -/

/-- The word packed with the exclusive or of two signs (R162). -/
theorem f32Pack_sign_ne (a b : Word) (m : ℕ) :
    f32Pack (f32Sign a != f32Sign b) m = if a.msb = b.msb then f32Pack false m else f32Pack true m := by
  unfold f32Sign
  split_ifs with h
  · rw [h, bne_self_eq_false]
  · rw [bne_iff_ne.2 h]

theorem f32IsNaN_pack (s : Bool) {m : ℕ} (hm : m ≤ f32InfBits) : f32IsNaN (f32Pack s m) = false := by
  obtain ⟨hexp, hfrac, -⟩ := f32Pack_fields s (hm.trans_lt (by decide))
  unfold f32InfBits at hm
  rw [f32IsNaN, hexp, hfrac, Bool.and_eq_false_iff, beq_eq_false_iff_ne, bne_eq_false_iff_eq]
  omega

theorem roundBits_le (n d : ℕ) : roundBits n d ≤ f32InfBits := min_le_right _ _

theorem f32IsNaN_rnd32 (n : ℤ) (d : ℕ) : f32IsNaN (rnd32 n d) = false := f32IsNaN_pack _ (roundBits_le _ _)

/-- A rounded real is the word +0 where its bits are 0: `rnd32` gives no other zero (log 10). -/
theorem rnd32Real_eq_zero_iff {v : ℝ} : rnd32Real v = 0#32 ↔ roundBitsReal |v| = 0 := by
  refine ⟨fun h => (f32Pack_inj (s' := false) (roundBitsReal_le _) (Nat.zero_le _) h).2, fun h => ?_⟩
  rw [rnd32Real, h]
  simp [f32Pack]

/-! ### Addition (R160) -/

theorem f32Add_false (a b : Word) : f32Add false a b = f32AddCases a b := rfl

theorem f32AddCases_of_isNaN (h : f32IsNaN a = true ∨ f32IsNaN b = true) : f32AddCases a b = f32CNaN := by
  rw [f32AddCases, if_pos (Bool.or_eq_true _ _ ▸ h)]

theorem f32AddCases_of_isInf_of_ne (ha : f32IsInf a = true) (hb : f32IsInf b = true) (hne : a ≠ b) :
    f32AddCases a b = f32CNaN := by
  have hs := mt (eq_iff_sign_eq_of_isInf ha hb).2 hne
  simp [f32AddCases, ha, hb, hs]

theorem f32AddCases_of_isInf_left (ha : f32IsInf a = true) (hb : f32IsNaN b = false) (h : f32IsInf b = false ∨ a = b) :
    f32AddCases a b = a := by
  obtain hfin | rfl := h
  · simp [f32AddCases, f32IsNaN_of_isInf ha, ha, hb, hfin]
  · simp [f32AddCases, hb, ha]

theorem f32AddCases_of_isInf_right (hb : f32IsInf b = true) (ha : f32IsNaN a = false) (h : f32IsInf a = false ∨ a = b) :
    f32AddCases a b = b := by
  obtain hfin | rfl := h
  · simp [f32AddCases, f32IsNaN_of_isInf hb, hb, ha, hfin]
  · simp [f32AddCases, ha, hb]

theorem f32AddCases_of_isFinite (ha : f32IsFinite a = true) (hb : f32IsFinite b = true) :
    f32AddCases a b = if f32Units a + f32Units b = 0 then f32Pack (f32Sign a && f32Sign b) 0
      else rnd32 (f32Units a + f32Units b) (2 ^ 149) := by
  simp [f32AddCases, f32IsNaN_of_isFinite, f32IsInf_of_isFinite, ha, hb]

/-- The sum of the units is the sum of the reals, exactly. -/
theorem real_add_real (a b : Word) : Claims.real a + Claims.real b = ((f32Units a + f32Units b : ℤ) : ℝ) / (2 ^ 149 : ℕ) := by
  rw [Claims.real, Claims.real, ← add_div]
  norm_cast

theorem real_add_real_eq_zero_iff : Claims.real a + Claims.real b = 0 ↔ f32Units a + f32Units b = 0 := by
  rw [real_add_real, div_eq_zero_iff, or_iff_left (by positivity), Int.cast_eq_zero]

/-- Two negative words have the sum 0 only as two -0. -/
theorem both_negative_iff_of_sum_zero (h : f32Units a + f32Units b = 0) :
    (f32Sign a && f32Sign b) = true ↔ a = 0x80000000#32 ∧ b = 0x80000000#32 := by
  rw [Bool.and_eq_true, eq_negZero_iff, eq_negZero_iff]
  refine ⟨fun ⟨ha, hb⟩ => ?_, fun ⟨⟨ha, _⟩, hb, _⟩ => ⟨ha, hb⟩⟩
  simp only [f32Units, ha, hb, if_true] at h
  exact ⟨⟨ha, by omega⟩, hb, by omega⟩

theorem signBit_eq_twoPow : 0x80000000#32 = BitVec.twoPow 32 31 := rfl

/-- Inverting the sign bit inverts bit 31 (R161). -/
theorem getLsbD_xor_signBit (b : Word) (k : ℕ) : (b ^^^ 0x80000000#32).getLsbD k = (b.getLsbD k ^^ decide (k = 31)) := by
  simp [signBit_eq_twoPow, BitVec.getLsbD_twoPow, eq_comm]

/-- Settles O36: each premise selects its case of R160; a finite sum is exact in units of 2^-149 before it is rounded. -/
theorem additionCases : Obligations.AdditionCases := by
  intro a b
  simp only [f32Add_false]
  refine ⟨f32AddCases_of_isNaN, f32AddCases_of_isInf_of_ne, f32AddCases_of_isInf_left, f32AddCases_of_isInf_right,
    ?zeroSum, ?sum, b ^^^ 0x80000000#32, fun k _ => getLsbD_xor_signBit b k, fun _ => rfl⟩
  case zeroSum =>
    intro ha hb h
    rw [real_add_real_eq_zero_iff] at h
    rw [f32AddCases_of_isFinite ha hb, if_pos h]
    simp only [← both_negative_iff_of_sum_zero h]
    cases f32Sign a && f32Sign b <;> rfl
  case sum =>
    intro ha hb h
    rw [f32AddCases_of_isFinite ha hb, if_neg (mt real_add_real_eq_zero_iff.2 h), rnd32_eq_real _ (by positivity),
      real_add_real]

/-! ### Multiplication (R162) -/

theorem f32Mul_false (a b : Word) : f32Mul false a b = f32MulCases a b := rfl

theorem f32MulCases_of_isNaN (h : f32IsNaN a = true ∨ f32IsNaN b = true) : f32MulCases a b = f32CNaN := by
  rw [f32MulCases, if_pos (Bool.or_eq_true _ _ ▸ h)]

theorem f32MulCases_of_zero_mul_inf
    (h : (f32IsZero a = true ∧ f32IsInf b = true) ∨ (f32IsInf a = true ∧ f32IsZero b = true)) :
    f32MulCases a b = f32CNaN := by
  simp [f32MulCases, h]

theorem f32MulCases_of_isInf_left (ha : f32IsInf a = true) (hnan : f32IsNaN b = false) (hzero : f32IsZero b = false) :
    f32MulCases a b = f32Pack (f32Sign a != f32Sign b) f32InfBits := by
  simp [f32MulCases, f32IsNaN_of_isInf ha, f32IsZero_of_isInf ha, ha, hnan, hzero]

theorem f32MulCases_of_isInf_right (hb : f32IsInf b = true) (hnan : f32IsNaN a = false) (hzero : f32IsZero a = false) :
    f32MulCases a b = f32Pack (f32Sign a != f32Sign b) f32InfBits := by
  simp [f32MulCases, f32IsNaN_of_isInf hb, f32IsZero_of_isInf hb, hb, hnan, hzero]

theorem f32MulCases_of_isFinite (ha : f32IsFinite a = true) (hb : f32IsFinite b = true) :
    f32MulCases a b = if f32IsZero a = true ∨ f32IsZero b = true then f32Pack (f32Sign a != f32Sign b) 0
      else f32Pack (f32Sign a != f32Sign b) (roundBits (f32Mag a * f32Mag b) (2 ^ 298)) := by
  simp [f32MulCases, f32IsNaN_of_isFinite, f32IsInf_of_isFinite, ha, hb, -Nat.reducePow]

/-- The product of the magnitudes is the magnitude of the product of the reals, exactly. -/
theorem roundBits_mag_mul_mag (a b : Word) :
    roundBits (f32Mag a * f32Mag b) (2 ^ 298) = roundBitsReal |Claims.real a * Claims.real b| := by
  rw [roundBits_eq_real _ (pow_pos two_pos 298), abs_mul, abs_real, abs_real, div_mul_div_comm, ← pow_add, Nat.cast_mul,
    Nat.cast_pow, Nat.cast_ofNat]

/-- A product of two words that are not zero is negative where their signs differ. -/
theorem real_mul_real_neg_iff (ha : f32IsZero a = false) (hb : f32IsZero b = false) :
    Claims.real a * Claims.real b < 0 ↔ a.msb ≠ b.msb := by
  have hpos {w : Word} (hw : f32IsZero w = false) : (0 : ℝ) < f32Mag w / 2 ^ 149 := by
    have : 0 < f32Mag w := Nat.pos_of_ne_zero (mt f32Mag_eq_zero_iff.1 (by simp [hw]))
    positivity
  have hprod := mul_pos (hpos ha) (hpos hb)
  rw [real_eq_sign_mul_mag, real_eq_sign_mul_mag, mul_mul_mul_comm]
  cases a.msb <;> cases b.msb <;> simp [hprod, hprod.le]

/-- The bits `rnd32` gives, with the sign of the real kept also where they are 0. -/
theorem f32Pack_roundBitsReal_abs (v : ℝ) :
    f32Pack (decide (v < 0)) (roundBitsReal |v|) = if rnd32Real v = 0#32 ∧ v < 0 then 0x80000000#32 else rnd32Real v := by
  simp only [rnd32Real_eq_zero_iff]
  by_cases hm : roundBitsReal |v| = 0
  · by_cases hv : v < 0 <;> simp [rnd32Real, hm, hv, f32Pack]
  · simp [rnd32Real, hm, bne_iff_ne.2 hm]

/-- A rounded product is `rnd32` of the exact one, with the exclusive or of the signs where that gives 0. -/
theorem f32Pack_product (ha : f32IsZero a = false) (hb : f32IsZero b = false) :
    f32Pack (f32Sign a != f32Sign b) (roundBits (f32Mag a * f32Mag b) (2 ^ 298)) =
      if rnd32Real (Claims.real a * Claims.real b) = 0#32 ∧ a.msb ≠ b.msb then 0x80000000#32
      else rnd32Real (Claims.real a * Claims.real b) := by
  have hneg := real_mul_real_neg_iff ha hb
  have hsign : (f32Sign a != f32Sign b) = decide (Claims.real a * Claims.real b < 0) :=
    Bool.eq_iff_iff.2 (by rw [bne_iff_ne, decide_eq_true_iff, hneg]; rfl)
  rw [hsign, roundBits_mag_mul_mag, f32Pack_roundBitsReal_abs]
  simp only [hneg]

/-- Settles O37: each premise selects its case of R162; a finite product is exact in units of 2^-298 before it is rounded. -/
theorem multiplicationCases : Obligations.MultiplicationCases := by
  intro a b
  simp only [f32Mul_false]
  refine ⟨f32MulCases_of_isNaN, f32MulCases_of_zero_mul_inf, ?infLeft, ?infRight, ?zero, ?product⟩
  case infLeft =>
    intro ha hnan hzero
    rw [f32MulCases_of_isInf_left ha hnan hzero, f32Pack_sign_ne]
    rfl
  case infRight =>
    intro hb hnan hzero
    rw [f32MulCases_of_isInf_right hb hnan hzero, f32Pack_sign_ne]
    rfl
  case zero =>
    intro ha hb h
    rw [f32MulCases_of_isFinite ha hb, if_pos h, f32Pack_sign_ne]
    rfl
  case product =>
    intro ha hb hza hzb
    rw [f32MulCases_of_isFinite ha hb, if_neg (by simp [hza, hzb]), f32Pack_product hza hzb]

/-! ### NaN and FTZ (R163) -/

/-- The cases of an addition that make a NaN make CNAN: an infinity and a packed word are none. -/
theorem f32AddCases_not_nan_or_cnan (a b : Word) : f32IsNaN (f32AddCases a b) = false ∨ f32AddCases a b = f32CNaN := by
  unfold f32AddCases
  split_ifs with hnan hopposite ha hb hzero
  · exact .inr rfl
  · exact .inr rfl
  · exact .inl (f32IsNaN_of_isInf ha)
  · exact .inl (f32IsNaN_of_isInf hb)
  · exact .inl (f32IsNaN_pack _ (Nat.zero_le _))
  · exact .inl (f32IsNaN_rnd32 _ _)

/-- The cases of a multiplication that make a NaN make CNAN: every other result is a packed word. -/
theorem f32MulCases_not_nan_or_cnan (a b : Word) : f32IsNaN (f32MulCases a b) = false ∨ f32MulCases a b = f32CNaN := by
  unfold f32MulCases
  split_ifs with hnan hinvalid hinf hzero
  · exact .inr rfl
  · exact .inr rfl
  · exact .inl (f32IsNaN_pack _ le_rfl)
  · exact .inl (f32IsNaN_pack _ (Nat.zero_le _))
  · exact .inl (f32IsNaN_pack _ (roundBits_le _ _))

/-- A flushed result is a NaN only as CNAN if the result was. -/
theorem f32Flush_eq_cnan (ftz : Bool) (hw : f32IsNaN w = false ∨ w = f32CNaN) (h : f32IsNaN (f32Flush ftz w) = true) :
    f32Flush ftz w = f32CNaN := by
  rw [(f32Flush_nan ftz w).1] at h
  obtain hnot | rfl := hw
  · exact absurd h (Bool.eq_false_iff.1 hnot)
  · exact (f32Flush_nan ftz f32CNaN).2 h

/-- The sign bit alone is a zero of the word's own sign. -/
theorem and_signBit (w : Word) : w &&& 0x80000000#32 = if w.msb then 0x80000000#32 else 0#32 := by
  rw [signBit_eq_twoPow, BitVec.and_twoPow, BitVec.msb_eq_getLsbD_last]

/-- The model flushes as the statement does, which reads the fields of the word. -/
theorem f32Flush_true (w : Word) : f32Flush true w = Claims.flushed w := by
  have hsub : f32IsSubnormal w = true ↔ w.extractLsb' 23 8 = 0#8 ∧ w.extractLsb' 0 23 ≠ 0#23 := by
    simp [f32IsSubnormal, f32Exp, f32Frac, BitVec.toNat_eq]
  simp only [f32Flush, Claims.flushed, Bool.true_and, hsub, and_signBit]

theorem f32IsSubnormal_flush (w : Word) : f32IsSubnormal (f32Flush true w) = false := by
  rw [f32Flush, Bool.true_and]
  split_ifs with h
  · rw [and_signBit]
    cases w.msb <;> rfl
  · exact Bool.eq_false_iff.2 h

theorem f32IsSubnormal_xor_signBit (w : Word) : f32IsSubnormal (w ^^^ 0x80000000#32) = f32IsSubnormal w := by
  simp [f32IsSubnormal, f32Exp, f32Frac, BitVec.extractLsb'_xor]

/-- A word is flushed as its negation is. -/
theorem f32Flush_xor_signBit (ftz : Bool) (w : Word) :
    f32Flush ftz (w ^^^ 0x80000000#32) = f32Flush ftz w ^^^ 0x80000000#32 := by
  rw [f32Flush, f32Flush, f32IsSubnormal_xor_signBit]
  split_ifs with h
  · rw [and_signBit, and_signBit, BitVec.msb_xor]
    cases w.msb <;> rfl
  · rfl

/-- Settles O38: the cases give no NaN but CNAN and flushing makes none; FTZ flushes both operands, then the result, and a
subtraction's inverted sign passes through. -/
theorem naNResultsAreCanonical : Obligations.NaNResultsAreCanonical := by
  refine ⟨fun ftz a b y hy => ⟨?canonical, ?flushed⟩, fun a b => ?operands⟩
  case canonical =>
    obtain rfl | rfl | rfl := hy
    · exact f32Flush_eq_cnan ftz (f32AddCases_not_nan_or_cnan _ _)
    · exact f32Flush_eq_cnan ftz (f32AddCases_not_nan_or_cnan _ _)
    · exact f32Flush_eq_cnan ftz (f32MulCases_not_nan_or_cnan _ _)
  case flushed =>
    rintro rfl
    obtain rfl | rfl | rfl := hy <;> exact f32IsSubnormal_flush _
  case operands =>
    simp only [← f32Flush_true]
    refine ⟨rfl, ?_, rfl⟩
    rw [f32Sub, f32Sub, ← f32Flush_xor_signBit]
    rfl

/-! ### The section (R164) -/

theorem f32Add_of_isNaN (ftz : Bool) (h : f32IsNaN a = true ∨ f32IsNaN b = true) : f32Add ftz a b = f32CNaN := by
  rw [f32Add, f32AddCases_of_isNaN (by rwa [(f32Flush_nan ftz a).1, (f32Flush_nan ftz b).1])]
  exact (f32Flush_nan ftz f32CNaN).2 rfl

theorem f32Mul_of_isNaN (ftz : Bool) (h : f32IsNaN a = true ∨ f32IsNaN b = true) : f32Mul ftz a b = f32CNaN := by
  rw [f32Mul, f32MulCases_of_isNaN (by rwa [(f32Flush_nan ftz a).1, (f32Flush_nan ftz b).1])]
  exact (f32Flush_nan ftz f32CNaN).2 rfl

/-- Inverting bit 31 of a NaN leaves a NaN (R161). -/
theorem f32IsNaN_xor_signBit (w : Word) : f32IsNaN (w ^^^ 0x80000000#32) = f32IsNaN w := by
  simp [f32IsNaN, f32Exp, f32Frac, BitVec.extractLsb'_xor]

theorem f32Sub_of_isNaN (ftz : Bool) (h : f32IsNaN a = true ∨ f32IsNaN b = true) : f32Sub ftz a b = f32CNaN :=
  f32Add_of_isNaN ftz (by rwa [f32IsNaN_xor_signBit])

theorem f32IsNaN_cnan : f32IsNaN f32CNaN = true := by decide

/-- A NaN among the ten words of a section's equation reaches its output through every later operation. -/
theorem sectionOutput_of_isNaN (ftz : Bool) {c : Coefs} {h : Hist} {x : Word}
    (hnan : f32IsNaN x = true ∨ f32IsNaN h.x1 = true ∨ f32IsNaN h.x2 = true ∨ f32IsNaN h.y1 = true ∨ f32IsNaN h.y2 = true ∨
      f32IsNaN c.b0 = true ∨ f32IsNaN c.b1 = true ∨ f32IsNaN c.b2 = true ∨ f32IsNaN c.a1 = true ∨ f32IsNaN c.a2 = true) :
    sectionOutput ftz c h x = f32CNaN := by
  obtain hw | hw | hw | hw | hw | hw | hw | hw | hw | hw := hnan <;>
    simp [sectionOutput, f32Mul_of_isNaN, f32Add_of_isNaN, f32Sub_of_isNaN, f32IsNaN_cnan, hw]

/-- Settles O40: the output is CNAN by the equation, and it stands in y1 for the next sample, so the next output is too. -/
theorem naNPoisonsSection : Obligations.NaNPoisonsSection := by
  intro ftz bank n h x x' hnan
  have hout : (processSample ftz bank n h x).1 = f32CNaN := sectionOutput_of_isNaN ftz hnan
  have hy1 : f32IsNaN ((processSample ftz bank n h x).2.get n).y1 = true := by
    rw [processSample_get_same, hout]
    exact f32IsNaN_cnan
  exact ⟨hout, sectionOutput_of_isNaN ftz (.inr (.inr (.inr (.inl hy1))))⟩

/-- Settles O39: the output is the equation, and the section's words move on where every other section's stay. -/
theorem enabledSectionEquation : Obligations.EnabledSectionEquation := fun ftz bank n h x =>
  ⟨_, rfl, rfl, processSample_get_same ftz bank n h x, fun _ hm => processSample_get_other ftz bank hm.symm h x⟩

end Sys2Proof.Machine
end

section
/-! The cut cascade and the channel chain as folds of enabled sections (43_cut_cascade.md R182, 44_processor.md R190). -/

namespace Sys2Proof.Machine

/-- One sample through the sections of `l` one after another, all of them enabled. -/
def runEnabled (ftz : Bool) (bank : CoefBank) (l : List (Fin 9)) (r : Word × HistFile) : Word × HistFile :=
  l.foldl (fun r n => processSample ftz bank n r.2 r.1) r

section Run

variable (ftz : Bool) (bank : CoefBank)

theorem runEnabled_append (l l' : List (Fin 9)) (r : Word × HistFile) :
    runEnabled ftz bank (l ++ l') r = runEnabled ftz bank l' (runEnabled ftz bank l r) := List.foldl_append

/-- A section that is not among those run keeps its history: each of them moves on its own words only (R168). -/
theorem runEnabled_get_other {l : List (Fin 9)} {n : Fin 9} (hn : n ∉ l) (r : Word × HistFile) :
    (runEnabled ftz bank l r).2.get n = r.2.get n :=
  List.foldlRecOn (motive := fun r' : Word × HistFile => r'.2.get n = r.2.get n) l _ rfl fun _ kept _ hs =>
    (processSample_get_other ftz bank (ne_of_mem_of_not_mem hs hn) _ _).trans kept

/-- Counting from index `i`, the sections below `act` are the first `act - i`, and those past them are bypassed. -/
theorem sampleThrough_eq_runEnabled (act : ℕ) (l : List (Fin 9)) (i : ℕ) (h : HistFile) (x : Word) :
    sampleThrough ftz bank act l i h x = runEnabled ftz bank (l.take (act - i)) (x, h) := by
  induction l generalizing i h x with
  | nil => rw [List.take_nil]; rfl
  | cons s l ih =>
    by_cases enabled : i < act
    · have count : act - i = act - (i + 1) + 1 := by omega
      rw [sampleThrough, if_pos enabled, ih, count, List.take_succ_cons]
      rfl
    · have past : act ≤ i := Nat.le_of_not_lt enabled
      rw [sampleThrough_bypassed ftz bank past, Nat.sub_eq_zero_of_le past]
      rfl

theorem processCascade_eq_runEnabled (act : ℕ) (c : Cascade) (h : HistFile) (x : Word) :
    processCascade ftz bank act c h x = runEnabled ftz bank (c.sections.take act) (x, h) :=
  sampleThrough_eq_runEnabled ftz bank act c.sections 0 h x

theorem channelChain_eq_runEnabled (lc hc : ℕ) (h : HistFile) (x : Word) :
    channelChain ftz bank lc hc h x =
      runEnabled ftz bank (Cascade.lowCut.sections.take lc ++ 4 :: Cascade.highCut.sections.take hc) (x, h) := by
  rw [channelChain, processCascade_eq_runEnabled, processCascade_eq_runEnabled, runEnabled_append]
  rfl

end Run

/-- Settles O41: a cascade is the run of its first ACT sections, which leaves the other histories alone, and the chain is the run of
the low cut's, section 4 and the high cut's joined. -/
theorem cascadeRunsEnabledPrefix : Obligations.CascadeRunsEnabledPrefix := by
  refine ⟨fun ftz bank act c h x => ⟨processCascade_eq_runEnabled ftz bank act c h x, fun n hn => ?otherHistory, ?identity⟩,
    channelChain_eq_runEnabled⟩
  case otherHistory =>
    rw [processCascade_eq_runEnabled]
    exact runEnabled_get_other ftz bank hn (x, h)
  case identity =>
    rintro rfl
    exact sampleThrough_bypassed ftz bank le_rfl c.sections h x

end Sys2Proof.Machine
end

section
/-! The commands (44_processor.md R191 to R200): a CMD write runs the command that its word is, and each command does what its checks
let it do and nothing else. -/

namespace Sys2Proof.Machine

/-! ### From the CMD write to the command -/

theorem issueCommand_encode (i : Instr) (s : State) : issueCommand (encode i) s = exec i s := by
  rw [issueCommand, decode_encode]

theorem issueCommand_of_illegalWord {v : Word} (h : Claims.illegalWord v) (s : State) :
    issueCommand v s = .next (raise .cmd v s) := by
  obtain ⟨e, he⟩ := exists_decode_eq_error_iff.2 (illegalWord_iff.1 h)
  rw [issueCommand, he]

theorem tableWord_toNat (v : Word) : tableWord 32 v.toNat = v := by
  rw [tableWord, Nat.mod_eq_of_lt v.isLt, BitVec.ofNat_toNat, BitVec.setWidth_eq]

/-- Settles O4: the one word that decodes to a command is its encoding, and that is what `withFetchWord` places. -/
theorem stepRunsDecodedCommand : Obligations.StepRunsDecodedCommand := by
  have runs {s : State} {rest : List Input} {i : Instr} (h : s.inputs = Claims.write 0x004#32 (encode i) :: rest) :
      step s = exec i (Claims.begun s rest) :=
    (step_of_command h).trans (issueCommand_encode i _)
  refine fun s rest v i => ⟨fun h hdec => ?decoded, ?placed⟩
  case decoded =>
    obtain rfl := eq_encode_of_decode hdec
    exact runs h
  case placed =>
    rw [State.withFetchWord, tableWord_toNat]
    exact runs rfl

/-- Settles O5: the decoder refuses the word before any other check. -/
theorem illegalCommandWordRaises : Obligations.IllegalCommandWordRaises := fun _ _ _ h hv =>
  (step_of_command h).trans (issueCommand_of_illegalWord hv _)

/-- Settles O24: a word with OPC = 0 is a multiple of 16, so one that is not 0 is illegal. -/
theorem nopChangesNothing : Obligations.NopChangesNothing := by
  refine fun s => ⟨rfl, fun v hopc hv => issueCommand_of_illegalWord (illegalWord_iff.2 ?_) s⟩
  have hmod : v.toNat % 16 = 0 := (Nat.and_two_pow_sub_one_eq_mod v.toNat 4).symm.trans (congrArg BitVec.toNat hopc)
  have hne : v.toNat ≠ 0 := fun h => hv (BitVec.eq_of_toNat_eq h)
  omega

/-! ### The checks -/

theorem real_pos_iff {w : Word} : 0 < Claims.real w ↔ 0 < f32Units w := by
  rw [Claims.real, div_pos_iff_of_pos_right (by positivity), Int.cast_pos]

theorem prepareOk_iff_goodConfig {s : State} : prepareOk s = true ↔ Claims.goodConfig s := by
  rw [prepareOk_iff, Claims.goodConfig, real_pos_iff]

section Exec

variable {s : State}

theorem exec_prepare_accepted (hb : s.seq ≠ .busy) (hgood : Claims.goodConfig s) :
    exec .prepare s = .next (prepareStream s) := by
  rw [exec, execPrepare, unlessBusy_of_not_busy hb, prepareBody, if_pos (prepareOk_iff_goodConfig.2 hgood)]

theorem exec_prepare_badConfig (hb : s.seq ≠ .busy) (hbad : ¬Claims.goodConfig s) :
    exec .prepare s = .next (raise .cfg 1#32 s) := by
  rw [exec, execPrepare, unlessBusy_of_not_busy hb, prepareBody, if_neg (prepareOk_iff_goodConfig.not.2 hbad)]

theorem exec_release_accepted (hb : s.seq ≠ .busy) : exec .release s = .next (releaseBody s) := by
  rw [exec, execRelease, unlessBusy_of_not_busy hb]

theorem exec_process_unprepared (hu : s.seq = .unprepared) : exec .process s = .next (raise .unprep 3#32 s) := by
  have hb : s.seq ≠ .busy := by rw [hu]; decide
  rw [exec, execProcess, unlessBusy_of_not_busy hb, processBody, if_pos hu]

/-- PROCESS in READY is decided by BLOCK_LEN ≤ MAXBLK_L alone (R200). -/
theorem exec_process_ready (hr : s.seq = .ready) : exec .process s =
    .next (if s.blockLen.toNat ≤ s.maxBlkL.toNat then processAccepted s else raise .cfg 3#32 s) := by
  have hb : s.seq ≠ .busy := by rw [hr]; decide
  have hu : s.seq ≠ .unprepared := by rw [hr]; decide
  rw [exec, execProcess, unlessBusy_of_not_busy hb, processBody, if_neg hu]
  by_cases hlen : s.blockLen.toNat ≤ s.maxBlkL.toNat
  · simp [processLenOk, processAccepted, hlen]
  · simp [processLenOk, hlen]

end Exec

/-! ### The statements -/

theorem get_histZero (n : Fin 9) : HistFile.zero.get n = Hist.zero := Vector.get_replicate ..

theorem get_coefIdentity (n : Fin 9) : CoefBank.identity.get n = Coefs.identity := Vector.get_replicate ..

/-- Settles O25: the accepted PREPARE, with every word of a zeroed history and of an identity bank. -/
theorem prepareStartsStream : Obligations.PrepareStartsStream := by
  refine fun s hb hgood => ⟨_, exec_prepare_accepted hb hgood, rfl, rfl, fun ch n => ?history, get_coefIdentity, rfl, rfl, rfl,
    rfl, rfl⟩
  case history => cases ch <;> exact get_histZero n

/-- Settles O26: PREPARE's one check outside BUSY, and an acceptance that raises nothing. -/
theorem prepareRefusesBadConfig : Obligations.PrepareRefusesBadConfig := fun _ hb =>
  ⟨exec_prepare_badConfig hb, fun hgood => ⟨_, exec_prepare_accepted hb hgood, rfl, rfl, rfl⟩⟩

/-- Settles O27: RELEASE is accepted outside BUSY, and the state it leaves is UNPREPARED. -/
theorem releaseUnprepares : Obligations.ReleaseUnprepares := fun _ hb =>
  ⟨exec_release_accepted hb, exec_process_unprepared rfl⟩

/-- Settles O28: PROCESS in READY with a block that is not too long. -/
theorem processLatchesAndStartsJob : Obligations.ProcessLatchesAndStartsJob := fun s hr hlen => by
  rw [exec_process_ready hr, if_pos hlen]
  rfl

/-- Settles O29: the check of STATE comes first, then that of BLOCK_LEN. -/
theorem processRefusals : Obligations.ProcessRefusals := fun s =>
  ⟨exec_process_unprepared, fun hr hlong => by rw [exec_process_ready hr, if_neg (Nat.not_le_of_lt hlong)]⟩

/-- Settles O30: each of the three commands runs through `unlessBusy`. -/
theorem busyRefusesCommands : Obligations.BusyRefusesCommands := fun _ hb =>
  ⟨congrArg _ (unlessBusy_of_busy hb _ _), congrArg _ (unlessBusy_of_busy hb _ _), congrArg _ (unlessBusy_of_busy hb _ _)⟩

/-! ### The frame -/

/-- What no command writes, whatever it answers, is as before. -/
structure RegistersKept (s t : State) : Prop where
  regs : t.regs = s.regs
  sampleRate : t.sampleRate = s.sampleRate
  maxBlock : t.maxBlock = s.maxBlock
  blockLen : t.blockLen = s.blockLen
  intEn : t.intEn = s.intEn
  done : t.done = s.done
  inputs : t.inputs = s.inputs
  rdata : t.rdata = s.rdata
  params : t.params = s.params
  resets : t.resets = s.resets
  mem : t.mem = s.mem

section Frame

variable {i : Instr} {s t : State} (e : CommandEffect i s t)
include e

theorem CommandEffect.registersKept : RegistersKept s t := by
  cases e <;> exact ⟨rfl, rfl, rfl, rfl, rfl, rfl, rfl, rfl, rfl, rfl, rfl⟩

/-- SNAP and LEN_L are written by an accepted PROCESS only (R199). -/
theorem CommandEffect.latch_kept (hi : i ≠ .process) : t.snap = s.snap ∧ t.lenL = s.lenL := by
  cases e with
  | accepted h _ _ => exact absurd h hi
  | _ => exact ⟨rfl, rfl⟩

/-- FS_L and MAXBLK_L are written by an accepted PREPARE only (R196). -/
theorem CommandEffect.config_kept (hi : i ≠ .prepare) : t.fsL = s.fsL ∧ t.maxBlkL = s.maxBlkL := by
  cases e with
  | prepared h _ _ => exact absurd h hi
  | _ => exact ⟨rfl, rfl⟩

theorem CommandEffect.streamKept (hi : i ≠ .prepare) : StreamKept s t :=
  e.streamKept_or_prepared.resolve_right fun hp => hi hp.1

theorem CommandEffect.eq_of_nop (hi : i = .nop) : t = s := by
  cases e with
  | none _ => rfl
  | refused _ _ h => exact absurd hi h
  | prepared h _ _ | released h _ | accepted h _ _ => cases hi.symm.trans h

end Frame

/-- Settles O32: no effect of a command reaches the registers, the order or the memory, and each latch and the stream have one
command that writes them. -/
theorem commandFrame : Obligations.CommandFrame := by
  intro i s t h
  have e := effect_of_exec h
  have k := e.registersKept
  have memory (a : ℕ) : memByte t.resets t.mem a = memByte s.resets s.mem a := by rw [k.resets, k.mem]
  refine ⟨k.regs, k.sampleRate, k.maxBlock, k.blockLen, k.intEn, k.done, k.inputs, k.rdata, k.params, k.resets, memory,
    e.latch_kept, fun hi => ?stream, e.eq_of_nop⟩
  case stream =>
    obtain ⟨hfs, hmax⟩ := e.config_kept hi
    have c := e.streamKept hi
    exact ⟨hfs, hmax, c.coefs, c.histLeft, c.histRight, c.lcActive, c.hcActive, c.blockCount⟩

end Sys2Proof.Machine
end

section
/-! The block job (44_processor.md R201 to R215): streaming in place is the channel chain over the block's words, a job is one pure run
for each channel, and a commit installs its sets where they were installed before. -/

namespace Sys2Proof.Machine

/-! ### Frames of a buffer -/

/-- The words of `count` frames of a channel's buffer from frame `n` on. -/
def frames (r : ℕ) (m : List Host.Cell) (ch : Channel) (n count : ℕ) : List Word :=
  (List.range' n count).map (bufRead r m ch)

theorem frames_succ (r : ℕ) (m : List Host.Cell) (ch : Channel) (n count : ℕ) :
    frames r m ch n (count + 1) = bufRead r m ch n :: frames r m ch (n + 1) count := rfl

theorem frames_congr {r : ℕ} {m m' : List Host.Cell} {ch : Channel} {n count : ℕ}
    (h : ∀ i, n ≤ i → i < n + count → bufRead r m ch i = bufRead r m' ch i) :
    frames r m ch n count = frames r m' ch n count :=
  List.map_congr_left fun i hi => h i (List.mem_range'_1.1 hi).1 (List.mem_range'_1.1 hi).2

theorem block_eq_frames (s : State) (ch : Channel) (n : ℕ) : Claims.block s ch n = frames s.resets s.mem ch 0 n := by
  rw [Claims.block, List.range_eq_range']
  rfl

theorem block_eq_block_iff {s t : State} {ch ch' : Channel} {n : ℕ} :
    Claims.block s ch n = Claims.block t ch' n ↔ ∀ i < n, s.buf ch i = t.buf ch' i := by
  simp only [Claims.block, List.map_inj_left, List.mem_range]

/-! ### Streaming -/

/-- Streaming leaves the other channel's words and the words outside its own frames alone (20_memory.md R79). -/
theorem bufRead_streamFrames_other (e : StreamEnv) {ch ch' : Channel} (r : ℕ) {count n i : ℕ}
    (mh : List Host.Cell × HistFile) (hn : n + count ≤ 16384) (hi : i < 16384) (h : ch ≠ ch' ∨ i < n ∨ n + count ≤ i) :
    bufRead r (streamFrames e ch count n mh).1 ch' i = bufRead r mh.1 ch' i := by
  induction count generalizing n mh with
  | zero => rfl
  | succ count ih =>
    rw [streamFrames, ih _ (by omega) (h.imp_right (by omega))]
    exact bufRead_bufWrite_other r _ _ (by omega) hi (h.imp_right (by omega))

/-- Streaming one channel in place is the chain's run on the words that stood in its frames: a frame is read before any write to it,
and no later frame writes to it (R206). -/
theorem streamFrames_eq_chainRun (e : StreamEnv) (ch : Channel) {count n : ℕ} (mh : List Host.Cell × HistFile)
    (hn : n + count ≤ 16384) :
    (frames e.resets (streamFrames e ch count n mh).1 ch n count, (streamFrames e ch count n mh).2) =
      Claims.chainRun e mh.2 (frames e.resets mh.1 ch n count) := by
  induction count generalizing n mh with
  | zero => rfl
  | succ count ih =>
    have rest (y : Word) :
        frames e.resets (bufWrite mh.1 ch n y) ch (n + 1) count = frames e.resets mh.1 ch (n + 1) count :=
      frames_congr fun i hlo hhi => bufRead_bufWrite_other _ _ y (by omega) (by omega) (.inr (by omega))
    have first (mh' : List Host.Cell × HistFile) :
        bufRead e.resets (streamFrames e ch count (n + 1) mh').1 ch n = bufRead e.resets mh'.1 ch n :=
      bufRead_streamFrames_other e _ mh' (by omega) (by omega) (.inr (.inl n.lt_succ_self))
    rw [frames_succ, frames_succ, streamFrames, first, bufRead_bufWrite_same, Claims.chainRun]
    generalize channelChain _ _ _ _ _ _ = y
    rw [← rest y.1]
    exact congrArg (fun q : List Word × HistFile => (y.1 :: q.1, q.2)) (ih (bufWrite mh.1 ch n y.1, y.2) (by omega))

theorem streamBlock_memByte_other {s : State} {a : ℕ}
    (ha : ∀ c : Channel, ¬(bufAddr c 0 ≤ a ∧ a < bufAddr c s.lenL.toNat)) (r : ℕ) :
    memByte r (streamBlock s).mem a = memByte r s.mem a := by
  have hout (c : Channel) : ¬inFrames c 0 s.lenL.toNat a := by
    rw [inFrames, Nat.zero_add]
    exact ha c
  exact (streamFrames_memByte_other _ _ r _ _ _ (hout .right)).trans (streamFrames_memByte_other _ _ r _ _ _ (hout .left))

/-- The streaming phase is one run of the chain for each channel: neither channel's frames touch the other's (R206, R207). -/
theorem streamBlock_eq_chainRun {s : State} (hlen : s.lenL.toNat ≤ 16384) (ch : Channel) :
    (Claims.block (streamBlock s) ch s.lenL.toNat, (streamBlock s).hist ch) =
      Claims.chainRun s.streamEnv (s.hist ch) (Claims.block s ch s.lenL.toNat) := by
  have other {c c' : Channel} (hc : c ≠ c') (mh : List Host.Cell × HistFile) :
      frames s.resets (streamFrames s.streamEnv c s.lenL.toNat 0 mh).1 c' 0 s.lenL.toNat =
        frames s.resets mh.1 c' 0 s.lenL.toNat :=
    frames_congr fun i _ hi => bufRead_streamFrames_other _ _ mh (by omega) (by omega) (.inl hc)
  have run (c : Channel) (mh : List Host.Cell × HistFile) :=
    streamFrames_eq_chainRun s.streamEnv c mh (show 0 + s.lenL.toNat ≤ 16384 by omega)
  rw [block_eq_frames, block_eq_frames]
  cases ch with
  | left =>
    exact (congrArg (·, (streamBlock s).histLeft) (other (by decide) _)).trans (run .left (s.mem, s.histLeft))
  | right =>
    rw [← other (c := .left) (by decide) (s.mem, s.histLeft)]
    exact run .right (_, s.hist .right)

/-- Settles O49: the run of each channel, and the bytes that neither streams. -/
theorem streamingRefinesPureChain : Obligations.StreamingRefinesPureChain := fun _ hlen ch =>
  ⟨congrArg Prod.fst (streamBlock_eq_chainRun hlen ch), congrArg Prod.snd (streamBlock_eq_chainRun hlen ch),
    fun _ ha => streamBlock_memByte_other ha _, rfl⟩

/-! ### The two ends of a job -/

/-- The job of `s` commits and streams: its snapshot passes ParamCheck and its coefficients pass FiniteCheck (R202, R204). -/
abbrev State.jobPasses (s : State) : Prop := paramCheck s.snap s.fsL = none ∧ finiteCheck (factorySets s) = true

theorem job_of_passes {s : State} (h : s.jobPasses) : job s = endJob (streamBlock (commit (factorySets s) s)) := by
  obtain ⟨hparam, hfinite⟩ := h
  simp only [job, jobWithSets, hparam, hfinite, if_true]

theorem job_of_not_passes {s : State} (h : ¬s.jobPasses) : ∃ c info, job s = endJob (raise c info s) := by
  have e := job_effect s
  generalize job s = t at e ⊢
  cases e with
  | badParam off _ => exact ⟨_, _, rfl⟩
  | notFinite _ _ => exact ⟨_, _, rfl⟩
  | done hparam hfinite => exact absurd ⟨hparam, hfinite⟩ h

theorem step_of_completionNext {s : State} (h : Claims.completionNext s) : step s = .next (job (s.begin s.inputs.tail)) :=
  step_of_completion h.1 h.2

/-! ### Aborted jobs -/

theorem Coefs.finite_eq_false_iff (c : Coefs) : c.finite = false ↔ Claims.notFinite c := by
  simp only [Coefs.finite, Claims.notFinite, Bool.and_eq_false_iff, or_assoc]

theorem finiteCheck_eq_false_iff (k : FactorySets) : finiteCheck k = false ↔
    Claims.notFinite k.peak ∨ (∃ c ∈ k.lowCut, Claims.notFinite c) ∨ ∃ c ∈ k.highCut, Claims.notFinite c := by
  simp only [finiteCheck, Bool.and_eq_false_iff, List.all_eq_false, Bool.not_eq_true, Coefs.finite_eq_false_iff, or_assoc]

/-- Settles O47: the first check that fails raises its error and ends the job. -/
theorem jobAborts : Obligations.JobAborts := by
  refine ⟨fun s off hnext hparam => ?badParam, fun s k hnum => ?notFinite⟩
  case badParam =>
    have hparam' : paramCheck (s.begin s.inputs.tail).snap (s.begin s.inputs.tail).fsL = some off := hparam
    rw [step_of_completionNext hnext, job, hparam']
    rfl
  case notFinite =>
    rw [jobWithSets, (finiteCheck_eq_false_iff k).2 hnum]
    rfl

/-! ### The committed bank -/

/-- The bank with a job's sets installed: the peak set in section 4, then those of each cascade (R205). -/
def FactorySets.install (k : FactorySets) (bank : CoefBank) : CoefBank :=
  installSets Cascade.highCut.sections k.highCut (installSets Cascade.lowCut.sections k.lowCut (bank.set 4 k.peak))

/-- What a commit writes, in one record (R205, R215). -/
theorem commit_eq (k : FactorySets) (s : State) : commit k s = { s with
    coefs := k.install s.coefs
    lcActive := BitVec.ofNat 3 (slopeSections s.snap.lowCutSlope)
    hcActive := BitVec.ofNat 3 (slopeSections s.snap.highCutSlope)
    blockCount := s.blockCount + 1#32 } := rfl

theorem CoefBank.get_set (bank : CoefBank) (c : Coefs) (n m : Fin 9) :
    (bank.set n.val c n.isLt).get m = if n = m then c else bank.get m := by
  simp only [Vector.get_eq_getElem, Vector.getElem_set, Fin.ext_iff]

/-- Section `i` of the list takes set `i`, or keeps its words if there is none (43_cut_cascade.md R181). -/
theorem installSets_get {l : List (Fin 9)} (hl : l.Nodup) (cs : List Coefs) (bank : CoefBank) {i : ℕ} {n : Fin 9}
    (hn : l[i]? = some n) : (installSets l cs bank).get n = cs[i]?.getD (bank.get n) := by
  induction l generalizing cs bank i with
  | nil => cases hn
  | cons m l ih =>
    obtain ⟨hm, hl⟩ := List.nodup_cons.1 hl
    cases cs with
    | nil => rfl
    | cons c cs =>
      rw [installSets]
      cases i with
      | zero =>
        cases hn
        rw [installSets_get_other l hm, CoefBank.get_set, if_pos rfl]
        rfl
      | succ i =>
        have hne : m ≠ n := fun h => hm (h ▸ List.mem_of_getElem? hn)
        rw [ih hl _ _ hn, CoefBank.get_set, if_neg hne]
        rfl

/-- The low cut's sections are 0 to 3, and so neither the peak section nor of the high cut (43_cut_cascade.md R180). -/
theorem lowCut_section_place : ∀ i : Fin 4, Cascade.lowCut.sections[i.val]? = some ⟨i.val, by omega⟩ ∧
    ⟨i.val, by omega⟩ ∉ Cascade.highCut.sections ∧ (4 : Fin 9) ≠ ⟨i.val, by omega⟩ := by decide

/-- The high cut's sections are 5 to 8, and so neither the peak section nor of the low cut (43_cut_cascade.md R180). -/
theorem highCut_section_place : ∀ i : Fin 4, Cascade.highCut.sections[i.val]? = some ⟨5 + i.val, by omega⟩ ∧
    ⟨5 + i.val, by omega⟩ ∉ Cascade.lowCut.sections ∧ (4 : Fin 9) ≠ ⟨5 + i.val, by omega⟩ := by decide

section Install

variable (k : FactorySets) (bank : CoefBank)

theorem install_get_peak : (k.install bank).get 4 = k.peak := by
  rw [FactorySets.install, installSets_get_other _ (by decide), installSets_get_other _ (by decide)]
  exact CoefBank.get_set bank k.peak 4 4

theorem install_get_lowCut {i : ℕ} (hi : i < 4) :
    (k.install bank).get ⟨i, by omega⟩ = k.lowCut[i]?.getD (bank.get ⟨i, by omega⟩) := by
  obtain ⟨hsection, hhigh, hpeak⟩ := lowCut_section_place ⟨i, hi⟩
  rw [FactorySets.install, installSets_get_other _ hhigh, installSets_get (by decide) _ _ hsection]
  exact congrArg _ ((CoefBank.get_set bank k.peak 4 _).trans (if_neg hpeak))

theorem install_get_highCut {i : ℕ} (hi : i < 4) :
    (k.install bank).get ⟨5 + i, by omega⟩ = k.highCut[i]?.getD (bank.get ⟨5 + i, by omega⟩) := by
  obtain ⟨hsection, hlow, hpeak⟩ := highCut_section_place ⟨i, hi⟩
  rw [FactorySets.install, installSets_get (by decide) _ _ hsection, installSets_get_other _ hlow]
  exact congrArg _ ((CoefBank.get_set bank k.peak 4 _).trans (if_neg hpeak))

/-- Installing the same sets again changes nothing: each section holds its set already, or keeps its words both times. -/
theorem install_install : k.install (k.install bank) = k.install bank := by
  have twice (c : Option Coefs) (d : Coefs) : c.getD (c.getD d) = c.getD d := by cases c <;> rfl
  refine Vector.ext fun n hn => ?_
  change (k.install (k.install bank)).get ⟨n, hn⟩ = (k.install bank).get ⟨n, hn⟩
  obtain hlow | rfl | hhigh : n < 4 ∨ n = 4 ∨ 5 ≤ n := by omega
  · rw [install_get_lowCut k _ hlow, install_get_lowCut k _ hlow, twice]
  · exact (install_get_peak k _).trans (install_get_peak k _).symm
  · obtain ⟨i, rfl⟩ := Nat.exists_eq_add_of_le hhigh
    have hi : i < 4 := by omega
    rw [install_get_highCut k _ hi, install_get_highCut k _ hi, twice]

end Install

theorem commit_commit (k : FactorySets) (s : State) :
    commit k (commit k s) = { commit k s with blockCount := s.blockCount + 2#32 } := by
  rw [commit_eq, commit_eq, install_install, BitVec.add_assoc]
  rfl

/-- What a job that commits the sets `k` leaves (R205, R206, R208, R215). -/
structure Committed (k : FactorySets) (s t : State) : Prop where
  coefs : t.coefs = k.install s.coefs
  lcActive : t.lcActive.toNat = s.snap.lowCutSlope.toNat + 1
  hcActive : t.hcActive.toNat = s.snap.highCutSlope.toNat + 1
  channel : s.lenL.toNat ≤ 16384 → ∀ ch : Channel, (Claims.block t ch s.lenL.toNat, t.hist ch) =
    Claims.chainRun t.streamEnv (s.hist ch) (Claims.block s ch s.lenL.toNat)
  memory : ∀ a, (∀ c : Channel, ¬(bufAddr c 0 ≤ a ∧ a < bufAddr c s.lenL.toNat)) →
    memByte t.resets t.mem a = memByte s.resets s.mem a
  blockCount : t.blockCount = s.blockCount + 1#32
  seq : t.seq = .ready
  done : t.done = true
  frame : t = { s with
    coefs := t.coefs, lcActive := t.lcActive, hcActive := t.hcActive, blockCount := t.blockCount, seq := t.seq,
    done := t.done, histLeft := t.histLeft, histRight := t.histRight, mem := t.mem }

theorem Committed.params {k : FactorySets} {s t : State} (c : Committed k s t) : t.params = s.params := by
  rw [c.frame]

theorem committed_commit (k : FactorySets) (s : State) : Committed k s (endJob (streamBlock (commit k s))) := by
  rw [commit_eq]
  exact {
    coefs := rfl
    lcActive := slopeSections_toNat _
    hcActive := slopeSections_toNat _
    channel := fun hlen => streamBlock_eq_chainRun hlen
    memory := fun _ ha => streamBlock_memByte_other (by exact ha) s.resets
    blockCount := rfl
    seq := rfl
    done := rfl
    frame := rfl }

theorem committed_of_passes {s : State} (h : s.jobPasses) : Committed (factorySets s) s (job s) := by
  rw [job_of_passes h]
  exact committed_commit _ s

/-- Settles O48: a job that passes its checks commits, and its sets are one for each of the S sections. -/
theorem jobCommits : Obligations.JobCommits := by
  intro s hnext hparam hfinite
  have hpasses : (s.begin s.inputs.tail).jobPasses := ⟨hparam, hfinite⟩
  have c := committed_of_passes hpasses
  rw [step_of_completionNext hnext]
  generalize job (s.begin s.inputs.tail) = t at c
  refine ⟨t, rfl, ?peak, ?lowCut, ?highCut, ?lowCutLength, ?highCutLength, c.lcActive, c.hcActive,
    fun hlen ch => Prod.mk.inj (c.channel hlen ch), c.memory, c.blockCount, c.seq, c.done, c.frame⟩
  case peak => exact c.coefs ▸ install_get_peak _ _
  case lowCut => exact fun i hi => c.coefs ▸ install_get_lowCut _ _ hi
  case highCut => exact fun i hi => c.coefs ▸ install_get_highCut _ _ hi
  case lowCutLength => simp [factorySets, makeHighpassCascade, slopeSections]
  case highCutLength => simp [factorySets, makeLowpassCascade, slopeSections]

/-! ### The job as one run of each channel -/

/-- What the job of `s` makes of one channel's history and block: the chain's run with the coefficients and counts that it leaves, or
nothing if it aborts (R206, R209). -/
def State.jobRun (s : State) (h : HistFile) (xs : List Word) : List Word × HistFile :=
  if s.jobPasses then Claims.chainRun (job s).streamEnv h xs else (xs, h)

theorem job_eq_jobRun {s : State} (hlen : s.lenL.toNat ≤ 16384) (ch : Channel) :
    (Claims.block (job s) ch s.lenL.toNat, (job s).hist ch) = s.jobRun (s.hist ch) (Claims.block s ch s.lenL.toNat) := by
  unfold State.jobRun
  split
  · next h => exact (committed_of_passes h).channel hlen ch
  · next h =>
    obtain ⟨c, info, hjob⟩ := job_of_not_passes h
    rw [hjob]
    rfl

theorem HistFile.ext_get {h h' : HistFile} (e : ∀ n : Fin 9, h.get n = h'.get n) : h = h' :=
  Vector.ext fun i hi => e ⟨i, hi⟩

/-- Settles O50: both channels go through the same run, which reads nothing but the channel's history and block. -/
theorem stereoLinkage : Obligations.StereoLinkage := by
  intro s t hnext hlen hhist hblock hstep
  cases (step_of_completionNext hnext).symm.trans hstep
  have hhist' : s.hist .left = s.hist .right := HistFile.ext_get hhist
  have hblock' : Claims.block s .left s.lenL.toNat = Claims.block s .right s.lenL.toNat := block_eq_block_iff.2 hblock
  have left := job_eq_jobRun (s := s.begin s.inputs.tail) hlen .left
  have right := job_eq_jobRun (s := s.begin s.inputs.tail) hlen .right
  have same := left.trans ((congrArg₂ (s.begin s.inputs.tail).jobRun hhist' hblock').trans right.symm)
  obtain ⟨hblocks, hhists⟩ := Prod.mk.inj same
  exact ⟨fun n => congrArg (·.get n) hhists, block_eq_block_iff.1 hblocks⟩

/-! ### A block split in two -/

/-- The chain's run reads only FTZ, the bank and the counts of its environment. -/
theorem chainRun_congr {e e' : StreamEnv} (hftz : e.ftz = e'.ftz) (hbank : e.bank = e'.bank) (hlc : e.lc = e'.lc)
    (hhc : e.hc = e'.hc) : Claims.chainRun e = Claims.chainRun e' := by
  funext h xs
  induction xs generalizing h with
  | nil => rfl
  | cons x xs ih => rw [Claims.chainRun, Claims.chainRun, hftz, hbank, hlc, hhc, ih]

/-- A run over two lists joined is a run over the first and then, from the history it leaves, over the second (R211). -/
theorem chainRun_append (e : StreamEnv) (h : HistFile) (xs ys : List Word) :
    Claims.chainRun e h (xs ++ ys) =
      ((Claims.chainRun e h xs).1 ++ (Claims.chainRun e (Claims.chainRun e h xs).2 ys).1,
        (Claims.chainRun e (Claims.chainRun e h xs).2 ys).2) := by
  induction xs generalizing h with
  | nil => rfl
  | cons x xs ih => rw [List.cons_append, Claims.chainRun, ih]; rfl

theorem jobRun_append (s : State) (h : HistFile) (xs ys : List Word) :
    s.jobRun h (xs ++ ys) =
      ((s.jobRun h xs).1 ++ (s.jobRun (s.jobRun h xs).2 ys).1, (s.jobRun (s.jobRun h xs).2 ys).2) := by
  unfold State.jobRun
  split
  · exact chainRun_append ..
  · rfl

/-- What the job of `s` makes of a coefficient bank. -/
def State.jobBank (s : State) (bank : CoefBank) : CoefBank :=
  if s.jobPasses then (factorySets s).install bank else bank

theorem job_coefs (s : State) : (job s).coefs = s.jobBank s.coefs := by
  unfold State.jobBank
  split
  · next h => exact (committed_of_passes h).coefs
  · next h =>
    obtain ⟨c, info, hjob⟩ := job_of_not_passes h
    rw [hjob]
    rfl

theorem jobBank_jobBank (s : State) (bank : CoefBank) : s.jobBank (s.jobBank bank) = s.jobBank bank := by
  unfold State.jobBank
  split
  · exact install_install _ bank
  · rfl

section SameSetup

variable {s u : State} (hset : Claims.sameSetup s u)
include hset

theorem factorySets_of_sameSetup : factorySets u = factorySets s := by
  obtain ⟨hparams, hsnap, hfs⟩ := hset
  simp only [factorySets, hparams, hsnap, hfs]

theorem jobPasses_of_sameSetup : u.jobPasses ↔ s.jobPasses := by
  have hsets := factorySets_of_sameSetup hset
  obtain ⟨-, hsnap, hfs⟩ := hset
  rw [State.jobPasses, hsets, hsnap, hfs]

theorem jobBank_of_sameSetup : u.jobBank = s.jobBank := by
  funext bank
  simp only [State.jobBank, jobPasses_of_sameSetup hset, factorySets_of_sameSetup hset]

theorem job_counts_of_sameSetup (hs : s.jobPasses) :
    (job u).lcActive = (job s).lcActive ∧ (job u).hcActive = (job s).hcActive := by
  have cs := committed_of_passes hs
  have cu := committed_of_passes ((jobPasses_of_sameSetup hset).2 hs)
  obtain ⟨-, hsnap, -⟩ := hset
  refine ⟨BitVec.eq_of_toNat_eq ?lc, BitVec.eq_of_toNat_eq ?hc⟩
  case lc => rw [cu.lcActive, cs.lcActive, hsnap]
  case hc => rw [cu.hcActive, cs.hcActive, hsnap]

/-- Two jobs of one setup that leave the same bank are the same run. -/
theorem jobRun_of_sameSetup (hbank : (job u).coefs = (job s).coefs) : u.jobRun = s.jobRun := by
  funext h xs
  have hpasses := jobPasses_of_sameSetup hset
  by_cases hs : s.jobPasses
  · obtain ⟨hlc, hhc⟩ := job_counts_of_sameSetup hset hs
    have hparams : (job u).params = (job s).params := by
      rw [(committed_of_passes (hpasses.2 hs)).params, (committed_of_passes hs).params, hset.1]
    rw [State.jobRun, State.jobRun, if_pos hs, if_pos (hpasses.2 hs)]
    rw [chainRun_congr (e := (job u).streamEnv) (e' := (job s).streamEnv) (congrArg Params.ftz hparams) hbank
      (congrArg BitVec.toNat hlc) (congrArg BitVec.toNat hhc)]
  · rw [State.jobRun, State.jobRun, if_neg hs, if_neg (hpasses.not.2 hs)]

/-- A job that begins with the bank and the counts that one of its setup left writes them again (R211). -/
theorem job_bank_again (hcoefs : u.coefs = (job s).coefs) (hlc : u.lcActive = (job s).lcActive)
    (hhc : u.hcActive = (job s).hcActive) :
    (job u).coefs = (job s).coefs ∧ (job u).lcActive = (job s).lcActive ∧ (job u).hcActive = (job s).hcActive := by
  refine ⟨?coefs, ?counts⟩
  case coefs => rw [job_coefs, hcoefs, jobBank_of_sameSetup hset, job_coefs, jobBank_jobBank]
  case counts =>
    by_cases hs : s.jobPasses
    · exact job_counts_of_sameSetup hset hs
    · obtain ⟨c, info, hjob⟩ := job_of_not_passes ((jobPasses_of_sameSetup hset).not.2 hs)
      rw [hjob]
      exact ⟨hlc, hhc⟩

end SameSetup

section Split

variable {s u v : State}

theorem sameSetup_right (hsu : Claims.sameSetup s u) (hsv : Claims.sameSetup s v) : Claims.sameSetup u v := by
  obtain ⟨hparams, hsnap, hfs⟩ := hsu
  rwa [Claims.sameSetup, hparams, hsnap, hfs]

/-- A channel's block, split in two, goes through one run: the second job goes on from the history that the first leaves (R211). -/
theorem job_channel_split {ch : Channel} (hu : u.jobRun = s.jobRun) (hv : v.jobRun = s.jobRun)
    (hlen : s.lenL.toNat = u.lenL.toNat + v.lenL.toNat) (hmax : s.lenL.toNat ≤ 16384) (hhu : u.hist ch = s.hist ch)
    (hhv : v.hist ch = (job u).hist ch)
    (hblock : Claims.block s ch s.lenL.toNat = Claims.block u ch u.lenL.toNat ++ Claims.block v ch v.lenL.toNat) :
    Claims.block (job s) ch s.lenL.toNat =
        Claims.block (job u) ch u.lenL.toNat ++ Claims.block (job v) ch v.lenL.toNat ∧
      (job s).hist ch = (job v).hist ch := by
  have whole := job_eq_jobRun hmax ch
  have first := job_eq_jobRun (s := u) (by omega) ch
  have second := job_eq_jobRun (s := v) (by omega) ch
  rw [hu, hhu] at first
  rw [hv, hhv] at second
  rw [hblock, jobRun_append, ← first, ← second] at whole
  exact Prod.mk.inj whole

/-- Of three jobs of one setup, `u` from the bank of `s` and `v` from what `u` left, each leaves one bank and is one run. -/
theorem job_bank_split (hsu : Claims.sameSetup s u) (hsv : Claims.sameSetup s v) (hcu : u.coefs = s.coefs)
    (hcv : v.coefs = (job u).coefs) (hlc : v.lcActive = (job u).lcActive) (hhc : v.hcActive = (job u).hcActive) :
    (u.jobRun = s.jobRun ∧ v.jobRun = s.jobRun) ∧ (job s).coefs = (job v).coefs ∧ (job v).coefs = (job u).coefs ∧
      (job v).lcActive = (job u).lcActive ∧ (job v).hcActive = (job u).hcActive := by
  have first : (job u).coefs = (job s).coefs := by rw [job_coefs, job_coefs, jobBank_of_sameSetup hsu, hcu]
  have again := job_bank_again (sameSetup_right hsu hsv) hcv hlc hhc
  have second : (job v).coefs = (job s).coefs := again.1.trans first
  exact ⟨⟨jobRun_of_sameSetup hsu first, jobRun_of_sameSetup hsv second⟩, second.symm, again⟩

end Split

/-- Settles O51: an installation is idempotent, and the three jobs are one run, on a block and on its two parts. -/
theorem repeatedCommitAndBlockSplit : Obligations.RepeatedCommitAndBlockSplit := by
  refine ⟨commit_commit, ?split⟩
  case split =>
    intro s u v s' u' v' hs hu hv hs' hu' hv' hsu hsv hcu hcv hlc hhc hlen hmax hhu hhv hblock
    cases (step_of_completionNext hs).symm.trans hs'
    cases (step_of_completionNext hu).symm.trans hu'
    cases (step_of_completionNext hv).symm.trans hv'
    obtain ⟨⟨hrunU, hrunV⟩, hbank⟩ := job_bank_split (s := s.begin s.inputs.tail) (u := u.begin u.inputs.tail)
      (v := v.begin v.inputs.tail) hsu hsv hcu hcv hlc hhc
    exact ⟨fun ch => job_channel_split hrunU hrunV hlen hmax (hhu ch) (hhv ch) (hblock ch), hbank⟩

/-! ### Every job ends -/

theorem regWrite_inputs (v : Word) (s : State) (r : Reg) : (regWrite v s r).inputs = s.inputs := by cases r <;> rfl

theorem StoreEffect.inputs {off v : Word} {s t : State} (e : StoreEffect off v s t) : t.inputs = s.inputs := by
  cases e with
  | register r _ => exact regWrite_inputs v s r
  | _ => rfl

theorem AccessEffect.inputs {s t : State} (e : AccessEffect s t) : t.inputs = s.inputs := by
  cases e with
  | store _ _ _ e => exact e.inputs
  | _ => rfl

theorem busStep_inputs {x : Txn} {b t : State} (h : busStep x b = .next t) : t.inputs = b.inputs := by
  obtain ⟨_, _, e⟩ | e := busStep_cases h
  · exact e.registersKept.inputs
  · exact e.inputs

/-- A transaction in BUSY takes its own entry off the order and leaves the job pending. -/
theorem step_of_transaction_busy {s : State} {rest : List Input} {x : Txn} (hb : s.seq = .busy)
    (hi : s.inputs = .transaction x :: rest) : ∃ t, step s = .next t ∧ t.seq = .busy ∧ t.inputs = rest := by
  obtain ⟨t, ht, -⟩ := busStep_effect x (s.begin rest)
  exact ⟨t, (step_of_transaction hi).trans ht, (busStep_jobDataKept (b := s.begin rest) hb ht).seq.trans hb, busStep_inputs ht⟩

/-- Settles O53, by induction on the entries to come: a transaction leaves one entry fewer, and any other entry but a reset, like
the end of the order, is the completion step. -/
theorem pendingJobCompletes : Obligations.PendingJobCompletes := by
  intro s hb hreset
  have completes (s : State) (hnext : Claims.completionNext s) :
      ∃ k t, k ≤ s.inputs.length + 1 ∧ Host.Core.run core k s = .next t ∧ t.seq = .ready ∧ t.done = true :=
    ⟨1, _, Nat.le_add_left 1 _, run_of_step (step_of_completionNext hnext) 0, job_seq _, job_done _⟩
  induction hi : s.inputs generalizing s with
  | nil => exact hi ▸ completes s ⟨hb, .inl hi⟩
  | cons x rest ih =>
    cases x with
    | transaction x =>
      obtain ⟨t, hstep, htb, hti⟩ := step_of_transaction_busy hb hi
      have hrest : .resetInput ∉ t.inputs := fun h => hreset (hi ▸ List.mem_cons_of_mem _ (hti ▸ h))
      obtain ⟨k, u, hk, hrun, hu⟩ := ih t htb hrest hti
      exact ⟨k + 1, u, Nat.succ_le_succ hk, (run_of_step hstep k).trans hrun, hu⟩
    | sequencerTurn => exact hi ▸ completes s ⟨hb, .inr ⟨rest, hi⟩⟩
    | resetInput => exact absurd (hi ▸ List.mem_cons_self) hreset

end Sys2Proof.Machine
end

section
/-! Errors over all steps (60_exceptions.md R230 to R246): which bit a cause sets and what a raise records, that every ERR bit a step sets
has its cause in the fault record, which check of a command raises its error, and what leaves each STATE. -/

namespace Sys2Proof.Machine

/-! ### Causes, codes and bits (R230, R231) -/

theorem ErrCause.code_pos (c : ErrCause) : 1 ≤ c.code.toNat := by cases c <;> decide

/-- The ERR bit of code k is bit k - 1 of STATUS[14:8]. -/
theorem ErrCause.bit_eq_twoPow (c : ErrCause) : c.bit = BitVec.twoPow 7 (c.code.toNat - 1) := by cases c <;> rfl

theorem ErrCause.bit_getLsbD (c : ErrCause) (k : ℕ) : c.bit.getLsbD k = decide (k + 1 = c.code.toNat) := by
  have hpos := c.code_pos
  have hle := c.code_le
  rw [c.bit_eq_twoPow, BitVec.getLsbD_twoPow, ← Bool.decide_and, decide_eq_decide]
  omega

theorem raise_errs_getLsbD (c : ErrCause) (info : Word) (s : State) (k : ℕ) :
    (raise c info s).errs.getLsbD k = (s.errs.getLsbD k || decide (k + 1 = c.code.toNat)) := by
  rw [raise_errs, BitVec.getLsbD_or, c.bit_getLsbD]

theorem statusWord_getLsbD_errs (s : State) {k : ℕ} (hk : k < 7) : (statusWord s).getLsbD (8 + k) = s.errs.getLsbD k := by
  rw [← statusWord_errs, BitVec.getLsbD_extractLsb', decide_eq_true hk, Bool.true_and]

/-- Settles O7: FIRST_ERR and ERR_INFO by whether an ERR bit is set, and the ERR bits one by one. -/
theorem raiseRecordsFirstError : Obligations.RaiseRecordsFirstError := fun c info s =>
  ⟨fun h => ⟨if_pos h, if_pos h⟩, fun h => ⟨if_neg h, if_neg h⟩, raise_errs_getLsbD c info s, rfl, rfl⟩

/-- Settles O8: the bit that a raise sets, read at its place in the STATUS word. -/
theorem causeCodesAndBits : Obligations.CauseCodesAndBits := by
  refine ⟨rfl, rfl, rfl, rfl, rfl, rfl, rfl, fun c info s => ?_⟩
  have hle := c.code_le
  obtain ⟨k, hk⟩ := Nat.exists_eq_add_of_le c.code_pos
  calc (statusWord (raise c info s)).getLsbD (7 + c.code.toNat)
      = (statusWord (raise c info s)).getLsbD (8 + k) := by rw [hk, ← Nat.add_assoc]
    _ = (raise c info s).errs.getLsbD k := statusWord_getLsbD_errs _ (by omega)
    _ = true := by rw [raise_errs_getLsbD, decide_eq_true (by omega), Bool.or_true]

/-! ### What accesses and jobs keep -/

theorem StoreEffect.seq_params {off v : Word} {b t : State} (e : StoreEffect off v b t) :
    t.seq = b.seq ∧ t.params = b.params := by
  cases e with
  | register r _ =>
    have k := regWrite_jobDataKept v b r
    exact ⟨k.seq, k.params⟩
  | _ => exact ⟨rfl, rfl⟩

/-- An access that issues no command leaves STATE and the parameters as they are. -/
theorem AccessEffect.seq_params {b t : State} (e : AccessEffect b t) : t.seq = b.seq ∧ t.params = b.params := by
  cases e with
  | store _ _ _ e => exact e.seq_params
  | _ => exact ⟨rfl, rfl⟩

theorem job_inputs_params (s : State) : (job s).inputs = s.inputs ∧ (job s).params = s.params := by
  have e := job_effect s
  generalize job s = t at e
  cases e <;> exact ⟨rfl, rfl⟩

/-- Settles O6: each source of a step leaves the order as its beginning left it, and the parameters. -/
theorem stepNeverStops : Obligations.StepNeverStops := by
  intro s
  obtain ⟨t, hstep, -⟩ := step_effect s
  refine ⟨t, hstep, ?_⟩
  cases source_of_step hstep with
  | access t e => exact ⟨e.inputs, e.seq_params.2⟩
  | command i t _ e => exact ⟨e.registersKept.inputs, e.registersKept.params⟩
  | completion _ => exact job_inputs_params _
  | idle _ => exact ⟨rfl, rfl⟩
  | reset _ => exact ⟨rfl, rfl⟩

/-! ### The fault record (R246) -/

/-- The fault record of `t` goes on from that of `s`, with the cause of every ERR bit that is set in `t` and not in `s`. -/
def ErrsRecorded (s t : State) : Prop :=
  ∃ new, t.faults = s.faults ++ new ∧ ∀ c : ErrCause, t.errs &&& c.bit ≠ 0#7 → s.errs &&& c.bit = 0#7 → c ∈ new

namespace ErrsRecorded

/-- Where no ERR bit is new, the record may stay as it is. -/
theorem of_no_new {s t : State} (hfaults : t.faults = s.faults)
    (herrs : ∀ c : ErrCause, t.errs &&& c.bit ≠ 0#7 → s.errs &&& c.bit ≠ 0#7) : ErrsRecorded s t :=
  ⟨[], by rw [hfaults, List.append_nil], fun c ht hs => absurd hs (herrs c ht)⟩

theorem of_eq {s t : State} (hfaults : t.faults = s.faults) (herrs : t.errs = s.errs) : ErrsRecorded s t :=
  .of_no_new hfaults fun _ => by rw [herrs]; exact id

theorem of_raise (c : ErrCause) (info : Word) (s : State) : ErrsRecorded s (raise c info s) :=
  ⟨[c], rfl, fun _ ht hs => List.mem_singleton.2 ((errs_or_bit_and_bit ht).resolve_left (absurd hs)).symm⟩

/-- The W1C write to STATUS clears ERR bits and sets none (R237). -/
theorem of_statusWrite (v : Word) (s : State) : ErrsRecorded s (statusWrite v s) :=
  .of_no_new rfl fun _ => and_bit_ne_zero_of_and

theorem of_regWrite (v : Word) (s : State) (r : Reg) : ErrsRecorded s (regWrite v s r) := by
  cases r with
  | status => exact of_statusWrite v s
  | _ => exact .of_eq rfl rfl

theorem of_resetStep (s : State) : ErrsRecorded s (resetStep s) :=
  .of_no_new rfl fun _ ht => absurd BitVec.zero_and ht

/-- A job that aborts raises one error, and one that commits raises none (44_processor.md R209). -/
theorem of_job (s : State) : ErrsRecorded s (job s) := by
  have e := job_effect s
  generalize job s = t at e
  cases e with
  | badParam off _ => exact of_raise .param off s
  | notFinite _ _ => exact of_raise .num 0#32 s
  | done _ _ => exact .of_eq rfl rfl

end ErrsRecorded

theorem StoreEffect.errsRecorded {off v : Word} {b t : State} (e : StoreEffect off v b t) : ErrsRecorded b t := by
  cases e with
  | none => exact .of_eq rfl rfl
  | refused => exact .of_raise ..
  | register r _ => exact .of_regWrite v b r
  | buffer _ _ _ _ => exact .of_eq rfl rfl

theorem AccessEffect.errsRecorded {b t : State} (e : AccessEffect b t) : ErrsRecorded b t := by
  cases e with
  | read _ => exact .of_eq rfl rfl
  | readRefused off => exact .of_raise .access off b
  | writeRefused c info => exact .of_raise c info b
  | store _ _ _ e => exact e.errsRecorded

theorem CommandEffect.errsRecorded {i : Instr} {b t : State} (e : CommandEffect i b t) : ErrsRecorded b t := by
  cases e with
  | refused c info _ => exact .of_raise c info b
  | _ => exact .of_eq rfl rfl

/-- Settles O12: whatever brings a step about records the ERR bits that it sets. -/
theorem faultRecordOnlyGrows : Obligations.FaultRecordOnlyGrows := fun s t hstep => by
  change ErrsRecorded (s.begin s.inputs.tail) t
  cases source_of_step hstep with
  | access t e => exact e.errsRecorded
  | command i t _ e => exact e.errsRecorded
  | completion _ => exact .of_job _
  | idle _ => exact .of_eq rfl rfl
  | reset _ => exact .of_resetStep _

/-! ### The first failing check (R233) -/

/-- Settles O31: an illegal word is refused by the decoder, and each command's checks decide what else joins the record. -/
theorem firstFailingCheckDecides : Obligations.FirstFailingCheckDecides := by
  intro s t rest v h hstep
  have answers {u : State} {faults : List ErrCause} (hu : issueCommand v (s.begin rest) = .next u)
      (hf : u.faults = faults) : t.faults = faults := by
    cases hstep.symm.trans ((step_of_command h).trans hu)
    exact hf
  have runs (i : Instr) {u : State} {faults : List ErrCause} (hv : v = encode i) (hu : exec i (s.begin rest) = .next u)
      (hf : u.faults = faults) : t.faults = faults :=
    answers (by rw [hv, issueCommand_encode, hu]) hf
  refine ⟨fun hv => answers (issueCommand_of_illegalWord hv _) rfl, fun hv => runs .nop hv rfl rfl, ?busy,
    fun hv hu => runs .process hv (exec_process_unprepared hu) rfl,
    fun hv hr hlong => runs .process hv ((processRefusals _).2 hr hlong) rfl,
    fun hv hb hbad => runs .prepare hv (exec_prepare_badConfig hb hbad) rfl,
    fun hv hb hgood => runs .prepare hv (exec_prepare_accepted hb hgood) rfl,
    fun hv hb => runs .release hv (exec_release_accepted hb) rfl,
    fun hv hr hlen => runs .process hv (processLatchesAndStartsJob _ hr hlen) rfl⟩
  case busy =>
    intro hv hb
    obtain ⟨hprepare, hrelease, hprocess⟩ := busyRefusesCommands (s.begin rest) hb
    obtain hv | hv | hv := hv
    · exact runs .prepare hv hprepare rfl
    · exact runs .release hv hrelease rfl
    · exact runs .process hv hprocess rfl

/-! ### What changes STATE (R245) -/

theorem encode_of_ne_nop {i : Instr} (h : i ≠ .nop) : encode i = 1#32 ∨ encode i = 2#32 ∨ encode i = 3#32 := by
  cases i with
  | nop => exact absurd rfl h
  | prepare => exact .inl rfl
  | release => exact .inr (.inl rfl)
  | process => exact .inr (.inr rfl)

/-- Settles O58: accesses, idle turns, NOP and, in BUSY, every command keep STATE; each other source is one that the statement names. -/
theorem whatChangesState : Obligations.WhatChangesState := by
  intro s t hstep hseq
  change t.seq ≠ (s.begin s.inputs.tail).seq at hseq
  cases source_of_step hstep with
  | access t e => exact absurd e.seq_params.1 hseq
  | command i t hn e =>
    have hi : i ≠ .nop := fun hnop => hseq (congrArg State.seq (e.eq_of_nop hnop))
    have refusedInBusy (hb : (s.begin s.inputs.tail).seq = .busy) : t.seq = (s.begin s.inputs.tail).seq :=
      (e.jobDataKept hb).seq
    exact ⟨fun _ => .inr ⟨encode i, hn, encode_of_ne_nop hi⟩, fun hb => absurd (refusedInBusy hb) hseq⟩
  | completion hn => exact ⟨fun hb => absurd hn.1 hb, fun _ => .inr ⟨hn, job_seq _⟩⟩
  | idle _ => exact absurd rfl hseq
  | reset hn => exact ⟨fun _ => .inl hn, fun _ => .inl hn⟩

end Sys2Proof.Machine
end

section
/-! The reset step (70_reset_and_hazards.md R260 to R263): the values it leaves, the pending job it discards, and the invariant of the
state it starts the machine in. -/

namespace Sys2Proof.Machine

/-! ### The steps -/

/-- The reset comes next. -/
theorem step_of_reset {s : State} {rest : List Input} (h : s.inputs = .resetInput :: rest) :
    step s = .next (resetStep (s.begin rest)) := by
  rw [step, nextStep, h]
  rfl

/-- A sequencer turn comes next, and no job is pending. -/
theorem step_of_idle {s : State} {rest : List Input} (hs : s.seq ≠ .busy) (h : s.inputs = .sequencerTurn :: rest) :
    step s = .next (s.begin rest) := by
  rw [step, nextStep, h]
  exact congrArg Host.Outcome.next (if_neg hs)

/-! ### The values after a reset (10_state.md R20) -/

/-- STATUS is a sum of fields, each 0 after a reset. -/
theorem statusWord_resetStep (s : State) : statusWord (resetStep s) = 0#32 :=
  BitVec.eq_of_toNat_eq (statusWord_toNat (resetStep s))

theorem hist_resetStep (s : State) (ch : Channel) : (resetStep s).hist ch = HistFile.zero := by
  cases ch with
  | left => rfl
  | right => rfl

/-- No byte is listed after a reset, so each reads as the draw of that reset (20_memory.md R79; log 3). -/
theorem memByte_resetStep (s : State) (a : ℕ) :
    memByte (resetStep s).resets (resetStep s).mem a = Config.unwrittenByte (s.resets + 1) a := rfl

theorem eq_reset_of_mem_resetStep {s : State} {p : ParamSet} (h : p ∈ [(resetStep s).regs, (resetStep s).snap]) :
    p = ParamSet.reset := by
  obtain rfl | h := List.mem_cons.1 h
  · rfl
  · exact List.mem_singleton.1 h

/-- Settles O54: the arrays and words by their own lemmas; every other item is a field that `State.powerOn` gives. -/
theorem resetStepValues : Obligations.ResetStepValues := by
  intro s rest h
  refine ⟨resetStep (s.begin rest), step_of_reset h, rfl, rfl, rfl, rfl, statusWord_resetStep _, rfl, rfl, rfl, rfl, rfl, rfl, rfl,
    rfl, rfl, fun p hp => ?params, rfl, rfl, get_coefIdentity, fun ch n => ?hist, memByte_resetStep _, rfl, rfl, rfl⟩
  case params =>
    rw [eq_reset_of_mem_resetStep hp]
    exact ⟨rfl, rfl, rfl, rfl, rfl, rfl, rfl⟩
  case hist =>
    rw [hist_resetStep, get_histZero]
    rfl

/-- Settles O55: the reset leaves UNPREPARED, where the sequencer has no job to complete. -/
theorem resetDiscardsPendingJob : Obligations.ResetDiscardsPendingJob := by
  intro s rest _ h
  have hidle : (resetStep (s.begin (.sequencerTurn :: rest))).seq ≠ .busy := by
    rw [resetStep_seq]
    exact nofun
  exact ⟨_, step_of_reset h, step_of_idle hidle rfl, rfl, rfl, rfl⟩

/-! ### The invariant at power-on -/

theorem inv_powerOn {p : Params} (hp : p.wf = true) : (State.powerOn p).Inv where
  params := hp
  memory := .nil
  stored := nofun
  firstErr := iff_of_true rfl rfl
  firstErrCode := Nat.zero_le 7
  recorded := fun _ hc => absurd BitVec.zero_and hc
  lcCount := Nat.zero_le 4
  hcCount := Nat.zero_le 4
  counts := Iff.rfl
  bank := CoefBank.identity_finite
  prepared := fun hs => absurd rfl hs
  pending := nofun

/-- Settles O56: the power-on state meets each clause, and the reference parameters lie in their domains. -/
theorem invariantAtReset : Obligations.InvariantAtReset :=
  ⟨fun _ => inv_powerOn, inv_powerOn (by decide)⟩

end Sys2Proof.Machine
end
